-- ==== Sys2Proof/Word.lean ====
section
/-! DEFINITION. The two word types of the block: a Value (binary32, 00_scope.md R13) and an
instruction word (30_encoding.md R60). Integers are Lean's Nat and Int, as 00_scope.md R12 asks. -/

namespace Sys2Proof

/-- What registers, ROB results, station operands and memory cells hold: the 32 bits of an IEEE 754
binary32 number (00_scope.md R13). -/
abbrev Value := BitVec 32

/-- The word of the program port, one per program position (30_encoding.md R60, R72). -/
abbrev InstrWord := BitVec 64

end Sys2Proof
end

