-- ==== Sys2Proof/Syntax.lean ====
section
/-! DEFINITION. The seven instructions of spec/opcode_table.json and their static properties
(30_encoding.md R60 to R67, R75). -/

namespace Sys2Proof

/-- A register number as an instruction names it; legal ones are below NARCH (30_encoding.md R63). -/
abbrev RegNum := Nat

/-- An instruction record of 30_encoding.md R60: the opcode with the fields R66 gives that opcode.
`imm` is the signed immediate of R62. -/
inductive Instr where
  | add (rd rs1 rs2 : RegNum)
  | sub (rd rs1 rs2 : RegNum)
  | mul (rd rs1 rs2 : RegNum)
  | div (rd rs1 rs2 : RegNum)
  | ld (rd rs1 : RegNum) (imm : Int)
  | sd (rs1 rs2 : RegNum) (imm : Int)
  | beqz (rs1 : RegNum) (imm : Int)
  deriving DecidableEq, Repr

/-- The seven opcodes (30_encoding.md R64). -/
inductive Opcode where
  | add | sub | mul | div | ld | sd | beqz
  deriving DecidableEq, Repr

/-- The four instruction classes, one station pool each (30_encoding.md R65, 10_state.md R25). -/
inductive OpClass where
  | arith | muldiv | mem | branch
  deriving DecidableEq, Repr

/-- `class(op)` of 30_encoding.md R65. -/
def Opcode.cls : Opcode → OpClass
  | .add => .arith
  | .sub => .arith
  | .mul => .muldiv
  | .div => .muldiv
  | .ld => .mem
  | .sd => .mem
  | .beqz => .branch

/-- `writesReg(op)` of 30_encoding.md R67. -/
def Opcode.writesReg : Opcode → Bool
  | .add => true
  | .sub => true
  | .mul => true
  | .div => true
  | .ld => true
  | .sd => false
  | .beqz => false

/-- `isMemory(op)` of 30_encoding.md R75. -/
def Opcode.isMemory (op : Opcode) : Bool := op.cls = .mem

/-- `isMulDiv(op)` of 30_encoding.md R75. -/
def Opcode.isMulDiv (op : Opcode) : Bool := op.cls = .muldiv

/-- `isBranch(op)` of 30_encoding.md R75. -/
def Opcode.isBranch (op : Opcode) : Bool := op.cls = .branch

namespace Instr

/-- The record's opcode. -/
def opcode : Instr → Opcode
  | .add _ _ _ => .add
  | .sub _ _ _ => .sub
  | .mul _ _ _ => .mul
  | .div _ _ _ => .div
  | .ld _ _ _ => .ld
  | .sd _ _ _ => .sd
  | .beqz _ _ => .beqz

/-- The station pool the instruction issues into (30_encoding.md R65). -/
def cls (i : Instr) : OpClass := i.opcode.cls

/-- `dst` of 30_encoding.md R67: `rd` for a register writer, none otherwise. -/
def dst : Instr → Option RegNum
  | .add rd _ _ => some rd
  | .sub rd _ _ => some rd
  | .mul rd _ _ => some rd
  | .div rd _ _ => some rd
  | .ld rd _ _ => some rd
  | .sd _ _ _ => none
  | .beqz _ _ => none

/-- The register of operand j (30_encoding.md R66): every opcode uses `rs1`. -/
def srcJ : Instr → Option RegNum
  | .add _ rs1 _ => some rs1
  | .sub _ rs1 _ => some rs1
  | .mul _ rs1 _ => some rs1
  | .div _ rs1 _ => some rs1
  | .ld _ rs1 _ => some rs1
  | .sd rs1 _ _ => some rs1
  | .beqz rs1 _ => some rs1

/-- The register of operand k (30_encoding.md R66): LD and BEQZ use none. -/
def srcK : Instr → Option RegNum
  | .add _ _ rs2 => some rs2
  | .sub _ _ rs2 => some rs2
  | .mul _ _ rs2 => some rs2
  | .div _ _ rs2 => some rs2
  | .ld _ _ _ => none
  | .sd _ rs2 _ => some rs2
  | .beqz _ _ => none

/-- The record's immediate: 0 where 30_encoding.md R66 says the field must be 0. -/
def imm : Instr → Int
  | .add _ _ _ => 0
  | .sub _ _ _ => 0
  | .mul _ _ _ => 0
  | .div _ _ _ => 0
  | .ld _ _ imm => imm
  | .sd _ _ imm => imm
  | .beqz _ imm => imm

end Instr

end Sys2Proof
end

