-- ==== Sys2Proof/Config.lean ====
section
/-! DEFINITION. The configuration record (00_scope.md R6 to R8) and the free values the spec leaves open
(93_implementation_defined.md Part 1). -/

namespace Sys2Proof

/-- The configuration record of 00_scope.md R6. No value is given by the source: every statement is about
every configuration. -/
structure Config where
  /-- `NARCH`, architectural registers. -/
  narch : Nat
  /-- `NPHYS`, physical register names. -/
  nphys : Nat
  /-- `NROB`, ROB slots. -/
  nrob : Nat
  /-- `N_ARITH`, stations of the arithmetic pool. -/
  nArith : Nat
  /-- `N_MULDIV`, stations of the multiply/divide pool. -/
  nMuldiv : Nat
  /-- `N_MEM`, stations of the memory pool. -/
  nMem : Nat
  /-- `N_BRANCH`, stations of the branch pool. -/
  nBranch : Nat
  /-- `MEM_SIZE`, data addresses. -/
  memSize : Nat
  /-- `LAT(ADD)`. -/
  latAdd : Nat
  /-- `LAT(SUB)`. -/
  latSub : Nat
  /-- `LAT(MUL)`. -/
  latMul : Nat
  /-- `LAT(DIV)`. -/
  latDiv : Nat
  /-- `LAT(LD)`. -/
  latLd : Nat
  /-- `LAT(SD)`. -/
  latSd : Nat
  /-- `LAT(BEQZ)`. -/
  latBeqz : Nat
  /-- `CYCLE_CAP`. -/
  cycleCap : Nat
  /-- `STUCK_CAP`. -/
  stuckCap : Nat
  /-- `RUN_CEILING`. -/
  runCeiling : Nat
  deriving DecidableEq, Repr

namespace Config

/-- `LAT(op)` (30_encoding.md R68). -/
def lat (c : Config) : Opcode → Nat
  | .add => c.latAdd
  | .sub => c.latSub
  | .mul => c.latMul
  | .div => c.latDiv
  | .ld => c.latLd
  | .sd => c.latSd
  | .beqz => c.latBeqz

/-- The size of a station pool (10_state.md R25). -/
def poolSize (c : Config) : OpClass → Nat
  | .arith => c.nArith
  | .muldiv => c.nMuldiv
  | .mem => c.nMem
  | .branch => c.nBranch

/-- The constraints of the last column of 00_scope.md R6's table (R7 for the latencies). -/
def wf (c : Config) : Bool :=
  decide (1 ≤ c.narch) && decide (c.narch ≤ 32)
    && decide (1 ≤ c.nphys) && decide (c.nphys ≤ 65536)
    && decide (1 ≤ c.nrob)
    && decide (1 ≤ c.nArith) && decide (1 ≤ c.nMuldiv)
    && decide (1 ≤ c.nMem) && decide (1 ≤ c.nBranch)
    && decide (1 ≤ c.memSize) && decide (c.memSize ≤ 2147483648)
    && decide (1 ≤ c.latAdd) && decide (1 ≤ c.latSub)
    && decide (1 ≤ c.latMul) && decide (1 ≤ c.latDiv)
    && decide (1 ≤ c.latLd) && decide (1 ≤ c.latSd) && decide (1 ≤ c.latBeqz)
    && decide (1 ≤ c.cycleCap) && decide (1 ≤ c.runCeiling)

/-- `CFG-T` of 00_scope.md R8, the only configuration the spec gives values for. -/
def cfgT : Config :=
  { narch := 32, nphys := 16, nrob := 8
    nArith := 3, nMuldiv := 2, nMem := 2, nBranch := 1
    memSize := 1024
    latAdd := 3, latSub := 3, latMul := 4, latDiv := 8, latLd := 2, latSd := 2, latBeqz := 1
    cycleCap := 200, stuckCap := 5, runCeiling := 1000 }

end Config

/-- FREE VALUE (log 3): the sign of the `n`-th NaN the block produces (45_arith.md R164 (d)). -/
opaque Config.freeNaNSign : Nat → Bool

/-- FREE VALUE (log 3): the payload of the `n`-th NaN the block produces, less one, so that every non-zero
23-bit fraction is possible (45_arith.md R164 (d)). -/
opaque Config.freeNaNPayload : Nat → Fin 8388607

/-- FREE VALUE (log 2): the value the `n`-th draw gives a physical register at a host `reset` or `load`
(10_state.md R22). -/
opaque Config.freePhysValue : Nat → Value

/-- The `n`-th NaN the block produces: any sign, any non-zero fraction, and nothing else is known of it. -/
def Config.freeNaN (n : Nat) : Value :=
  BitVec.ofNat 32 ((if Config.freeNaNSign n then 2147483648 else 0) + 2139095040
    + ((Config.freeNaNPayload n).val + 1))

end Sys2Proof
end

