-- ==== Sys2Proof/WellFormed.lean ====
section
/-! DEFINITION. Which instruction records are legal (30_encoding.md R62, R63, R69). -/

namespace Sys2Proof

/-- The immediate is a signed 32-bit integer (30_encoding.md R62). -/
def immInRange (imm : Int) : Bool := decide (-2147483648 ≤ imm) && decide (imm ≤ 2147483647)

/-- The record is one a legal word decodes to, with `narch` architectural registers: every register it
names is below NARCH (R63, R69 (4)), the immediate fits its field (R62), and a BEQZ target is at least 1
(R69 (5)). -/
def Instr.wf (narch : Nat) : Instr → Bool
  | .add rd rs1 rs2 => decide (rd < narch) && decide (rs1 < narch) && decide (rs2 < narch)
  | .sub rd rs1 rs2 => decide (rd < narch) && decide (rs1 < narch) && decide (rs2 < narch)
  | .mul rd rs1 rs2 => decide (rd < narch) && decide (rs1 < narch) && decide (rs2 < narch)
  | .div rd rs1 rs2 => decide (rd < narch) && decide (rs1 < narch) && decide (rs2 < narch)
  | .ld rd rs1 imm => decide (rd < narch) && decide (rs1 < narch) && immInRange imm
  | .sd rs1 rs2 imm => decide (rs1 < narch) && decide (rs2 < narch) && immInRange imm
  | .beqz rs1 imm => decide (rs1 < narch) && immInRange imm && decide (1 ≤ imm)

end Sys2Proof
end

