-- ==== Sys2Proof/Decode.lean ====
section
/-! DEFINITION. Decoding and encoding of the 64-bit instruction word (30_encoding.md R60 to R73). -/

namespace Sys2Proof

/-- `w[hi:lo]` read as an unsigned integer (00_scope.md R11). -/
def bits (w : InstrWord) (hi lo : Nat) : Nat := w.toNat / 2 ^ lo % 2 ^ (hi + 1 - lo)

/-- `sext_32(v)`: a 32-bit field read as two's complement (00_scope.md R12). -/
def sext32 (v : Nat) : Int := if v < 2147483648 then (v : Int) else (v : Int) - 4294967296

/-- The load-error codes a word can have, in the order of the checks (30_encoding.md R69). -/
inductive DecodeError where
  /-- `BAD_OPCODE`: `opc` is 0x0 or 0x8..0xF. -/
  | badOpcode
  /-- `RESERVED_BITS`: `w[31:19]` is not 0. -/
  | reservedBits
  /-- `UNUSED_FIELD`: a field the opcode does not use is not 0. -/
  | unusedField
  /-- `BAD_REGISTER`: a used register field is `≥ NARCH`. -/
  | badRegister
  /-- `BAD_TARGET`: a BEQZ with `imm < 1`. -/
  | badTarget
  deriving DecidableEq, Repr

/-- The fields of the one format `W64` (30_encoding.md R61). -/
def fieldOpc (w : InstrWord) : Nat := bits w 3 0
/-- `rd`, bits [8:4] (30_encoding.md R61). -/
def fieldRd (w : InstrWord) : Nat := bits w 8 4
/-- `rs1`, bits [13:9] (30_encoding.md R61). -/
def fieldRs1 (w : InstrWord) : Nat := bits w 13 9
/-- `rs2`, bits [18:14] (30_encoding.md R61). -/
def fieldRs2 (w : InstrWord) : Nat := bits w 18 14
/-- `resv`, bits [31:19] (30_encoding.md R61). -/
def fieldResv (w : InstrWord) : Nat := bits w 31 19
/-- `imm`, bits [63:32], not yet sign-extended (30_encoding.md R61, R62). -/
def fieldImm (w : InstrWord) : Nat := bits w 63 32

/-- The opcode numbers of 30_encoding.md R64; 0x0 and 0x8 to 0xF are reserved. -/
def opcodeOfNumber : Nat → Option Opcode
  | 1 => some .add
  | 2 => some .sub
  | 3 => some .mul
  | 4 => some .div
  | 5 => some .ld
  | 6 => some .sd
  | 7 => some .beqz
  | _ => none

/-- The number of an opcode (30_encoding.md R64). -/
def Opcode.number : Opcode → Nat
  | .add => 1
  | .sub => 2
  | .mul => 3
  | .div => 4
  | .ld => 5
  | .sd => 6
  | .beqz => 7

/-- The field table of 30_encoding.md R66: a field marked "—" for the opcode is not 0. -/
def unusedFieldSet (op : Opcode) (w : InstrWord) : Bool :=
  match op with
  | .add => fieldImm w != 0
  | .sub => fieldImm w != 0
  | .mul => fieldImm w != 0
  | .div => fieldImm w != 0
  | .ld => fieldRs2 w != 0
  | .sd => fieldRd w != 0
  | .beqz => fieldRd w != 0 || fieldRs2 w != 0

/-- The record a word's fields make (30_encoding.md R60, R62, R63). -/
def recordOf (op : Opcode) (w : InstrWord) : Instr :=
  match op with
  | .add => .add (fieldRd w) (fieldRs1 w) (fieldRs2 w)
  | .sub => .sub (fieldRd w) (fieldRs1 w) (fieldRs2 w)
  | .mul => .mul (fieldRd w) (fieldRs1 w) (fieldRs2 w)
  | .div => .div (fieldRd w) (fieldRs1 w) (fieldRs2 w)
  | .ld => .ld (fieldRd w) (fieldRs1 w) (sext32 (fieldImm w))
  | .sd => .sd (fieldRs1 w) (fieldRs2 w) (sext32 (fieldImm w))
  | .beqz => .beqz (fieldRs1 w) (sext32 (fieldImm w))

/-- Every register the opcode uses is below NARCH (30_encoding.md R69 (4)). -/
def registersInRange (narch : Nat) (i : Instr) : Bool :=
  i.dst.all (fun r => decide (r < narch)) && i.srcJ.all (fun r => decide (r < narch))
    && i.srcK.all (fun r => decide (r < narch))

/-- A BEQZ target below 1 (30_encoding.md R69 (5)). -/
def targetTooLow (i : Instr) : Bool :=
  match i with
  | .add _ _ _ => false
  | .sub _ _ _ => false
  | .mul _ _ _ => false
  | .div _ _ _ => false
  | .ld _ _ _ => false
  | .sd _ _ _ => false
  | .beqz _ imm => decide (imm < 1)

/-- `decode(w)` of 30_encoding.md R69 and R71: one record, or the code of the first check that fails. -/
def decode (narch : Nat) (w : InstrWord) : Except DecodeError Instr :=
  match opcodeOfNumber (fieldOpc w) with
  | none => .error .badOpcode
  | some op =>
    if fieldResv w ≠ 0 then .error .reservedBits
    else if unusedFieldSet op w then .error .unusedField
    else if !registersInRange narch (recordOf op w) then .error .badRegister
    else if targetTooLow (recordOf op w) then .error .badTarget
    else .ok (recordOf op w)

/-- The fields of R61 side by side; for fields within their widths this is
`opc | rd << 4 | rs1 << 9 | rs2 << 14 | imm << 32` (30_encoding.md R71). -/
def packFields (opc rd rs1 rs2 imm : Nat) : InstrWord :=
  BitVec.ofNat 64 (opc + rd * 16 + rs1 * 512 + rs2 * 16384 + imm * 4294967296)

/-- `imm mod 2^32` (30_encoding.md R71). -/
def immField (imm : Int) : Nat := (imm % 4294967296).toNat

/-- `encode(r)` of 30_encoding.md R71. -/
def encode : Instr → InstrWord
  | .add rd rs1 rs2 => packFields 1 rd rs1 rs2 0
  | .sub rd rs1 rs2 => packFields 2 rd rs1 rs2 0
  | .mul rd rs1 rs2 => packFields 3 rd rs1 rs2 0
  | .div rd rs1 rs2 => packFields 4 rd rs1 rs2 0
  | .ld rd rs1 imm => packFields 5 rd rs1 0 (immField imm)
  | .sd rs1 rs2 imm => packFields 6 0 rs1 rs2 (immField imm)
  | .beqz rs1 imm => packFields 7 0 rs1 0 (immField imm)

/-- The instruction the decoder reads from an opcode-table row's bits: a whole instruction is one 64-bit word
(R72), bits above `nbits` are 0, and CFG-T's 32 registers make every register field a legal one. -/
def decodeTableWord (nbits w : Nat) : Option Instr :=
  match decode Config.cfgT.narch (BitVec.ofNat 64 (w % 2 ^ nbits)) with
  | .ok i => some i
  | .error _ => none

end Sys2Proof
end

