-- ==== Sys2Proof/Machine/Float.lean ====
section
/-! DEFINITION. The binary32 primitives of 00_scope.md R13 under the laws of 45_arith.md R164: every exact
result is an integer or a ratio of integers, and is rounded once, to nearest, ties to even. A result that is a
NaN has no fixed bits (R164 (d)): such an operation answers `none` and the engine draws the bits (log 3).
IEEE 754's own definitions are from outside the source (log 11). -/

namespace Sys2Proof.F32

/-- The sign bit. -/
def sign (v : Value) : Bool := decide (2147483648 ≤ v.toNat)

/-- The 8-bit exponent field. -/
def expField (v : Value) : Nat := v.toNat / 8388608 % 256

/-- The 23-bit fraction field. -/
def fracField (v : Value) : Nat := v.toNat % 8388608

/-- A NaN: exponent field all ones, fraction not 0. -/
def isNaN (v : Value) : Bool := decide (expField v = 255) && decide (fracField v ≠ 0)

/-- An infinity: exponent field all ones, fraction 0. -/
def isInf (v : Value) : Bool := decide (expField v = 255) && decide (fracField v = 0)

/-- Neither a NaN nor an infinity. -/
def isFinite (v : Value) : Bool := decide (expField v ≠ 255)

/-- `+0` or `−0`. -/
def isZero (v : Value) : Bool := decide (expField v = 0) && decide (fracField v = 0)

/-- The magnitude of a finite Value as a whole number of units of 2^−149, the smallest subnormal; subnormals
are kept (45_arith.md R164 (c)). -/
def units (v : Value) : Nat :=
  if expField v = 0 then fracField v else (8388608 + fracField v) * 2 ^ (expField v - 1)

/-- A finite Value as a signed whole number of units of 2^−149: its exact value times 2^149. -/
def signedUnits (v : Value) : Int := if sign v then -(units v : Int) else (units v : Int)

/-- One unit of magnitude 1.0: 2^149 units of 2^−149. -/
def one149 : Nat := 2 ^ 149

/-- The bits of `+inf`, without its sign. -/
def infMagnitude : Nat := 2139095040

/-- The bits below the sign of the binary32 nearest to `num / den` units of 2^−149, ties to even; beyond the
binary32 range the magnitude of an infinity (45_arith.md R164 (b)). The last kept bit is worth `2 ^ s` units. -/
def roundUnits (num den : Nat) : Nat :=
  let s := Nat.log2 (num / den) - 23
  let d := den * 2 ^ s
  let q := num / d
  let r := num % d
  let up : Nat := if d < 2 * r then 1 else if 2 * r = d then q % 2 else 0
  min (s * 8388608 + (q + up)) infMagnitude

/-- A Value from its sign and the 31 bits below it. -/
def pack (neg : Bool) (magnitude : Nat) : Value :=
  BitVec.ofNat 32 ((if neg then 2147483648 else 0) + magnitude)

/-- A zero of the given sign. -/
def zero (neg : Bool) : Value := pack neg 0

/-- An infinity of the given sign. -/
def inf (neg : Bool) : Value := pack neg infMagnitude

/-- `+0.0`, the value of cleared fields (10_state.md R26, R29). -/
def posZero : Value := 0#32

/-- `1.0`, the recorded result of a taken branch (48_branch.md R175). -/
def posOne : Value := 1065353216#32

/-- The Value with its sign bit inverted. -/
def neg (v : Value) : Value := BitVec.ofNat 32 (v.toNat + 2147483648)

/-- The binary32 nearest to `n / den` units of 2^−149 for a signed numerator that is not 0. -/
def roundSigned (n : Int) (den : Nat) : Value := pack (decide (n < 0)) (roundUnits n.natAbs den)

/-- `f32_add(a, b)` (00_scope.md R13, 45_arith.md R160, R164): `none` is a NaN. -/
def add (a b : Value) : Option Value :=
  if isNaN a || isNaN b then none
  else if isInf a then
    if isInf b && sign a != sign b then none else some a
  else if isInf b then some b
  else
    let n := signedUnits a + signedUnits b
    if n = 0 then some (zero (sign a && sign b)) else some (roundSigned n 1)

/-- `f32_sub(a, b)` (45_arith.md R161): the sum of `a` and `b` with its sign inverted. -/
def sub (a b : Value) : Option Value := if isNaN b then none else add a (neg b)

/-- `f32_mul(a, b)` (46_muldiv.md R165): the sign is the exclusive-or of the operand signs. -/
def mul (a b : Value) : Option Value :=
  let s := sign a != sign b
  if isNaN a || isNaN b then none
  else if isInf a || isInf b then
    if isZero a || isZero b then none else some (inf s)
  else some (pack s (roundUnits (units a * units b) one149))

/-- `f32_div(a, b)` (46_muldiv.md R166): a non-zero finite dividend over zero is an infinity, `0/0` and
`inf/inf` are NaNs. -/
def div (a b : Value) : Option Value :=
  let s := sign a != sign b
  if isNaN a || isNaN b then none
  else if isInf a then if isInf b then none else some (inf s)
  else if isInf b then some (zero s)
  else if isZero b then if isZero a then none else some (inf s)
  else some (pack s (roundUnits (units a * one149) (units b)))

/-- `f32_of_int(i)` for a natural (00_scope.md R13), used for the reset values `x[i] = i` and `mem[a] = a`. -/
def ofNat (i : Nat) : Value := pack false (roundUnits (i * one149) 1)

/-- `f32_of_int(i)` (00_scope.md R13). -/
def ofInt (i : Int) : Value :=
  if i = 0 then posZero else roundSigned (i * (one149 : Int)) 1

/-- `trunc_int(v)` of a finite Value: rounded toward zero (00_scope.md R13). -/
def truncInt (v : Value) : Int :=
  if sign v then -((units v / one149 : Nat) : Int) else ((units v / one149 : Nat) : Int)

end Sys2Proof.F32
end

