-- ==== Sys2Proof/Machine/State.lean ====
section
/-! DEFINITION. Every piece of state of 10_state.md, as plain data, and the state after reset
(70_reset_and_hazards.md R200, R201). A field of the spec that "may hold ⊥" is an Option. A free station and a
free ROB slot are ONE value each (10_state.md R26, R29), so they are empty options (log 7). -/

namespace Sys2Proof.Machine

/-- Why a step stops outside the spec's own outcomes. The spec's model faults BAD_ADDRESS and INVARIANT are no
such stop: they are recorded in the `fault` register by a NEXT state (60_exceptions.md R187, R188). -/
inductive Fault where
  /-- Raised by the execute phase for a busy, ready station with a positive counter whose `dest` no busy ROB slot
  owns: 41_execute.md R102 speaks of "the busy ROB slot", which 10_state.md R36 says exists. Safe: the model
  stops where the spec says nothing, and no state that meets the invariant reaches it (log 8). -/
  | unownedStation
  deriving DecidableEq, Repr

/-- Why a step gives no meaning. -/
inductive Refusal where
  /-- Raised by an arm of `exec` whose instruction has no meaning yet: none is left. Safe. -/
  | notModelled (mnemonic : String)
  deriving DecidableEq, Repr

/-- `status[i]` of 10_state.md R18. -/
inductive Status where
  | notIssued | issued | executed | resultWritten | committed | skipped
  deriving DecidableEq, Repr

/-- The source's numeric codes of `status` (10_state.md R18). -/
def Status.code : Status → Int
  | .notIssued => 0
  | .issued => 1
  | .executed => 2
  | .resultWritten => 3
  | .committed => 4
  | .skipped => -1

/-- `state` of a busy ROB slot (10_state.md R30); a free slot's `Free` is the empty option. -/
inductive SlotState where
  | processing | executing | executed | resultWritten
  deriving DecidableEq, Repr

/-- The numeric codes of a busy slot's state (10_state.md R30). -/
def SlotState.code : SlotState → Nat
  | .processing => 0
  | .executing => 1
  | .executed => 2
  | .resultWritten => 3

/-- A station's fixed name `(class, k)` (10_state.md R25). -/
structure StationName where
  cls : OpClass
  k : Nat
  deriving DecidableEq, Repr

/-- What a BUSY reservation station holds (10_state.md R26). -/
structure Station where
  op : Opcode
  vj : Value
  vk : Value
  qj : Option Nat
  qk : Option Nat
  dest : Nat
  imm : Int
  cyclesRemaining : Nat
  deriving DecidableEq, Repr

/-- A reservation station: its fixed name, and its contents while it is busy (10_state.md R26). -/
structure StationEntry where
  name : StationName
  body : Option Station
  deriving DecidableEq, Repr

/-- What a BUSY ROB slot holds (10_state.md R29); its `index` is its position in the ROB. -/
structure Slot where
  instr : Nat
  renamedReg : Nat
  publicReg : Option Nat
  state : SlotState
  ready : Bool
  result : Value
  issueCycle : Nat
  execCycle : Nat
  writeCycle : Nat
  commitCycle : Nat
  deriving DecidableEq, Repr

/-- The codes of the two model faults (60_exceptions.md R180, R185, R186). -/
inductive FaultCode where
  | badAddress | invariantBroken
  deriving DecidableEq, Repr

/-- The fault record (10_state.md R34). -/
structure FaultRecord where
  code : FaultCode
  cycle : Nat
  slot : Option Nat
  instr : Option Nat
  addr : Option Int
  deriving DecidableEq, Repr

/-- The reason of a stalled issue (60_exceptions.md R180). -/
inductive StallReason where
  | robFull | noStation | noPhysReg
  deriving DecidableEq, Repr

/-- The reason of a forced stop (60_exceptions.md R180). -/
inductive TimeoutReason where
  | cycleCapExceeded | stuckInstruction
  deriving DecidableEq, Repr

/-- Which operand a station waits for (41_execute.md R104). -/
inductive Which where
  | j | k
  deriving DecidableEq, Repr

/-- The events of the execution log (44_cycle_engine.md R158). -/
inductive Event where
  | cycleStart (c : Nat)
  | timeout (c : Nat) (reason : TimeoutReason) (i : Option Nat)
  | stallIssue (c pc : Nat) (reason : StallReason)
  | issue (c pc slot : Nat) (station : StationName) (name : Nat)
  | waitOperand (c : Nat) (station : StationName) (which : Which) (name : Nat)
  | execDone (c slot : Nat)
  | writeResult (c slot : Nat) (v : Value)
  | broadcast (c name : Nat) (v : Value)
  | flush (c branchSlot victimSlot : Nat)
  | commit (c slot instr : Nat) (reg : Option Nat) (v : Value)
  | complete (c : Nat)
  | fault (c : Nat) (code : FaultCode)
  deriving DecidableEq, Repr

/-- The data memory: the cells that differ from their reset value, by strictly rising address. A cell holds one
Value (20_memory.md R40, R44; log 6). -/
abbrev Memory := List (Nat × Value)

/-- The whole state of the block (10_state.md), plus the model's own `cfg` (log 1), `draws` (log 3) and
`onBus` (log 5). -/
structure State where
  /-- The configuration record of 00_scope.md R6; no step and no command writes it. -/
  cfg : Config
  /-- The program store (10_state.md R17). -/
  prog : List Instr
  /-- `status`, one entry per program position (10_state.md R18). -/
  status : List Status
  /-- `reissue`, one entry per program position (10_state.md R18). -/
  reissue : List Nat
  /-- The program counter, an index into `prog` (10_state.md R19). -/
  pc : Nat
  /-- The public registers `R0..R(NARCH-1)` (10_state.md R20). -/
  x : List Value
  /-- The physical registers `P0..P(NPHYS-1)` (10_state.md R22). -/
  p : List Value
  /-- The rename map (10_state.md R23). -/
  renameMap : List (Option Nat)
  /-- The free list, oldest name first (10_state.md R24). -/
  freeList : List Nat
  /-- The reservation stations in station order (10_state.md R25, R26). -/
  rs : List StationEntry
  /-- The reorder buffer, slot `k` at position `k` (10_state.md R28, R29). -/
  rob : List (Option Slot)
  /-- The ROB head (10_state.md R28). -/
  head : Nat
  /-- The ROB tail (10_state.md R28). -/
  tail : Nat
  /-- The data memory (10_state.md R32). -/
  mem : Memory
  /-- The number of the current tick (10_state.md R33). -/
  currentCycle : Nat
  /-- The total cycles of a finished run (10_state.md R33). -/
  totalCycles : Nat
  /-- The number of stall events (10_state.md R33). -/
  bubbleCount : Nat
  /-- The number of commits (10_state.md R33). -/
  committedCount : Nat
  /-- The run is finished (10_state.md R33). -/
  complete : Bool
  /-- The run was ended by a cap (10_state.md R33). -/
  timedOut : Bool
  /-- The `fault` register (10_state.md R33, R34). -/
  faultRec : Option FaultRecord
  /-- The execution log, oldest event first (10_state.md R33, 44_cycle_engine.md R158). -/
  log : List Event
  /-- MODEL'S OWN: how many free values have been drawn (log 3). -/
  draws : Nat
  /-- MODEL'S OWN: the station whose result is on the result bus, the loop variable of 42_write_result.md R126;
  none between ticks (log 5). -/
  onBus : Option Nat
  deriving DecidableEq, Repr

/-- The free stations of one pool, named `0, 1, …` (10_state.md R25). -/
def poolEntries (cls : OpClass) (n : Nat) : List StationEntry :=
  (List.range n).map (fun k => { name := { cls := cls, k := k }, body := none })

/-- All stations in station order, free (10_state.md R25, R26). -/
def freeStations (c : Config) : List StationEntry :=
  poolEntries .arith c.nArith ++ poolEntries .muldiv c.nMuldiv ++ poolEntries .mem c.nMem
    ++ poolEntries .branch c.nBranch

/-- The state 70_reset_and_hazards.md R200 gives, for a configuration, a kept program, the values of the physical
registers (which the spec leaves open, 10_state.md R22) and the count of draws. -/
def State.resetWith (c : Config) (prog : List Instr) (p : List Value) (draws : Nat) : State :=
  { cfg := c
    prog := prog
    status := List.replicate prog.length .notIssued
    reissue := List.replicate prog.length 0
    pc := 0
    x := (List.range c.narch).map F32.ofNat
    p := p
    renameMap := List.replicate c.narch none
    freeList := List.range c.nphys
    rs := freeStations c
    rob := List.replicate c.nrob none
    head := 0
    tail := 0
    mem := []
    currentCycle := 1
    totalCycles := 0
    bubbleCount := 0
    committedCount := 0
    complete := false
    timedOut := false
    faultRec := none
    log := []
    draws := draws
    onBus := none }

/-- Power-on: the reset state with an empty program (70_reset_and_hazards.md R201), under CFG-T (log 1), with the
physical registers, for which the spec gives no reset value, at 0.0 (DESIGN CHOICE, log 2). -/
def State.reset : State :=
  State.resetWith Config.cfgT [] (List.replicate Config.cfgT.nphys F32.posZero) 0

end Sys2Proof.Machine
end

