-- ==== Sys2Proof/Machine/Ops.lean ====
section
/-! DEFINITION. The operations the rules are written in (00_scope.md R14): memory, the log, the lookups of
stations and slots, the drawing of free values, and the taking of a model fault (60_exceptions.md R187). -/

namespace Sys2Proof.Machine

/-- Sequencing of two engine actions: the second runs on the state the first answers. -/
def andThen (o : Host.Outcome State Fault Refusal) (f : State → Host.Outcome State Fault Refusal) :
    Host.Outcome State Fault Refusal :=
  match o with
  | .next s => f s
  | .fault r => .fault r
  | .refused r => .refused r

/-! ## Data memory (20_memory.md) -/

/-- What an address with no listed cell reads as: its reset value `f32_of_int(a)` (10_state.md R32). -/
def Memory.unlisted (a : Nat) : Value := F32.ofNat a

/-- `MemRead(a, 1)`: the Value held at `a` (20_memory.md R43). -/
def Memory.read : Memory → Nat → Value
  | [], a => Memory.unlisted a
  | (b, v) :: m, a => if b = a then v else Memory.read m a

/-- `MemWrite(a, 1, v)`: `a` holds `v` (20_memory.md R43). The canonical form is kept: a cell that again holds its
reset value is removed. -/
def Memory.write : Memory → Nat → Value → Memory
  | [], a, v => if v = Memory.unlisted a then [] else [(a, v)]
  | (b, w) :: m, a, v =>
    if a < b then (if v = Memory.unlisted a then (b, w) :: m else (a, v) :: (b, w) :: m)
    else if a = b then (if v = Memory.unlisted a then m else (a, v) :: m)
    else (b, w) :: Memory.write m a v

/-- The canonical form: addresses strictly rising, and no cell that holds what its address reads as unlisted. -/
abbrev Memory.wf (m : Memory) : Prop :=
  m.Pairwise (fun c d => c.1 < d.1) ∧ ∀ c ∈ m, c.2 ≠ Memory.unlisted c.1

namespace State

/-! ## Registers, log, free values -/

/-- `x[r]` (00_scope.md R14). No register is hard-wired (10_state.md R20). -/
def readX (s : State) (r : Nat) : Value := s.x.getD r F32.posZero

/-- `log(E)`: append an event (00_scope.md R14). -/
def logEvent (s : State) (e : Event) : State := { s with log := s.log ++ [e] }

/-- The Value an arithmetic result stands for: a NaN gets bits from a fresh draw (45_arith.md R164 (d), log 3). -/
def drawn (s : State) (r : Option Value) : Value :=
  match r with
  | some v => v
  | none => Config.freeNaN s.draws

/-- The state after that draw: only a NaN uses one. -/
def afterDraw (s : State) (r : Option Value) : State :=
  { s with draws := match r with
      | some _ => s.draws
      | none => s.draws + 1 }

/-- `MemWrite` on the state (20_memory.md R43). -/
def storeValue (s : State) (a : Nat) (v : Value) : State := { s with mem := s.mem.write a v }

/-! ## Stations and slots -/

/-- The contents of the station at a position of the station order, while it is busy. -/
def stationAt (s : State) (sid : Nat) : Option Station :=
  match s.rs[sid]? with
  | some e => e.body
  | none => none

/-- The fixed name of the station at a position (10_state.md R25). -/
def stationName (s : State) (sid : Nat) : StationName :=
  match s.rs[sid]? with
  | some e => e.name
  | none => { cls := .arith, k := sid }

/-- The contents of ROB slot `k`, while it is busy. -/
def slotAt (s : State) (k : Nat) : Option Slot :=
  match s.rob[k]? with
  | some o => o
  | none => none

end State

/-- The busy slots of a ROB with their indices, counted from `k`, in ascending index order. -/
def busySlotsFrom (k : Nat) : List (Option Slot) → List (Nat × Slot)
  | [] => []
  | none :: l => busySlotsFrom (k + 1) l
  | some sl :: l => (k, sl) :: busySlotsFrom (k + 1) l

namespace State

/-- The busy slots with their indices. -/
def busySlots (s : State) : List (Nat × Slot) := busySlotsFrom 0 s.rob

/-- "The busy slot with `rob[k].renamedReg = n`" (42_write_result.md R112, 41_execute.md R102), which is unique
(10_state.md R36). -/
def owner (s : State) (n : Nat) : Option (Nat × Slot) :=
  s.busySlots.find? (fun ks => ks.2.renamedReg == n)

/-- The ROB is empty: no slot is busy (10_state.md R31). -/
def robEmpty (s : State) : Bool := s.rob.all Option.isNone

end State

/-- A station list with the contents of one position replaced; its name stays (10_state.md R26). -/
def setBody (rs : List StationEntry) (sid : Nat) (b : Option Station) : List StationEntry :=
  rs.modify sid (fun e => { e with body := b })

namespace State

/-- Clear the station at a position (42_write_result.md R123). -/
def clearStation (s : State) (sid : Nat) : State := { s with rs := setBody s.rs sid none }

/-! ## Taking a model fault

The block has no trap entry and no trap return (60_exceptions.md R190, R191): raising a fault records it and ends
the tick, and only the host commands `reset` and `load` leave the faulted state. -/

/-- `raise Fault(code, info)` (60_exceptions.md R187): the record of R185 or R186 goes to the `fault` register and
the event to the log; the engine then aborts the tick. -/
def raiseFault (s : State) (code : FaultCode) (slot instr : Option Nat) (addr : Option Int) : State :=
  { s with
    faultRec := some { code := code, cycle := s.currentCycle, slot := slot, instr := instr, addr := addr }
    log := s.log ++ [Event.fault s.currentCycle code] }

end State

end Sys2Proof.Machine
end

