-- ==== Sys2Proof/Machine/Operands.lean ====
section
/-! DEFINITION. The operand forms: a source register is resolved against the ROB at issue (40_rename_issue.md R84
to R87), and a memory operand is an effective address at write-result (47_load_store.md R170). -/

namespace Sys2Proof.Machine

/-- The producer of register `r` among ROB slots: the busy slot that writes `r` with the greatest issue cycle
(40_rename_issue.md R84, R85). -/
def youngestWriter (r : Nat) : List (Option Slot) → Option Slot
  | [] => none
  | none :: l => youngestWriter r l
  | some sl :: l =>
    if sl.publicReg = some r then
      match youngestWriter r l with
      | none => some sl
      | some b => if b.issueCycle < sl.issueCycle then some sl else some b
    else youngestWriter r l

/-- A resolved operand: the value, and the name of the producer it still waits for (40_rename_issue.md R84). -/
structure Operand where
  v : Value
  q : Option Nat
  deriving DecidableEq, Repr

namespace State

/-- `resolve(r)` of 40_rename_issue.md R84. -/
def resolve (s : State) (r : Nat) : Operand :=
  match youngestWriter r s.rob with
  | none => { v := s.readX r, q := none }
  | some sl =>
    if sl.ready then { v := sl.result, q := none }
    else { v := F32.posZero, q := some sl.renamedReg }

/-- Operand j or k of an instruction: resolved when the opcode uses the field, `(0.0, ⊥)` otherwise
(40_rename_issue.md R87). -/
def operand (s : State) (src : Option Nat) : Operand :=
  match src with
  | some r => s.resolve r
  | none => { v := F32.posZero, q := none }

end State

/-- The effective address, or the offending address of `BAD_ADDRESS` (none for a NaN or infinite base). -/
inductive EffAddr where
  | ok (a : Nat)
  | bad (addr : Option Int)
  deriving DecidableEq, Repr

/-- `EA(Vj, imm)` of 47_load_store.md R170 for a memory of `memSize` addresses: truncate the base toward zero, add
the offset exactly, and check the range; the non-finite test comes first (60_exceptions.md R189 (c)). -/
def effAddr (memSize : Nat) (vj : Value) (imm : Int) : EffAddr :=
  if !F32.isFinite vj then .bad none
  else
    let a := F32.truncInt vj + imm
    if a < 0 ∨ (memSize : Int) ≤ a then .bad (some a) else .ok a.toNat

end Sys2Proof.Machine
end

