-- ==== Sys2Proof/Machine/Issue.lean ====
section
/-! DEFINITION. Issue of one instruction: structural check, operand resolution, renaming, allocation
(40_rename_issue.md R82 to R96). Shared by every instruction's meaning. -/

namespace Sys2Proof.Machine

/-- The position, counted from `k`, of the first free station of a pool: the lowest-index one
(40_rename_issue.md R92). -/
def freeStationFrom (cls : OpClass) (k : Nat) : List StationEntry → Option Nat
  | [] => none
  | e :: l => if e.name.cls = cls ∧ e.body = none then some k else freeStationFrom cls (k + 1) l

namespace State

/-- The free station an instruction of a class takes (40_rename_issue.md R82 (b), R92). -/
def freeStation (s : State) (cls : OpClass) : Option Nat := freeStationFrom cls 0 s.rs

/-- A stalled issue: one bubble and one log entry, nothing else (40_rename_issue.md R82). -/
def stallIssue (s : State) (reason : StallReason) : State :=
  { s with
    bubbleCount := s.bubbleCount + 1
    log := s.log ++ [Event.stallIssue s.currentCycle s.pc reason] }

/-- The reservation station an issued instruction fills (40_rename_issue.md R92). -/
def issuedStation (s : State) (i : Instr) (n : Nat) : Station :=
  { op := i.opcode
    vj := (s.operand i.srcJ).v
    vk := (s.operand i.srcK).v
    qj := (s.operand i.srcJ).q
    qk := (s.operand i.srcK).q
    dest := n
    imm := i.imm
    cyclesRemaining := s.cfg.lat i.opcode }

/-- The ROB slot an issued instruction fills (40_rename_issue.md R91). -/
def issuedSlot (s : State) (i : Instr) (n : Nat) : Slot :=
  { instr := s.pc
    renamedReg := n
    publicReg := i.dst
    state := .processing
    ready := false
    result := F32.posZero
    issueCycle := s.currentCycle
    execCycle := 0
    writeCycle := 0
    commitCycle := 0 }

/-- The physical register of the new name is seeded with the destination's public value; a non-writer leaves it
alone (40_rename_issue.md R89, R90). -/
def seededPhys (s : State) (i : Instr) (n : Nat) : List Value :=
  match i.dst with
  | some d => s.p.set n (s.readX d)
  | none => s.p

/-- The rename map after issue (40_rename_issue.md R89, R90). -/
def renamedMap (s : State) (i : Instr) (n : Nat) : List (Option Nat) :=
  match i.dst with
  | some d => s.renameMap.set d (some n)
  | none => s.renameMap

/-- The re-issue counters after issue: the position's grows when it had been flushed (40_rename_issue.md R93). -/
def reissued (s : State) : List Nat :=
  if s.status[s.pc]? = some Status.skipped then s.reissue.modify s.pc (· + 1) else s.reissue

/-- A successful issue of `i` into station `sid` under the name `n`, with `rest` left in the free list; every
operand is resolved against the ROB before the new slot (40_rename_issue.md R86, R88 to R95). -/
def issued (s : State) (i : Instr) (sid n : Nat) (rest : List Nat) : State :=
  { s with
    freeList := rest
    p := s.seededPhys i n
    renameMap := s.renamedMap i n
    rob := s.rob.set s.tail (some (s.issuedSlot i n))
    rs := setBody s.rs sid (some (s.issuedStation i n))
    reissue := s.reissued
    status := s.status.set s.pc Status.issued
    log := s.log ++ [Event.issue s.currentCycle s.pc s.tail (s.stationName sid) n]
    tail := (s.tail + 1) % s.cfg.nrob
    pc := s.pc + 1 }

end State

/-- The issue of instruction `i`, the one at `pc` (40_rename_issue.md R96): it stalls for the first of ROB_FULL,
NO_STATION, NO_PHYS_REG that holds (R83), and otherwise issues. -/
def issueInstr (i : Instr) (s : State) : State :=
  match s.slotAt s.tail with
  | some _ => s.stallIssue .robFull
  | none =>
    match s.freeStation i.cls with
    | none => s.stallIssue .noStation
    | some sid =>
      match s.freeList with
      | [] => s.stallIssue .noPhysReg
      | n :: rest => s.issued i sid n rest

end Sys2Proof.Machine
end

