-- ==== Sys2Proof/Machine/WriteResult.lean ====
section
/-! DEFINITION. The write-result of one candidate station: recording, broadcast, branch flush and recovery
(42_write_result.md R112 to R125). Shared by every instruction's meaning. -/

namespace Sys2Proof.Machine

/-- What an opcode rule answers (42_write_result.md R113): the result, whether a branch is taken and the state after
the rule's own memory access and draw; or the model fault BAD_ADDRESS with its address (47_load_store.md R170). -/
inductive RuleResult where
  | done (v : Value) (taken : Bool) (s : State)
  | badAddress (addr : Option Int)

/-- An opcode rule reads its station's `Vj`, `Vk` and `imm` and the state (42_write_result.md R113). -/
abbrev OpcodeRule := Station → State → RuleResult

/-- An operand that waits on `q` gets the broadcast value (42_write_result.md R116). -/
def deliver (q : Nat) (v : Value) (st : Station) : Station :=
  { st with
    vj := if st.qj = some q then v else st.vj
    qj := if st.qj = some q then none else st.qj
    vk := if st.qk = some q then v else st.vk
    qk := if st.qk = some q then none else st.qk }

/-- A station that the name `n` belongs to is cleared (42_write_result.md R120). -/
def clearIfDest (n : Nat) (e : StationEntry) : StationEntry :=
  match e.body with
  | some st => if st.dest = n then { e with body := none } else e
  | none => e

namespace State

/-- The result goes to slot `k`, whose contents are `sl`, and to the physical register `sl.renamedReg`
(42_write_result.md R114, R115). -/
def recordResult (s : State) (k : Nat) (sl : Slot) (v : Value) : State :=
  { s with
    rob := s.rob.set k (some { sl with
      result := v, ready := true, state := .resultWritten, writeCycle := s.currentCycle })
    status := s.status.set sl.instr Status.resultWritten
    p := s.p.set sl.renamedReg v
    log := s.log ++ [Event.writeResult s.currentCycle k v] }

/-- The result bus delivers `v` under the name `q` to every waiting operand (42_write_result.md R116). -/
def broadcast (s : State) (q : Nat) (v : Value) : State :=
  { s with
    rs := s.rs.map (fun e => { e with body := e.body.map (deliver q v) })
    log := s.log ++ [Event.broadcast s.currentCycle q v] }

/-- A cleared rename-map entry, when it still names the slot's register (42_write_result.md R120, 43_commit.md
R131). -/
def unrenamed (s : State) (reg : Option Nat) (n : Nat) : List (Option Nat) :=
  match reg with
  | some r => if s.renameMap[r]? = some (some n) then s.renameMap.set r none else s.renameMap
  | none => s.renameMap

/-- A victim of the flush by the branch in slot `k` is cancelled (42_write_result.md R120). -/
def cancel (s : State) (k : Nat) (victim : Nat × Slot) : State :=
  { s with
    rs := s.rs.map (clearIfDest victim.2.renamedReg)
    status := s.status.set victim.2.instr Status.skipped
    freeList := s.freeList ++ [victim.2.renamedReg]
    renameMap := s.unrenamed victim.2.publicReg victim.2.renamedReg
    rob := s.rob.set victim.1 none
    log := s.log ++ [Event.flush s.currentCycle k victim.1] }

/-- The victims of a flush by the branch in slot `k`, which issued in cycle `c`: every other busy slot not older,
in ascending issue cycle (42_write_result.md R119). -/
def victims (s : State) (k c : Nat) : List (Nat × Slot) :=
  (s.busySlots.filter (fun js => decide (js.1 ≠ k) && decide (c ≤ js.2.issueCycle))).insertionSort
    (fun a b => a.2.issueCycle ≤ b.2.issueCycle)

/-- A taken branch in slot `k`: cancel the victims, roll the tail back, redirect the pc to `imm − 1`
(42_write_result.md R119 to R122). -/
def flushAndRedirect (s : State) (k c : Nat) (imm : Int) : State :=
  let s' := (s.victims k c).foldl (fun t js => t.cancel k js) s
  { s' with
    tail := (k + 1) % s.cfg.nrob
    pc := (imm - 1).toNat }

/-- Everything a candidate's write-result does once its rule has answered: record, broadcast, flush and redirect if
taken, clear the station (42_write_result.md R114 to R123). -/
def finishWrite (s : State) (sid k : Nat) (sl : Slot) (imm : Int) (v : Value) (taken : Bool) : State :=
  let s1 := (s.recordResult k sl v).broadcast sl.renamedReg v
  let s2 := if taken then s1.flushAndRedirect k sl.issueCycle imm else s1
  s2.clearStation sid

end State

/-- The write-result of the candidate station at `sid` with the opcode rule `rule` (42_write_result.md R112 to R123):
INVARIANT when no busy slot owns its `dest` or that slot was written in this cycle (60_exceptions.md R186), BAD_ADDRESS
when the rule faults (R185), in both cases with nothing of the candidate recorded (R187 (b)). A candidate whose station is
no longer busy is skipped (R111). -/
def writeBack (rule : OpcodeRule) (sid : Nat) (s : State) : State :=
  match s.stationAt sid with
  | none => s
  | some st =>
    match s.owner st.dest with
    | none => s.raiseFault .invariantBroken none none none
    | some (k, sl) =>
      if sl.writeCycle = s.currentCycle then
        s.raiseFault .invariantBroken (some k) (some sl.instr) none
      else
        match rule st s with
        | .badAddress a => s.raiseFault .badAddress (some k) (some sl.instr) a
        | .done v taken s' => s'.finishWrite sid k sl st.imm v taken

/-- The two points of the engine at which an instruction acts (log 12): its issue, when no station is on the result bus;
its write-result, when its station is. -/
def act (i : Instr) (rule : OpcodeRule) (s : State) : Host.Outcome State Fault Refusal :=
  match s.onBus with
  | none => .next (Sys2Proof.Machine.issueInstr i s)
  | some sid => .next (writeBack rule sid s)

end Sys2Proof.Machine
end

