-- ==== Sys2Proof/Machine/Commit.lean ====
section
/-! DEFINITION. The commit phase (43_commit.md). -/

namespace Sys2Proof.Machine

namespace State

/-- The head slot, which holds `sl`, retires: its register is written, its name returns to the back of the free list, the
slot is cleared and the head advances (43_commit.md R131 to R134). -/
def retired (s : State) (sl : Slot) : State :=
  { s with
    x := match sl.publicReg with
      | some r => s.x.set r sl.result
      | none => s.x
    renameMap := s.unrenamed sl.publicReg sl.renamedReg
    freeList := s.freeList ++ [sl.renamedReg]
    status := s.status.set sl.instr Status.committed
    committedCount := s.committedCount + 1
    log := s.log ++ [Event.commit s.currentCycle s.head sl.instr sl.publicReg sl.result]
    rob := s.rob.set s.head none
    head := (s.head + 1) % s.cfg.nrob }

end State

/-- The commit phase: the head slot commits iff it is busy and ready (43_commit.md R130, R135). -/
def commitPhase (s : State) : State :=
  match s.slotAt s.head with
  | none => s
  | some sl => if sl.ready then s.retired sl else s

end Sys2Proof.Machine
end

