-- ==== Sys2Proof/Machine/Arith.lean ====
section
/-! DEFINITION. The arithmetic family: ADD and SUB (45_arith.md). -/

namespace Sys2Proof.Machine

/-- `opcode_rule(ADD, Vj, Vk, imm)` (45_arith.md R160). -/
def ruleAdd : OpcodeRule := fun st s =>
  let r := F32.add st.vj st.vk
  .done (s.drawn r) false (s.afterDraw r)

/-- `opcode_rule(SUB, Vj, Vk, imm)` (45_arith.md R161). -/
def ruleSub : OpcodeRule := fun st s =>
  let r := F32.sub st.vj st.vk
  .done (s.drawn r) false (s.afterDraw r)

/-- ADD rd, rs1, rs2 (45_arith.md R160, R162). -/
def execAdd (rd rs1 rs2 : RegNum) (s : State) : Host.Outcome State Fault Refusal :=
  act (.add rd rs1 rs2) ruleAdd s

/-- SUB rd, rs1, rs2 (45_arith.md R161, R162). -/
def execSub (rd rs1 rs2 : RegNum) (s : State) : Host.Outcome State Fault Refusal :=
  act (.sub rd rs1 rs2) ruleSub s

end Sys2Proof.Machine
end

