-- ==== Sys2Proof/Machine/Flags.lean ====
section
/-! DEFINITION. The block has no flags, condition codes or predicate registers (10_state.md R37), and no
instruction writes or reads one (45_arith.md R164 (e)). The only condition is the equality test of BEQZ. -/

namespace Sys2Proof.F32

/-- `f32_eq(a, b)`: IEEE equality, true for `+0` and `−0`, false when either is a NaN (00_scope.md R13). -/
def eq (a b : Value) : Bool :=
  !isNaN a && !isNaN b && (decide (a = b) || (isZero a && isZero b))

/-- The condition of BEQZ, `f32_eq(v, 0.0)` (48_branch.md R175, 45_arith.md R164 (g)). -/
def equalsZero (v : Value) : Bool := eq v posZero

end Sys2Proof.F32
end

