-- ==== Sys2Proof/Machine/Branch.lean ====
section
/-! DEFINITION. The branch family: BEQZ (48_branch.md). -/

namespace Sys2Proof.Machine

/-- `opcode_rule(BEQZ, Vj, Vk, imm)` (48_branch.md R175): taken iff the tested value equals zero; the result is 1.0
or 0.0. -/
def ruleBeqz : OpcodeRule := fun st s =>
  if F32.equalsZero st.vj then .done F32.posOne true s else .done F32.posZero false s

/-- BEQZ rs1, imm (48_branch.md R175, R176). -/
def execBeqz (rs1 : RegNum) (imm : Int) (s : State) : Host.Outcome State Fault Refusal :=
  act (.beqz rs1 imm) ruleBeqz s

end Sys2Proof.Machine
end

