-- ==== Sys2Proof/Machine/LoadStore.lean ====
section
/-! DEFINITION. The load/store family: LD and SD (47_load_store.md). -/

namespace Sys2Proof.Machine

/-- `opcode_rule(LD, Vj, Vk, imm)` (47_load_store.md R171): the Value at the effective address is the result. -/
def ruleLd : OpcodeRule := fun st s =>
  match effAddr s.cfg.memSize st.vj st.imm with
  | .bad addr => .badAddress addr
  | .ok a => .done (s.mem.read a) false s

/-- `opcode_rule(SD, Vj, Vk, imm)` (47_load_store.md R172): the data operand is written now, and it is the recorded
result. -/
def ruleSd : OpcodeRule := fun st s =>
  match effAddr s.cfg.memSize st.vj st.imm with
  | .bad addr => .badAddress addr
  | .ok a => .done st.vk false (s.storeValue a st.vk)

/-- LD rd, imm(rs1) (47_load_store.md R171, R173). -/
def execLd (rd rs1 : RegNum) (imm : Int) (s : State) : Host.Outcome State Fault Refusal :=
  act (.ld rd rs1 imm) ruleLd s

/-- SD rs2, imm(rs1) (47_load_store.md R172, R173). -/
def execSd (rs1 rs2 : RegNum) (imm : Int) (s : State) : Host.Outcome State Fault Refusal :=
  act (.sd rs1 rs2 imm) ruleSd s

end Sys2Proof.Machine
end

