-- ==== Sys2Proof/Machine/MulDiv.lean ====
section
/-! DEFINITION. The multiply/divide family: MUL and DIV (46_muldiv.md). -/

namespace Sys2Proof.Machine

/-- `opcode_rule(MUL, Vj, Vk, imm)` (46_muldiv.md R165). -/
def ruleMul : OpcodeRule := fun st s =>
  let r := F32.mul st.vj st.vk
  .done (s.drawn r) false (s.afterDraw r)

/-- `opcode_rule(DIV, Vj, Vk, imm)` (46_muldiv.md R166). -/
def ruleDiv : OpcodeRule := fun st s =>
  let r := F32.div st.vj st.vk
  .done (s.drawn r) false (s.afterDraw r)

/-- MUL rd, rs1, rs2 (46_muldiv.md R165, R167). -/
def execMul (rd rs1 rs2 : RegNum) (s : State) : Host.Outcome State Fault Refusal :=
  act (.mul rd rs1 rs2) ruleMul s

/-- DIV rd, rs1, rs2 (46_muldiv.md R166, R167). -/
def execDiv (rd rs1 rs2 : RegNum) (s : State) : Host.Outcome State Fault Refusal :=
  act (.div rd rs1 rs2) ruleDiv s

end Sys2Proof.Machine
end

