-- ==== Sys2Proof/Machine/Execute.lean ====
section
/-! DEFINITION. The execute phase: it counts latencies down (41_execute.md). -/

namespace Sys2Proof.Machine

/-- Both operands are resolved (41_execute.md R101, 10_state.md R27). -/
def Station.isReady (st : Station) : Bool := st.qj.isNone && st.qk.isNone

namespace State

/-- One execute step of the ready station `st` at `sid`, whose slot `k` holds `sl` (41_execute.md R102, R103): with the
counter at 0 the slot and the instruction are Executed. -/
def executed (s : State) (sid : Nat) (st : Station) (k : Nat) (sl : Slot) : State :=
  let done : Bool := decide (st.cyclesRemaining = 1)
  let first : Bool := decide (sl.state = SlotState.processing)
  { s with
    rs := setBody s.rs sid (some { st with cyclesRemaining := st.cyclesRemaining - 1 })
    rob := s.rob.set k (some { sl with
      state := if done then .executed else if first then .executing else sl.state
      execCycle := if first then s.currentCycle else sl.execCycle })
    status := if done then s.status.set sl.instr Status.executed else s.status
    log := if done then s.log ++ [Event.execDone s.currentCycle k] else s.log }

/-- The operand a station waits for: j if it is pending, else k (41_execute.md R104). -/
def waitEvent (s : State) (sid : Nat) (st : Station) : Event :=
  match st.qj with
  | some q => .waitOperand s.currentCycle (s.stationName sid) .j q
  | none => .waitOperand s.currentCycle (s.stationName sid) .k (st.qk.getD 0)

/-- A busy station that is not ready counts a bubble (41_execute.md R104). -/
def waits (s : State) (sid : Nat) (st : Station) : State :=
  { s with
    bubbleCount := s.bubbleCount + 1
    log := s.log ++ [s.waitEvent sid st] }

end State

/-- The visit of one station (41_execute.md R101 to R104). -/
def executeStation (sid : Nat) (s : State) : Host.Outcome State Fault Refusal :=
  match s.stationAt sid with
  | none => .next s
  | some st =>
    if st.isReady then
      if st.cyclesRemaining = 0 then .next s
      else
        match s.owner st.dest with
        | none => .fault .unownedStation
        | some (k, sl) => .next (s.executed sid st k sl)
    else .next (s.waits sid st)

/-- The visits of the stations in a list, in its order. -/
def executeStations : List Nat → State → Host.Outcome State Fault Refusal
  | [], s => .next s
  | sid :: l, s => andThen (executeStation sid s) (executeStations l)

/-- The execute phase visits every station once, in station order (41_execute.md R100, R106). -/
def executePhase (s : State) : Host.Outcome State Fault Refusal :=
  executeStations (List.range s.rs.length) s

end Sys2Proof.Machine
end

