-- ==== Sys2Proof/Machine/Engine.lean ====
section
/-! DEFINITION. The cycle engine: the phases that run instructions, the guards, and one tick
(44_cycle_engine.md). -/

namespace Sys2Proof.Machine

/-- The instruction a station holds: its opcode and immediate (10_state.md R26). Its register numbers were used up at issue
(40_rename_issue.md R92) and no opcode rule reads one (42_write_result.md R113), so they are 0 here (log 12). -/
def Station.instr (st : Station) : Instr :=
  match st.op with
  | .add => .add 0 0 0
  | .sub => .sub 0 0 0
  | .mul => .mul 0 0 0
  | .div => .div 0 0 0
  | .ld => .ld 0 0 st.imm
  | .sd => .sd 0 0 st.imm
  | .beqz => .beqz 0 st.imm

namespace State

/-- A station is a candidate: busy with counter 0 (42_write_result.md R110). -/
def isCandidate (s : State) (sid : Nat) : Bool :=
  match s.stationAt sid with
  | some st => decide (st.cyclesRemaining = 0)
  | none => false

/-- The issue cycle of a station's slot; 0 when no slot owns it, so that its INVARIANT fault comes first
(42_write_result.md R111, log 9). -/
def issueCycleOf (s : State) (sid : Nat) : Nat :=
  match s.stationAt sid with
  | some st =>
    match s.owner st.dest with
    | some ks => ks.2.issueCycle
    | none => 0
  | none => 0

/-- The candidates at the start of the phase, oldest first (42_write_result.md R110, R111). -/
def candidates (s : State) : List Nat :=
  ((List.range s.rs.length).filter (fun sid => s.isCandidate sid)).insertionSort
    (fun a b => s.issueCycleOf a ≤ s.issueCycleOf b)

/-- The result bus is given to a station, or to none. -/
def setBus (s : State) (b : Option Nat) : State := { s with onBus := b }

end State

/-- The candidates are processed one at a time (42_write_result.md R126): one whose station is no longer busy is skipped
(R111), every other is put on the result bus and its instruction executed; a model fault ends the phase
(60_exceptions.md R187). -/
def writeResults : List Nat → State → Host.Outcome State Fault Refusal
  | [], s => .next (s.setBus none)
  | sid :: l, s =>
    if s.faultRec.isSome then .next (s.setBus none)
    else
      match s.stationAt sid with
      | none => writeResults l s
      | some st => andThen (exec st.instr (s.setBus (some sid))) (writeResults l)

/-- The write-result phase (42_write_result.md R126). -/
def writeResultPhase (s : State) : Host.Outcome State Fault Refusal :=
  writeResults s.candidates s

/-- The issue phase: the instruction at `pc`, if there is one, is executed, that is, issued
(40_rename_issue.md R80, R81, R96). -/
def issuePhase (s : State) : Host.Outcome State Fault Refusal :=
  match s.prog[s.pc]? with
  | none => .next s
  | some i => exec i s

namespace State

/-- A status that counts as in flight for the stuck guard (44_cycle_engine.md R144). -/
def isActive (st : Status) : Bool :=
  match st with
  | .notIssued => false
  | .issued => true
  | .executed => true
  | .resultWritten => true
  | .committed => false
  | .skipped => false

/-- Position `i` is in flight and was re-issued more often than the cap (44_cycle_engine.md R144). -/
def isStuck (s : State) (i : Nat) : Bool :=
  match s.status[i]?, s.reissue[i]? with
  | some st, some n => isActive st && decide (s.cfg.stuckCap < n)
  | _, _ => false

/-- The lowest stuck position (44_cycle_engine.md R144). -/
def stuckPosition (s : State) : Option Nat :=
  (List.range s.prog.length).find? (fun i => s.isStuck i)

/-- A forced stop: no phase runs and the cycle number stays (44_cycle_engine.md R143, R144). -/
def timeout (s : State) (reason : TimeoutReason) (i : Option Nat) : State :=
  { s with
    complete := true
    timedOut := true
    totalCycles := s.currentCycle - 1
    log := s.log ++ [Event.timeout s.currentCycle reason i] }

/-- The end of a tick whose phases all ran: normal completion when the program has ended and the ROB is empty, else the
next cycle (44_cycle_engine.md R147, R148). -/
def endTick (s : State) : State :=
  if s.prog.length ≤ s.pc ∧ s.robEmpty = true then
    { s with
      complete := true
      totalCycles := s.currentCycle
      log := s.log ++ [Event.complete s.currentCycle] }
  else { s with currentCycle := s.currentCycle + 1 }

/-- The engine is `Complete` or `Faulted`: a step is a no-op (44_cycle_engine.md R141, R149). -/
def stopped (s : State) : Bool := s.complete || s.faultRec.isSome

end State

/-- What follows write-result in a tick: nothing after a model fault (60_exceptions.md R187, R189 (d)), else execute, issue,
commit and the end of the tick (44_cycle_engine.md R145 to R148). -/
def afterWriteResult (s : State) : Host.Outcome State Fault Refusal :=
  if s.faultRec.isSome then .next s
  else
    andThen (executePhase s) (fun s2 =>
      andThen (issuePhase s2) (fun s3 => .next (commitPhase s3).endTick))

/-- One tick (44_cycle_engine.md R140): the no-op, the cycle boundary, the guards in their order, the phases. -/
def tick (s : State) : Host.Outcome State Fault Refusal :=
  if s.stopped then .next s
  else
    let s0 := s.logEvent (.cycleStart s.currentCycle)
    if s0.cfg.cycleCap < s0.currentCycle then .next (s0.timeout .cycleCapExceeded none)
    else
      match s0.stuckPosition with
      | some i => .next (s0.timeout .stuckInstruction (some i))
      | none => andThen (writeResultPhase s0) afterWriteResult

/-- `s` with the decoded instruction `i` where the next issue reads its instruction: at `pc` when the program reaches that
far, and otherwise as a one-instruction program at position 0. -/
def placeInstr (s : State) (i : Instr) : State :=
  if s.pc < s.prog.length then { s with prog := s.prog.set s.pc i }
  else { s with prog := [i], status := [Status.notIssued], reissue := [0], pc := 0 }

end Sys2Proof.Machine
end

