-- ==== Sys2Proof/Machine/Step.lean ====
section
/-! DEFINITION. One step of the machine is one tick of the cycle engine (44_cycle_engine.md R140, R152). -/

namespace Sys2Proof.Machine

/-- `step()` (44_cycle_engine.md R152). -/
def step (s : State) : Host.Outcome State Fault Refusal := tick s

/-- The word of an opcode-table row stored where the next step reads its instruction, as the host's `load` stores it: decoded.
An illegal word is never stored (30_encoding.md R69), so it leaves the state as it is (log 13, log 14). -/
def State.withFetchWord (s : State) (nbits w : Nat) : State :=
  match decode s.cfg.narch (BitVec.ofNat 64 (w % 2 ^ nbits)) with
  | .ok i => placeInstr s i
  | .error _ => s

end Sys2Proof.Machine
end

