-- ==== Sys2Proof/Machine/HostCommands.lean ====
section
/-! DEFINITION. The host's commands and queries (44_cycle_engine.md R151 to R159). `step()` is `step`. -/

namespace Sys2Proof.Machine

/-! ## Commands -/

/-- `step()` called up to `fuel` times, until the engine is stopped (44_cycle_engine.md R153). -/
def runSteps : Nat → State → Host.Outcome State Fault Refusal
  | 0, s => .next s
  | fuel + 1, s => if s.stopped then .next s else andThen (step s) (runSteps fuel)

/-- `runToCompletion()` (44_cycle_engine.md R153): at most RUN_CEILING calls of `step`. -/
def runToCompletion (s : State) : Host.Outcome State Fault Refusal := runSteps s.cfg.runCeiling s

/-- The physical registers after a `reset` or `load`: one free value each (10_state.md R22, log 2). -/
def drawnPhys (s : State) : List Value :=
  (List.range s.cfg.nphys).map (fun n => Config.freePhysValue (s.draws + n))

/-- The reset state for a program, keeping the configuration and the count of draws (log 4). -/
def resetFor (s : State) (prog : List Instr) : State :=
  State.resetWith s.cfg prog (drawnPhys s) (s.draws + s.cfg.nphys)

/-- `reset()` (44_cycle_engine.md R154, 70_reset_and_hazards.md R200): the program is kept. -/
def hostReset (s : State) : State := resetFor s s.prog

/-- The code of a failed load (60_exceptions.md R180, R184). -/
inductive LoadCode where
  /-- `TOO_LONG`: more than 2^31 − 1 words. -/
  | tooLong
  /-- A word is illegal: the first check of 30_encoding.md R69 that fails. -/
  | badWord (e : DecodeError)
  deriving DecidableEq, Repr

/-- What a failed load returns: `{code, position}` (60_exceptions.md R184). -/
structure LoadError where
  code : LoadCode
  position : Option Nat
  deriving DecidableEq, Repr

/-- Decode words from position `k` on; the first illegal word is reported (60_exceptions.md R189 (a)). -/
def decodeAll (narch k : Nat) : List InstrWord → Except LoadError (List Instr)
  | [] => .ok []
  | w :: l =>
    match decode narch w with
    | .error e => .error { code := .badWord e, position := some k }
    | .ok i =>
      match decodeAll narch (k + 1) l with
      | .error e => .error e
      | .ok is => .ok (i :: is)

/-- `load(words)` (44_cycle_engine.md R155): all or nothing. On success the program is replaced and reset applied; on
failure there is an error, and the host's state is the one it had. -/
def hostLoad (s : State) (words : List InstrWord) : Except LoadError State :=
  if 2147483647 < words.length then .error { code := .tooLong, position := none }
  else
    match decodeAll s.cfg.narch 0 words with
    | .error e => .error e
    | .ok prog => .ok (resetFor s prog)

/-- The block's state after a `load`, failed or not (60_exceptions.md R184). -/
def stateAfterLoad (s : State) (words : List InstrWord) : State :=
  match hostLoad s words with
  | .error _ => s
  | .ok s' => s'

/-! ## Queries -/

/-- One station as `snapshotReservationStations` shows it (44_cycle_engine.md R156). -/
structure StationView where
  name : StationName
  busy : Bool
  op : Option Opcode
  vj : Value
  vk : Value
  qj : Option Nat
  qk : Option Nat
  dest : Option Nat
  deriving DecidableEq, Repr

/-- A station with the cleared values of 10_state.md R26 where it is free. -/
def viewStation (e : StationEntry) : StationView :=
  match e.body with
  | some st =>
    { name := e.name, busy := true, op := some st.op, vj := st.vj, vk := st.vk, qj := st.qj, qk := st.qk
      dest := some st.dest }
  | none =>
    { name := e.name, busy := false, op := none, vj := F32.posZero, vk := F32.posZero, qj := none, qk := none
      dest := none }

/-- `snapshotReservationStations()`: every station in station order (44_cycle_engine.md R156). -/
def snapshotReservationStations (s : State) : List StationView := s.rs.map viewStation

/-- The written name of a station: `Arith1`, `MulDiv1`, `Mem1`, `Branch1`, … (10_state.md R25). -/
def StationName.text (n : StationName) : String :=
  (match n.cls with
    | .arith => "Arith"
    | .muldiv => "MulDiv"
    | .mem => "Mem"
    | .branch => "Branch") ++ toString (n.k + 1)

/-- One slot as `snapshotReorderBuffer` shows it (44_cycle_engine.md R156). -/
structure SlotView where
  index : Nat
  busy : Bool
  instr : Option Nat
  stateCode : Nat
  publicReg : Option Nat
  result : Value
  deriving DecidableEq, Repr

/-- A slot with the cleared values of 10_state.md R29 and `Free = 7` (R30) where it is free. -/
def viewSlot (k : Nat) (o : Option Slot) : SlotView :=
  match o with
  | some sl =>
    { index := k, busy := true, instr := some sl.instr, stateCode := sl.state.code, publicReg := sl.publicReg
      result := sl.result }
  | none =>
    { index := k, busy := false, instr := none, stateCode := 7, publicReg := none, result := F32.posZero }

/-- `snapshotReorderBuffer()`: all NROB slots from `head`, circularly (44_cycle_engine.md R156). -/
def snapshotReorderBuffer (s : State) : List SlotView :=
  (List.range s.cfg.nrob).map (fun j =>
    viewSlot ((s.head + j) % s.cfg.nrob) (s.slotAt ((s.head + j) % s.cfg.nrob)))

/-- What `snapshotRegisters` shows (44_cycle_engine.md R157). -/
structure RegistersView where
  publicValues : List Value
  physicalValues : List Value
  renameMap : List (Option Nat)
  deriving DecidableEq, Repr

/-- `snapshotRegisters()` (44_cycle_engine.md R157). -/
def snapshotRegisters (s : State) : RegistersView :=
  { publicValues := s.x, physicalValues := s.p, renameMap := s.renameMap }

/-- `executionLog()` (44_cycle_engine.md R158). -/
def executionLog (s : State) : List Event := s.log

/-- The program length, a scalar query (44_cycle_engine.md R159). -/
def programLength (s : State) : Nat := s.prog.length

/-- `IPC` (10_state.md R35, 44_cycle_engine.md R159): an exact rational, 0 when `totalCycles` is 0. The other scalar queries
are the fields `currentCycle`, `totalCycles`, `bubbleCount`, `committedCount`, `complete`, `timedOut` and `faultRec`. -/
def ipc (s : State) : Rat := if s.totalCycles = 0 then 0 else (s.committedCount : Rat) / (s.totalCycles : Rat)

/-- The four engine states (44_cycle_engine.md R149). -/
inductive EngineState where
  | running | completeNormal | completeTimeout | faulted
  deriving DecidableEq, Repr

/-- The engine state the status registers determine (44_cycle_engine.md R149). -/
def engineState (s : State) : EngineState :=
  if s.complete then (if s.timedOut then .completeTimeout else .completeNormal)
  else if s.faultRec.isSome then .faulted else .running

end Sys2Proof.Machine
end

