-- ==== Sys2Proof/Safety.lean ====
section
/-! DEFINITION. What a sound state and a sound run are, in the terms the statements use: the invariants the spec itself states
(10_state.md R31, R36, 42_write_result.md R125 (c)) with the legal values of each field (10_state.md). -/

namespace Sys2Proof.Machine

/-- The names owned by busy slots, in slot order (10_state.md R36). -/
def State.ownedNames (s : State) : List Nat := s.rob.filterMap (fun o => o.map Slot.renamedReg)

/-- Every list has the length and every pointer the range that 10_state.md gives it (R17 to R28, R33), and the loaded program
is legal (30_encoding.md R69). -/
structure State.Shape (s : State) : Prop where
  cfgWf : s.cfg.wf = true
  progLen : s.prog.length ≤ 2147483647
  progWf : ∀ i ∈ s.prog, i.wf s.cfg.narch = true
  statusLen : s.status.length = s.prog.length
  reissueLen : s.reissue.length = s.prog.length
  xLen : s.x.length = s.cfg.narch
  pLen : s.p.length = s.cfg.nphys
  mapLen : s.renameMap.length = s.cfg.narch
  robLen : s.rob.length = s.cfg.nrob
  stationNames : s.rs.map StationEntry.name = (freeStations s.cfg).map StationEntry.name
  headLt : s.head < s.cfg.nrob
  tailLt : s.tail < s.cfg.nrob
  pcLe : s.pc ≤ 2147483647
  cyclePos : 1 ≤ s.currentCycle

/-- The contents of a busy slot are legal (10_state.md R29, R30): it names a program position, a register of the file or none,
it was issued by now, and it is ready exactly when its result is written. -/
structure SlotOk (s : State) (sl : Slot) : Prop where
  instrLt : sl.instr < s.prog.length
  regLt : ∀ r, sl.publicReg = some r → r < s.cfg.narch
  issuedBy : sl.issueCycle ≤ s.currentCycle
  issuePos : 1 ≤ sl.issueCycle
  readyIff : sl.ready = true ↔ sl.state = SlotState.resultWritten
  unwritten : sl.ready = false → sl.writeCycle = 0
  uncommitted : sl.commitCycle = 0

/-- The contents of a busy station are legal (10_state.md R26, R27): it is in the pool of its opcode, its counter is at most
the latency, a pending operand's value field is 0.0, and a station whose counter reached 0 waits for nothing. -/
structure StationOk (s : State) (name : StationName) (st : Station) : Prop where
  poolOk : name.cls = st.op.cls
  counterLe : st.cyclesRemaining ≤ s.cfg.lat st.op
  doneReady : st.cyclesRemaining = 0 → st.qj = none ∧ st.qk = none
  zeroJ : st.qj ≠ none → st.vj = F32.posZero
  zeroK : st.qk ≠ none → st.vk = F32.posZero
  immOk : immInRange st.imm = true
  targetOk : st.op = Opcode.beqz → 1 ≤ st.imm

/-- Single ownership (10_state.md R36): every physical name is once in the free list or the name of one busy slot. -/
def State.NamesOnce (s : State) : Prop :=
  (s.freeList ++ s.ownedNames).Perm (List.range s.cfg.nphys)

/-- The link of a busy station: its `dest` is the name of a busy slot that has not written its result (10_state.md R36). -/
def State.LinkOk (s : State) (st : Station) : Prop :=
  ∃ k sl, s.slotAt k = some sl ∧ sl.renamedReg = st.dest ∧ sl.ready = false

/-- No two busy stations belong to one slot (10_state.md R36). -/
def State.DestsDistinct (s : State) : Prop :=
  ∀ a b sa sb, s.stationAt a = some sa → s.stationAt b = some sb → sa.dest = sb.dest → a = b

/-- Every entry of the rename map names a busy slot that writes that register (10_state.md R23, "currently live renaming"). -/
def State.MapLive (s : State) : Prop :=
  ∀ r n, s.renameMap[r]? = some (some n) →
    ∃ k sl, s.slotAt k = some sl ∧ sl.renamedReg = n ∧ sl.publicReg = some r

/-- The invariant that holds between any two phases of a tick. -/
structure State.Consistent (s : State) : Prop where
  shape : s.Shape
  slotsOk : ∀ k sl, s.slotAt k = some sl → SlotOk s sl
  stationsOk : ∀ sid st, s.stationAt sid = some st → StationOk s (s.stationName sid) st
  namesOnce : s.NamesOnce
  links : ∀ sid st, s.stationAt sid = some st → s.LinkOk st
  distinct : s.DestsDistinct
  mapLive : s.MapLive

/-- The invariant between ticks: consistency, no station on the result bus, every slot issued in an earlier tick, and never both
complete and faulted (60_exceptions.md R187 (f)). -/
structure State.Inv (s : State) : Prop where
  consistent : s.Consistent
  busFree : s.onBus = none
  issuedBefore : ∀ k sl, s.slotAt k = some sl → sl.issueCycle < s.currentCycle
  notBoth : ¬(s.complete = true ∧ s.faultRec.isSome = true)

/-- The `j`-th slot from the head, circularly (10_state.md R31). -/
def State.ringSlot (s : State) (j : Nat) : Option Slot := s.slotAt ((s.head + j) % s.cfg.nrob)

/-- The occupancy invariant (10_state.md R31): the busy slots are the `n` slots from `head` up to `tail − 1`, circularly, and their
issue cycles strictly increase from `head` towards `tail`. -/
def State.Ring (s : State) : Prop :=
  ∃ n, n ≤ s.cfg.nrob ∧ s.tail = (s.head + n) % s.cfg.nrob ∧
    (∀ j, j < s.cfg.nrob → ((s.ringSlot j).isSome = true ↔ j < n)) ∧
    ∀ i j a b, i < j → j < n → s.ringSlot i = some a → s.ringSlot j = some b → a.issueCycle < b.issueCycle

/-- A name a station waits for is the name of an older busy slot that writes a register and has not written its result
(40_rename_issue.md R84, R90, 42_write_result.md R125 (c)). -/
def State.WaitsOk (s : State) : Prop :=
  ∀ sid st q, s.stationAt sid = some st → (st.qj = some q ∨ st.qk = some q) →
    ∃ k sl, s.slotAt k = some sl ∧ sl.renamedReg = q ∧ sl.ready = false ∧ sl.publicReg ≠ none ∧
      ∀ k' sl', s.slotAt k' = some sl' → sl'.renamedReg = st.dest → sl.issueCycle < sl'.issueCycle

/-- The memory is in canonical form and lists only addresses that exist (20_memory.md R40). -/
def State.MemOk (s : State) : Prop := s.mem.wf ∧ ∀ c ∈ s.mem, c.1 < s.cfg.memSize

/-- A run so far has not committed more than one instruction a tick (70_reset_and_hazards.md R213). -/
def State.CommitBound (s : State) : Prop :=
  1 ≤ s.currentCycle ∧
    (s.complete = false → s.committedCount + 1 ≤ s.currentCycle) ∧
    (s.complete = true → s.committedCount ≤ s.totalCycles)

/-! ## What the statement about the execute phase says -/

/-- The visit of the station at `sid` finishes execution: it is ready with counter 1, and slot `k`, which owns its name, holds the
instruction at program position `i` (41_execute.md R102, R103). -/
def State.FinishesExecute (s : State) (sid k i : Nat) : Prop :=
  ∃ st sl, s.stationAt sid = some st ∧ st.qj = none ∧ st.qk = none ∧ st.cyclesRemaining = 1 ∧
    s.slotAt k = some sl ∧ sl.renamedReg = st.dest ∧ sl.instr = i

/-- The event the visit of the station at `sid` logs, if any: the first pending operand, or the end of execution in the slot that
owns its name (41_execute.md R103, R104). -/
def State.executeEvent (s : State) (sid : Nat) : Option Event :=
  (s.stationAt sid).bind (fun st =>
    match st.qj, st.qk with
    | some q, _ => some (.waitOperand s.currentCycle (s.stationName sid) .j q)
    | none, some q => some (.waitOperand s.currentCycle (s.stationName sid) .k q)
    | none, none =>
      if st.cyclesRemaining = 1 then (s.owner st.dest).map (fun ks => .execDone s.currentCycle ks.1) else none)

/-! ## What the statements about results say

The station at `sid` is about to write back: it is on the result bus and busy with contents `st`, slot `k` with contents `sl`
is the one busy slot that owns its name, and that slot was not written in this cycle (42_write_result.md R112). -/

/-- The situation of 42_write_result.md R112 in which a candidate has its slot. -/
structure State.OnBus (s : State) (sid : Nat) (st : Station) (k : Nat) (sl : Slot) : Prop where
  bus : s.onBus = some sid
  busy : s.stationAt sid = some st
  slot : s.slotAt k = some sl
  owns : sl.renamedReg = st.dest
  only : ∀ j x, s.slotAt j = some x → x.renamedReg = st.dest → j = k
  notYet : sl.writeCycle ≠ s.currentCycle

/-- What recording and broadcasting the result `v` of the candidate `sid` of slot `k` changes, and all it leaves unchanged but
the memory and the model's count of draws (42_write_result.md R114, R115, R116, R123). -/
structure State.Recorded (s t : State) (sid : Nat) (st : Station) (k : Nat) (sl : Slot) (v : Value) : Prop where
  slotIsWritten : t.slotAt k = some { sl with
    result := v, ready := true, state := .resultWritten, writeCycle := s.currentCycle }
  otherSlots : ∀ j, j ≠ k → t.slotAt j = s.slotAt j
  status : t.status = s.status.set sl.instr Status.resultWritten
  physical : t.p = s.p.set st.dest v
  stationIsFree : t.stationAt sid = none
  otherStations : ∀ j, j ≠ sid → t.stationAt j = (s.stationAt j).map (fun w =>
    { w with
      vj := if w.qj = some st.dest then v else w.vj
      qj := if w.qj = some st.dest then none else w.qj
      vk := if w.qk = some st.dest then v else w.vk
      qk := if w.qk = some st.dest then none else w.qk })
  stationNames : t.rs.map StationEntry.name = s.rs.map StationEntry.name
  log : t.log = s.log ++ [.writeResult s.currentCycle k v, .broadcast s.currentCycle st.dest v]
  robLength : t.rob.length = s.rob.length
  cfg : t.cfg = s.cfg
  prog : t.prog = s.prog
  reissue : t.reissue = s.reissue
  pc : t.pc = s.pc
  x : t.x = s.x
  renameMap : t.renameMap = s.renameMap
  freeList : t.freeList = s.freeList
  head : t.head = s.head
  tail : t.tail = s.tail
  currentCycle : t.currentCycle = s.currentCycle
  totalCycles : t.totalCycles = s.totalCycles
  bubbleCount : t.bubbleCount = s.bubbleCount
  committedCount : t.committedCount = s.committedCount
  complete : t.complete = s.complete
  timedOut : t.timedOut = s.timedOut
  faultRec : t.faultRec = s.faultRec
  onBus : t.onBus = s.onBus

end Sys2Proof.Machine

/-- From this magnitude on, in units of 2^−149, a result rounds to an infinity: half a last place beyond the largest finite
binary32 (IEEE 754, log 11). -/
def Sys2Proof.F32.overflowAt : Nat := (2 ^ 25 - 1) * 2 ^ 252

/-- `r` is the exact value `num / den`, in units of 2^−149, rounded to nearest with ties to even (45_arith.md R164 (b), (c); the
definition is IEEE 754's, log 11). -/
structure Sys2Proof.F32.NearestEven (num : Int) (den : Nat) (r : Sys2Proof.Value) : Prop where
  overflow : overflowAt * den ≤ num.natAbs → isInf r = true
  inRange : num.natAbs < overflowAt * den → isFinite r = true
  nearest : isFinite r = true → ∀ c, isFinite c = true →
    (num - signedUnits r * den).natAbs ≤ (num - signedUnits c * den).natAbs
  tiesToEven : isFinite r = true → ∀ c, isFinite c = true →
    (num - signedUnits r * den).natAbs = (num - signedUnits c * den).natAbs → signedUnits c ≠ signedUnits r →
    r.toNat % 2 = 0
  signKept : num ≠ 0 → sign r = decide (num < 0)
end

