-- ==== Sys2Proof/Certificates/Slice0/Obligations.lean ====
section
/-! DEFINITION. The statements about the model, from the numbered rules of spec/. Where a statement rests on a choice of the
model, its docstring names the log entry. -/

open Sys2Proof Sys2Proof.Machine

/-! ## Encoding -/

/-- 30_encoding.md R73: the seven example words, one per opcode, decode to the instructions they stand for. -/
def Obligations.ExampleWordsDecode : Prop :=
  decode 32 0x000000000000C411#64 = .ok (.add 1 2 3) ∧
  decode 32 0x0000000000004A52#64 = .ok (.sub 5 5 1) ∧
  decode 32 0x0000000000008243#64 = .ok (.mul 4 1 2) ∧
  decode 32 0x0000000000004084#64 = .ok (.div 8 0 1) ∧
  decode 32 0x0000000A00000675#64 = .ok (.ld 7 3 10) ∧
  decode 32 0x0000000400008006#64 = .ok (.sd 0 2 4) ∧
  decode 32 0x0000000400000A07#64 = .ok (.beqz 5 4)

/-- 30_encoding.md R71: every word gives a record or a code, every legal record has the stated encoding, decoding it gives the
record back, and it is the only legal word that does. NARCH is at most 32 (00_scope.md R6). -/
def Obligations.DecodeAndEncodeAgree : Prop :=
  ∀ narch, narch ≤ 32 →
    (∀ w, (∃ i, decode narch w = .ok i) ∨ ∃ e, decode narch w = .error e) ∧
    (∀ i : Instr, i.wf narch = true →
      decode narch (encode i) = .ok i ∧
      encode i = BitVec.ofNat 64 i.opcode.number ||| BitVec.ofNat 64 (i.dst.getD 0) <<< 4 |||
        BitVec.ofNat 64 (i.srcJ.getD 0) <<< 9 ||| BitVec.ofNat 64 (i.srcK.getD 0) <<< 14 |||
        BitVec.ofInt 64 (i.imm % 2 ^ 32) <<< 32) ∧
    ∀ w i, decode narch w = .ok i → i.wf narch = true ∧ w = encode i

/-- 30_encoding.md R69: the first of the five checks that fails gives the code, a word that passes them all is legal, and a
program with an illegal word is refused whole. -/
def Obligations.IllegalWordGetsItsFirstFailingCode : Prop :=
  (∀ (narch : Nat) (w : InstrWord) (opc rd rs1 rs2 resv imm : Nat),
    opc = bits w 3 0 → rd = bits w 8 4 → rs1 = bits w 13 9 → rs2 = bits w 18 14 → resv = bits w 31 19 →
    imm = bits w 63 32 →
    if opc = 0 ∨ 8 ≤ opc then decode narch w = .error .badOpcode
    else if resv ≠ 0 then decode narch w = .error .reservedBits
    else if (opc ≤ 4 ∧ imm ≠ 0) ∨ (opc = 5 ∧ rs2 ≠ 0) ∨ (opc = 6 ∧ rd ≠ 0) ∨ (opc = 7 ∧ (rd ≠ 0 ∨ rs2 ≠ 0)) then
      decode narch w = .error .unusedField
    else if (opc ≤ 5 ∧ narch ≤ rd) ∨ narch ≤ rs1 ∨ ((opc ≤ 4 ∨ opc = 6) ∧ narch ≤ rs2) then
      decode narch w = .error .badRegister
    else if opc = 7 ∧ (imm = 0 ∨ 2 ^ 31 ≤ imm) then decode narch w = .error .badTarget
    else ∃ i, decode narch w = .ok i) ∧
  ∀ (s : State) (words : List InstrWord) (w : InstrWord) (e : DecodeError), w ∈ words → decode s.cfg.narch w = .error e →
    (∃ err, hostLoad s words = .error err) ∧ stateAfterLoad s words = s

/-! ## Host commands and reset -/

/-- 44_cycle_engine.md R155, 60_exceptions.md R184: `load` is all or nothing, reports TOO_LONG or the first illegal word, and on
success stores the decoded program and resets. -/
def Obligations.LoadIsAllOrNothing : Prop :=
  ∀ (s : State) (words : List InstrWord),
    (2147483647 < words.length →
      hostLoad s words = .error { code := .tooLong, position := none } ∧ stateAfterLoad s words = s) ∧
    (words.length ≤ 2147483647 →
      (∀ (j : Nat) (w : InstrWord) (e : DecodeError), words[j]? = some w → decode s.cfg.narch w = .error e →
        (∀ (j' : Nat) (w' : InstrWord), j' < j → words[j']? = some w' → ∃ i, decode s.cfg.narch w' = .ok i) →
        hostLoad s words = .error { code := .badWord e, position := some j } ∧ stateAfterLoad s words = s) ∧
      ((∀ (j : Nat) (w : InstrWord), words[j]? = some w → ∃ i, decode s.cfg.narch w = .ok i) →
        ∃ prog : List Instr, prog.length = words.length ∧
          (∀ (j : Nat) (w : InstrWord) (i : Instr), words[j]? = some w → prog[j]? = some i → decode s.cfg.narch w = .ok i) ∧
          hostLoad s words = .ok (hostReset { s with prog := prog }) ∧
          stateAfterLoad s words = hostReset { s with prog := prog }))

/-- 70_reset_and_hazards.md R200: every element's value after the host command `reset`. Nothing is said of the values of the
physical registers, which the spec leaves open. -/
def Obligations.ResetCommandGivesTheTable : Prop :=
  ∀ s : State, s.Shape →
    (hostReset s).prog = s.prog ∧
    (hostReset s).status = List.replicate s.prog.length Status.notIssued ∧
    (hostReset s).reissue = List.replicate s.prog.length 0 ∧
    (hostReset s).pc = 0 ∧
    (hostReset s).x.length = s.cfg.narch ∧ (∀ r : Nat, r < s.cfg.narch → (hostReset s).x[r]? = some (F32.ofInt r)) ∧
    (hostReset s).p.length = s.cfg.nphys ∧
    (hostReset s).renameMap = List.replicate s.cfg.narch none ∧
    (hostReset s).freeList = List.range s.cfg.nphys ∧
    (hostReset s).rs.map StationEntry.name = s.rs.map StationEntry.name ∧ (∀ e ∈ (hostReset s).rs, e.body = none) ∧
    (hostReset s).head = 0 ∧ (hostReset s).tail = 0 ∧
    (hostReset s).rob = List.replicate s.cfg.nrob none ∧
    (∀ a : Nat, a < s.cfg.memSize → (hostReset s).mem.read a = F32.ofInt a) ∧
    (hostReset s).currentCycle = 1 ∧
    (hostReset s).totalCycles = 0 ∧ (hostReset s).bubbleCount = 0 ∧ (hostReset s).committedCount = 0 ∧
    (hostReset s).complete = false ∧ (hostReset s).timedOut = false ∧
    (hostReset s).faultRec = none ∧ (hostReset s).log = [] ∧
    engineState (hostReset s) = .running

/-- 70_reset_and_hazards.md R201: power-on is the reset state with an empty program, and a step from there completes at once, in
tick 1. The physical registers and the count of draws are the model's choice (logs 2, 4). -/
def Obligations.PowerOnStepCompletes : Prop :=
  State.reset.prog = [] ∧
  { hostReset State.reset with p := State.reset.p, draws := State.reset.draws } = State.reset ∧
  ∀ (c : Config) (p : List Value) (draws : Nat), c.wf = true →
    step (State.resetWith c [] p draws) = .next { State.resetWith c [] p draws with
      complete := true, totalCycles := 1, log := [.cycleStart 1, .complete 1] }

/-- 44_cycle_engine.md R153: `runToCompletion` steps until the run is complete or faulted, or RUN_CEILING steps are made, and
does nothing else. -/
def Obligations.RunToCompletionStopsAtTheFirstStop : Prop :=
  ∀ s t : State, runToCompletion s = .next t →
    ∃ run : Nat → State, ∃ n, n ≤ s.cfg.runCeiling ∧ run 0 = s ∧ run n = t ∧
      (∀ j, j < n → step (run j) = .next (run (j + 1)) ∧ (run j).complete = false ∧ (run j).faultRec = none) ∧
      (t.complete = true ∨ t.faultRec ≠ none ∨ n = s.cfg.runCeiling)

/-- 44_cycle_engine.md R156, R157: the structure snapshots, stations in station order and slots from the head on, circularly. -/
def Obligations.SnapshotsShowTheState : Prop :=
  ∀ s : State, s.Shape →
    (∀ (j : Nat) (e : StationEntry), s.rs[j]? = some e → (snapshotReservationStations s)[j]? = some ({
        name := e.name, busy := e.body.isSome, op := e.body.map Station.op
        vj := (e.body.map Station.vj).getD F32.posZero, vk := (e.body.map Station.vk).getD F32.posZero
        qj := e.body.bind Station.qj, qk := e.body.bind Station.qk, dest := e.body.map Station.dest } : StationView)) ∧
    (snapshotReservationStations s).length = s.rs.length ∧
    (snapshotReorderBuffer s).length = s.cfg.nrob ∧
    (∀ j, j < s.cfg.nrob → (snapshotReorderBuffer s)[j]? = some ({
        index := (s.head + j) % s.cfg.nrob, busy := (s.ringSlot j).isSome, instr := (s.ringSlot j).map Slot.instr
        stateCode := ((s.ringSlot j).map (fun sl => sl.state.code)).getD 7, publicReg := (s.ringSlot j).bind Slot.publicReg
        result := ((s.ringSlot j).map Slot.result).getD F32.posZero } : SlotView)) ∧
    snapshotRegisters s = { publicValues := s.x, physicalValues := s.p, renameMap := s.renameMap }

/-! ## The tick -/

/-- 44_cycle_engine.md R141: a step of a complete or faulted engine changes nothing and logs nothing. -/
def Obligations.StoppedStepIsNoOp : Prop :=
  ∀ s : State, s.complete = true ∨ s.faultRec ≠ none → step s = .next s

/-- 44_cycle_engine.md R143: past the cycle cap the tick only stops the run; a run that starts within the cap stays within one
cycle of it, so that a run stopped by the guard has `totalCycles = CYCLE_CAP`. -/
def Obligations.CycleCapStopsTheRun : Prop :=
  (∀ s : State, s.complete = false → s.faultRec = none → s.cfg.cycleCap < s.currentCycle →
    step s = .next { s with
      complete := true, timedOut := true, totalCycles := s.currentCycle - 1
      log := s.log ++ [.cycleStart s.currentCycle, .timeout s.currentCycle .cycleCapExceeded none] }) ∧
  ∀ s t : State, s.currentCycle ≤ s.cfg.cycleCap + 1 → step s = .next t →
    t.currentCycle ≤ t.cfg.cycleCap + 1 ∧
    (s.complete = false → s.faultRec = none → s.cfg.cycleCap < s.currentCycle → t.totalCycles = s.cfg.cycleCap)

/-- 44_cycle_engine.md R144: within the cycle cap, the lowest program position that is in flight and was re-issued more often
than the cap stops the run, and no phase runs. -/
def Obligations.StuckInstructionStopsTheRun : Prop :=
  ∀ (s : State) (i : Nat),
    let stuck (j : Nat) : Prop := j < s.prog.length ∧
      (s.status[j]? = some Status.issued ∨ s.status[j]? = some Status.executed ∨ s.status[j]? = some Status.resultWritten) ∧
      ∃ n, s.reissue[j]? = some n ∧ s.cfg.stuckCap < n
    s.complete = false → s.faultRec = none → s.currentCycle ≤ s.cfg.cycleCap →
    stuck i → (∀ j, j < i → ¬stuck j) →
    step s = .next { s with
      complete := true, timedOut := true, totalCycles := s.currentCycle - 1
      log := s.log ++ [.cycleStart s.currentCycle, .timeout s.currentCycle .stuckInstruction (some i)] }

/-- 44_cycle_engine.md R140, R142, R145, R146: a tick that no guard stops logs its boundary and runs write-result, execute, issue
and commit, each on the state the one before left, and then ends; a model fault in write-result ends it at once
(60_exceptions.md R187, R189). -/
def Obligations.TickRunsThePhasesInOrder : Prop :=
  ∀ s s1 : State, s.complete = false → s.faultRec = none → s.currentCycle ≤ s.cfg.cycleCap → s.stuckPosition = none →
    writeResultPhase { s with log := s.log ++ [.cycleStart s.currentCycle] } = .next s1 →
    (s1.faultRec ≠ none → step s = .next s1) ∧
    ∀ s2 s3 : State, s1.faultRec = none → executePhase s1 = .next s2 → issuePhase s2 = .next s3 →
      step s = .next (commitPhase s3).endTick

/-- 44_cycle_engine.md R147, R148: after the phases the run completes exactly when the program has ended and no slot is busy, and
otherwise the cycle number grows by one. -/
def Obligations.EndOfTickCompletesOrAdvances : Prop :=
  ∀ s : State,
    (s.prog.length ≤ s.pc ∧ (∀ k, s.slotAt k = none) →
      s.endTick = { s with
        complete := true, totalCycles := s.currentCycle, log := s.log ++ [.complete s.currentCycle] }) ∧
    (¬(s.prog.length ≤ s.pc ∧ ∀ k, s.slotAt k = none) → s.endTick = { s with currentCycle := s.currentCycle + 1 })

/-- 44_cycle_engine.md R149: the engine state is determined by the status registers; a step keeps a stopped engine's state; from
`Running` a step reaches each other state only by the rule named; `reset` and a successful `load` lead to `Running`. -/
def Obligations.EngineStateTransitions : Prop :=
  (∀ s : State, ¬(s.complete = true ∧ s.faultRec ≠ none) →
    (engineState s = .running ↔ s.complete = false ∧ s.faultRec = none) ∧
    (engineState s = .completeNormal ↔ s.complete = true ∧ s.timedOut = false) ∧
    (engineState s = .completeTimeout ↔ s.complete = true ∧ s.timedOut = true) ∧
    (engineState s = .faulted ↔ s.faultRec ≠ none ∧ s.complete = false)) ∧
  (∀ s t : State, step s = .next t → engineState s ≠ .running → engineState t = engineState s) ∧
  (∀ s t : State, step s = .next t → engineState s = .running → s.timedOut = false →
    (engineState t = .completeNormal →
      t.prog.length ≤ t.pc ∧ (∀ k, t.slotAt k = none) ∧ t.totalCycles = s.currentCycle) ∧
    (engineState t = .completeTimeout →
      (s.cfg.cycleCap < s.currentCycle ∨ s.stuckPosition ≠ none) ∧ t.totalCycles = s.currentCycle - 1) ∧
    (engineState t = .faulted → ∃ f, t.faultRec = some f ∧ f.cycle = s.currentCycle)) ∧
  (∀ s : State, engineState (hostReset s) = .running) ∧
  ∀ (s t : State) (words : List InstrWord), hostLoad s words = .ok t → engineState t = .running

/-! ## From the program store to a step -/

/-- 40_rename_issue.md R81 and the fixed way a step runs an instruction: the issue phase of a tick runs `exec` of the
instruction at `pc`; commit and the end of the tick follow. -/
def Obligations.StepRunsTheInstructionAtPc : Prop :=
  ∀ (s s1 s2 : State) (i : Instr),
    s.complete = false → s.faultRec = none → s.currentCycle ≤ s.cfg.cycleCap → s.stuckPosition = none →
    writeResultPhase { s with log := s.log ++ [.cycleStart s.currentCycle] } = .next s1 → s1.faultRec = none →
    executePhase s1 = .next s2 → s2.prog[s2.pc]? = some i →
    ∃ t, exec i s2 = .next t ∧ step s = .next (commitPhase t).endTick

/-- 70_reset_and_hazards.md R202: after a load, the first step runs the instruction that word 0 decodes to, in tick 1. -/
def Obligations.FirstStepAfterLoadRunsWordZero : Prop :=
  ∀ (s t : State) (w : InstrWord) (words : List InstrWord) (i : Instr), s.cfg.wf = true →
    hostLoad s (w :: words) = .ok t → decode s.cfg.narch w = .ok i →
    ∃ u, exec i { t with log := [.cycleStart 1] } = .next u ∧ step t = .next (commitPhase u).endTick

/-- 42_write_result.md R110, R111, R113, R126, 60_exceptions.md R187, R189 (c): the write-result phase processes the candidates in
their order. A candidate that is still busy runs `exec` of its station's instruction with the station on the result bus, and one
that is no longer busy is skipped. Once a model fault is recorded no further candidate is processed; the end of the phase, by a
fault or after the last candidate, only frees the result bus (the field `onBus` is the model's, log 5). -/
def Obligations.CandidateRunsItsStationsInstruction : Prop :=
  (∀ s : State, writeResultPhase s = writeResults s.candidates s) ∧
  (∀ s : State, writeResults [] s = .next { s with onBus := none }) ∧
  (∀ (s : State) (sids : List Nat), s.faultRec ≠ none → writeResults sids s = .next { s with onBus := none }) ∧
  ∀ (s : State) (sid : Nat) (rest : List Nat), s.faultRec = none →
    (s.stationAt sid = none → writeResults (sid :: rest) s = writeResults rest s) ∧
    ∀ (st : Station) (i : Instr), s.stationAt sid = some st → i.opcode = st.op →
      ∃ t, exec i { s with onBus := some sid } = .next t ∧
        writeResults (sid :: rest) s = writeResults rest t

/-! ## Issue (40_rename_issue.md) -/

/-- 40_rename_issue.md R81: at the end of the program the issue phase does nothing; otherwise it reads the instruction at
`pc`. -/
def Obligations.IssueReadsTheInstructionAtPc : Prop :=
  ∀ s : State, (s.prog.length ≤ s.pc → issuePhase s = .next s) ∧
    ∀ h : s.pc < s.prog.length, issuePhase s = exec s.prog[s.pc] s

/-- 40_rename_issue.md R82, R83: a stalled issue counts one bubble and logs the first reason that holds, and changes nothing
else. -/
def Obligations.IssueStallsForTheFirstReason : Prop :=
  ∀ (s : State) (i : Instr), s.onBus = none →
    let full : Prop := s.slotAt s.tail ≠ none
    let noStation : Prop := ∀ j, j < s.rs.length → (s.stationName j).cls = i.opcode.cls → s.stationAt j ≠ none
    let stalled (why : StallReason) : State :=
      { s with bubbleCount := s.bubbleCount + 1, log := s.log ++ [.stallIssue s.currentCycle s.pc why] }
    (full → exec i s = .next (stalled .robFull)) ∧
    (¬full → noStation → exec i s = .next (stalled .noStation)) ∧
    (¬full → ¬noStation → s.freeList = [] → exec i s = .next (stalled .noPhysReg))

/-- 40_rename_issue.md R84, R85: the operand comes from the public register, from the result of the youngest busy writer, or is
pending on that writer's name. -/
def Obligations.OperandComesFromTheYoungestWriter : Prop :=
  ∀ (s : State) (r : Nat),
    ((∀ k sl, s.slotAt k = some sl → sl.publicReg ≠ some r) →
      s.resolve r = { v := s.readX r, q := none }) ∧
    ∀ k sl, s.slotAt k = some sl → sl.publicReg = some r →
      (∀ j x, s.slotAt j = some x → x.publicReg = some r → j ≠ k → x.issueCycle < sl.issueCycle) →
      (sl.ready = true → s.resolve r = { v := sl.result, q := none }) ∧
      (sl.ready = false → s.resolve r = { v := F32.posZero, q := some sl.renamedReg })

/-- 40_rename_issue.md R86 to R89, R91 to R95: the issue of an instruction that writes a register, with all it changes; every
other field is left as it was. The operands are resolved in the state before the new slot exists. -/
def Obligations.IssueOfARegisterWriter : Prop :=
  ∀ (s : State) (rd rs1 rs2 : RegNum) (imm : Int) (sid n : Nat) (rest : List Nat),
    ∀ f ∈ [(Instr.add rd rs1 rs2, Opcode.add, some rs2, (0 : Int)), (.sub rd rs1 rs2, .sub, some rs2, 0),
        (.mul rd rs1 rs2, .mul, some rs2, 0), (.div rd rs1 rs2, .div, some rs2, 0), (.ld rd rs1 imm, .ld, none, imm)],
    s.onBus = none → s.slotAt s.tail = none →
    sid < s.rs.length → (s.stationName sid).cls = f.2.1.cls → s.stationAt sid = none →
    (∀ j, j < sid → (s.stationName j).cls = f.2.1.cls → s.stationAt j ≠ none) →
    s.freeList = n :: rest →
    exec f.1 s = .next { s with
      freeList := rest
      p := s.p.set n (s.readX rd)
      renameMap := s.renameMap.set rd (some n)
      rob := s.rob.set s.tail (some
        { instr := s.pc, renamedReg := n, publicReg := some rd, state := .processing, ready := false
          result := F32.posZero, issueCycle := s.currentCycle, execCycle := 0, writeCycle := 0, commitCycle := 0 })
      rs := s.rs.set sid
        { name := s.stationName sid
          body := some
            { op := f.2.1, vj := (s.resolve rs1).v, qj := (s.resolve rs1).q
              vk := (f.2.2.1.map (fun r => (s.resolve r).v)).getD F32.posZero
              qk := f.2.2.1.bind (fun r => (s.resolve r).q)
              dest := n, imm := f.2.2.2, cyclesRemaining := s.cfg.lat f.2.1 } }
      reissue := if s.status[s.pc]? = some Status.skipped then s.reissue.modify s.pc (· + 1) else s.reissue
      status := s.status.set s.pc Status.issued
      log := s.log ++ [.issue s.currentCycle s.pc s.tail (s.stationName sid) n]
      tail := (s.tail + 1) % s.cfg.nrob
      pc := s.pc + 1 }

/-- 40_rename_issue.md R86 to R88, R90 to R95: the issue of SD or BEQZ. The name is a tracking token only: no physical register
and no rename-map entry is written. -/
def Obligations.IssueOfAStoreOrBranch : Prop :=
  ∀ (s : State) (rs1 rs2 : RegNum) (imm : Int) (sid n : Nat) (rest : List Nat),
    ∀ f ∈ [(Instr.sd rs1 rs2 imm, Opcode.sd, some rs2), (.beqz rs1 imm, .beqz, none)],
    s.onBus = none → s.slotAt s.tail = none →
    sid < s.rs.length → (s.stationName sid).cls = f.2.1.cls → s.stationAt sid = none →
    (∀ j, j < sid → (s.stationName j).cls = f.2.1.cls → s.stationAt j ≠ none) →
    s.freeList = n :: rest →
    exec f.1 s = .next { s with
      freeList := rest
      rob := s.rob.set s.tail (some
        { instr := s.pc, renamedReg := n, publicReg := none, state := .processing, ready := false
          result := F32.posZero, issueCycle := s.currentCycle, execCycle := 0, writeCycle := 0, commitCycle := 0 })
      rs := s.rs.set sid
        { name := s.stationName sid
          body := some
            { op := f.2.1, vj := (s.resolve rs1).v, qj := (s.resolve rs1).q
              vk := (f.2.2.map (fun r => (s.resolve r).v)).getD F32.posZero
              qk := f.2.2.bind (fun r => (s.resolve r).q)
              dest := n, imm := imm, cyclesRemaining := s.cfg.lat f.2.1 } }
      reissue := if s.status[s.pc]? = some Status.skipped then s.reissue.modify s.pc (· + 1) else s.reissue
      status := s.status.set s.pc Status.issued
      log := s.log ++ [.issue s.currentCycle s.pc s.tail (s.stationName sid) n]
      tail := (s.tail + 1) % s.cfg.nrob
      pc := s.pc + 1 }

/-! ## Execute (41_execute.md) -/

/-- 41_execute.md R101 to R103: the visit of a ready station. -/
def Obligations.ReadyStationExecutesOneStep : Prop :=
  ∀ (s : State) (sid k : Nat) (st : Station) (sl : Slot),
    s.stationAt sid = some st → st.qj = none → st.qk = none →
    (st.cyclesRemaining = 0 → executeStation sid s = .next s) ∧
    (0 < st.cyclesRemaining → s.slotAt k = some sl → sl.renamedReg = st.dest →
      (∀ j x, s.slotAt j = some x → x.renamedReg = st.dest → j = k) →
      let first : Slot :=
        if sl.state = .processing then { sl with state := .executing, execCycle := s.currentCycle } else sl
      executeStation sid s = .next (
        if st.cyclesRemaining = 1 then
          { s with
            rs := s.rs.set sid { name := s.stationName sid, body := some { st with cyclesRemaining := 0 } }
            rob := s.rob.set k (some { first with state := .executed })
            status := s.status.set sl.instr Status.executed
            log := s.log ++ [.execDone s.currentCycle k] }
        else
          { s with
            rs := s.rs.set sid
              { name := s.stationName sid, body := some { st with cyclesRemaining := st.cyclesRemaining - 1 } }
            rob := s.rob.set k (some first) }))

/-- 41_execute.md R104: a busy station with a pending operand counts one bubble, whichever operands are pending, and nothing
else changes. -/
def Obligations.WaitingStationCountsOneBubble : Prop :=
  ∀ (s : State) (sid : Nat) (st : Station) (q : Nat), s.stationAt sid = some st →
    (st.qj = some q → executeStation sid s = .next { s with
      bubbleCount := s.bubbleCount + 1
      log := s.log ++ [.waitOperand s.currentCycle (s.stationName sid) .j q] }) ∧
    (st.qj = none → st.qk = some q → executeStation sid s = .next { s with
      bubbleCount := s.bubbleCount + 1
      log := s.log ++ [.waitOperand s.currentCycle (s.stationName sid) .k q] })

/-- 41_execute.md R100 to R104, R106: the whole execute phase of a consistent state: every ready station counts down once and
every waiting one counts a bubble, slots follow their stations, exactly the positions whose station finishes become Executed,
the events of the visits are logged in station order, and nothing else changes. -/
def Obligations.ExecutePhaseCountsEveryStationOnce : Prop :=
  ∀ s : State, s.Consistent → ∃ t, executePhase s = .next t ∧
    (∀ sid, t.stationAt sid = (s.stationAt sid).map (fun st =>
      if st.qj = none ∧ st.qk = none then { st with cyclesRemaining := st.cyclesRemaining - 1 } else st)) ∧
    t.rs.map StationEntry.name = s.rs.map StationEntry.name ∧
    (∀ sid st k sl, s.stationAt sid = some st → s.slotAt k = some sl → sl.renamedReg = st.dest →
      t.slotAt k = some (
        if st.qj = none ∧ st.qk = none ∧ 0 < st.cyclesRemaining then
          { sl with
            state := if st.cyclesRemaining = 1 then .executed else if sl.state = .processing then .executing else sl.state
            execCycle := if sl.state = .processing then s.currentCycle else sl.execCycle }
        else sl)) ∧
    (∀ k sl, s.slotAt k = some sl → (∀ sid st, s.stationAt sid = some st → st.dest ≠ sl.renamedReg) →
      t.slotAt k = some sl) ∧
    (∀ k, s.slotAt k = none → t.slotAt k = none) ∧
    t.rob.length = s.rob.length ∧
    (∀ i, ((∃ sid k, s.FinishesExecute sid k i) → t.status[i]? = some Status.executed) ∧
      ((¬∃ sid k, s.FinishesExecute sid k i) → t.status[i]? = s.status[i]?)) ∧
    t.bubbleCount = s.bubbleCount + (s.rs.filter (fun e => match e.body with
      | some st => st.qj.isSome || st.qk.isSome
      | none => false)).length ∧
    t.log = s.log ++ (List.range s.rs.length).filterMap s.executeEvent ∧
    t = { s with
      rs := t.rs, rob := t.rob, status := t.status, bubbleCount := t.bubbleCount, log := t.log }

/-! ## Write-result (42_write_result.md) -/

/-- 42_write_result.md R110, R111: the candidates are the busy stations with counter 0, each once, and their slots' issue cycles
ascend. -/
def Obligations.CandidatesAreTheDoneStationsOldestFirst : Prop :=
  ∀ s : State, s.Consistent →
    (∀ sid, sid ∈ s.candidates ↔ ∃ st, s.stationAt sid = some st ∧ st.cyclesRemaining = 0) ∧
    s.candidates.Nodup ∧
    s.candidates.Pairwise (fun a b => ∀ sa sb ka kb sla slb, s.stationAt a = some sa → s.stationAt b = some sb →
      s.slotAt ka = some sla → sla.renamedReg = sa.dest → s.slotAt kb = some slb → slb.renamedReg = sb.dest →
      sla.issueCycle ≤ slb.issueCycle)

/-- 45_arith.md R160, R161: the write-result of ADD and SUB. A sum that is a NaN is some NaN: nothing is said of its bits
(log 3). -/
def Obligations.ResultOfAddAndSub : Prop :=
  ∀ (s : State) (sid k : Nat) (st : Station) (sl : Slot) (rd rs1 rs2 : RegNum), s.OnBus sid st k sl →
    ∀ f ∈ [(Instr.add rd rs1 rs2, F32.add st.vj st.vk), (.sub rd rs1 rs2, F32.sub st.vj st.vk)],
    ∃ t v, exec f.1 s = .next t ∧ s.Recorded t sid st k sl v ∧
      (∀ r, f.2 = some r → v = r) ∧ (f.2 = none → F32.isNaN v = true) ∧
      t.mem = s.mem ∧ ∀ a, t.mem.read a = s.mem.read a

/-- 46_muldiv.md R165, R166: the write-result of MUL and DIV. A result that is a NaN is some NaN (log 3); division by zero is
no fault. -/
def Obligations.ResultOfMulAndDiv : Prop :=
  ∀ (s : State) (sid k : Nat) (st : Station) (sl : Slot) (rd rs1 rs2 : RegNum), s.OnBus sid st k sl →
    ∀ f ∈ [(Instr.mul rd rs1 rs2, F32.mul st.vj st.vk), (.div rd rs1 rs2, F32.div st.vj st.vk)],
    ∃ t v, exec f.1 s = .next t ∧ s.Recorded t sid st k sl v ∧
      (∀ r, f.2 = some r → v = r) ∧ (f.2 = none → F32.isNaN v = true) ∧
      t.mem = s.mem ∧ ∀ a, t.mem.read a = s.mem.read a

/-- 47_load_store.md R171: the write-result of LD with a legal effective address. -/
def Obligations.ResultOfLoad : Prop :=
  ∀ (s : State) (sid k a : Nat) (st : Station) (sl : Slot) (rd rs1 : RegNum), s.OnBus sid st k sl →
    effAddr s.cfg.memSize st.vj st.imm = .ok a →
    ∃ t, exec (.ld rd rs1 st.imm) s = .next t ∧ s.Recorded t sid st k sl (s.mem.read a) ∧
      t.draws = s.draws ∧ t.mem = s.mem ∧ ∀ b, t.mem.read b = s.mem.read b

/-- 47_load_store.md R172: the write-result of SD with a legal effective address: the cell at that address holds the data
operand, every other cell reads as before, and the recorded result is the stored value. -/
def Obligations.ResultOfStore : Prop :=
  ∀ (s : State) (sid k a : Nat) (st : Station) (sl : Slot) (rs1 rs2 : RegNum), s.OnBus sid st k sl →
    s.mem.wf → effAddr s.cfg.memSize st.vj st.imm = .ok a →
    ∃ t, exec (.sd rs1 rs2 st.imm) s = .next t ∧ s.Recorded t sid st k sl st.vk ∧
      t.draws = s.draws ∧ t.mem.read a = st.vk ∧ ∀ b, b ≠ a → t.mem.read b = s.mem.read b

/-- 48_branch.md R175, 42_write_result.md R118: a BEQZ whose tested value is not a zero records 0.0 and does nothing else. -/
def Obligations.BranchNotTaken : Prop :=
  ∀ (s : State) (sid k : Nat) (st : Station) (sl : Slot) (rs1 : RegNum), s.OnBus sid st k sl →
    F32.equalsZero st.vj = false →
    ∃ t, exec (.beqz rs1 st.imm) s = .next t ∧ s.Recorded t sid st k sl F32.posZero ∧
      t.draws = s.draws ∧ t.mem = s.mem ∧ ∀ a, t.mem.read a = s.mem.read a

/-- 48_branch.md R175, 42_write_result.md R118 to R123: a BEQZ whose tested value is a zero records 1.0, cancels the busy slots
that are not older, in ascending issue cycle, rolls the tail back to the slot after its own and redirects the pc. The rest,
memory among it, is unchanged (R125 (d)). -/
def Obligations.BranchTakenFlushesAndRedirects : Prop :=
  ∀ (s : State) (sid k : Nat) (st : Station) (sl : Slot) (rs1 : RegNum), s.OnBus sid st k sl →
    F32.equalsZero st.vj = true → 1 ≤ st.imm →
    ∃ (t r : State) (victims : List (Nat × Slot)), s.Recorded r sid st k sl F32.posOne ∧ exec (.beqz rs1 st.imm) s = .next t ∧
      (∀ j x, (j, x) ∈ victims ↔ s.slotAt j = some x ∧ j ≠ k ∧ sl.issueCycle ≤ x.issueCycle) ∧
      (victims.map Prod.fst).Nodup ∧ victims.Pairwise (fun a b => a.2.issueCycle ≤ b.2.issueCycle) ∧
      (∀ j, t.slotAt j = if j ∈ victims.map Prod.fst then none else r.slotAt j) ∧
      (∀ j, t.stationAt j = (r.stationAt j).filter (fun w => !(victims.map (fun x => x.2.renamedReg)).contains w.dest)) ∧
      (∀ i, t.status[i]? = if i ∈ victims.map (fun x => x.2.instr) ∧ i < s.status.length then some Status.skipped
        else r.status[i]?) ∧
      t.freeList = s.freeList ++ victims.map (fun x => x.2.renamedReg) ∧
      (∀ d, t.renameMap[d]? = if ∃ x ∈ victims, x.2.publicReg = some d ∧ s.renameMap[d]? = some (some x.2.renamedReg)
        then some none else s.renameMap[d]?) ∧
      t.log = r.log ++ victims.map (fun x => Event.flush s.currentCycle k x.1) ∧
      t.rs.map StationEntry.name = s.rs.map StationEntry.name ∧ t.rob.length = s.rob.length ∧
      (∀ a, t.mem.read a = s.mem.read a) ∧
      t = { s with
        rob := t.rob, rs := t.rs, status := t.status, freeList := t.freeList, renameMap := t.renameMap, log := t.log
        p := r.p, tail := (k + 1) % s.cfg.nrob, pc := (st.imm - 1).toNat }

/-- 47_load_store.md R170, 60_exceptions.md R185, R187 (b): an LD or SD whose address faults records the fault and nothing
else: memory is neither read nor written and the candidate's slot and station stay. -/
def Obligations.BadAddressIsRecordedAndNothingElse : Prop :=
  ∀ (s : State) (sid k : Nat) (st : Station) (sl : Slot) (r1 r2 : RegNum) (addr : Option Int), s.OnBus sid st k sl →
    effAddr s.cfg.memSize st.vj st.imm = .bad addr →
    ∀ i ∈ [Instr.ld r1 r2 st.imm, .sd r1 r2 st.imm],
    exec i s = .next { s with
      faultRec := some { code := .badAddress, cycle := s.currentCycle, slot := some k, instr := some sl.instr, addr := addr }
      log := s.log ++ [.fault s.currentCycle .badAddress] }

/-- 60_exceptions.md R186: a candidate whose `dest` no busy slot owns, or whose slot was written in this cycle, raises INVARIANT,
whatever its opcode. -/
def Obligations.InvariantFaultIsRecordedAndNothingElse : Prop :=
  ∀ (s : State) (sid : Nat) (st : Station) (i : Instr), s.onBus = some sid → s.stationAt sid = some st →
    ((∀ k sl, s.slotAt k = some sl → sl.renamedReg ≠ st.dest) → exec i s = .next { s with
      faultRec := some { code := .invariantBroken, cycle := s.currentCycle, slot := none, instr := none, addr := none }
      log := s.log ++ [.fault s.currentCycle .invariantBroken] }) ∧
    ∀ k sl, s.slotAt k = some sl → sl.renamedReg = st.dest →
      (∀ j x, s.slotAt j = some x → x.renamedReg = st.dest → j = k) → sl.writeCycle = s.currentCycle →
      exec i s = .next { s with
        faultRec := some
          { code := .invariantBroken, cycle := s.currentCycle, slot := some k, instr := some sl.instr, addr := none }
        log := s.log ++ [.fault s.currentCycle .invariantBroken] }

/-- 41_execute.md R105: after a write-result phase without a fault no busy station has counter 0. -/
def Obligations.NoDoneStationSurvivesWriteResult : Prop :=
  ∀ s t : State, writeResultPhase s = .next t → t.faultRec = none →
    ∀ sid st, t.stationAt sid = some st → st.cyclesRemaining ≠ 0

/-! ## Commit (43_commit.md) -/

/-- 43_commit.md R130 to R134: the commit phase. -/
def Obligations.CommitRetiresTheHead : Prop :=
  ∀ s : State,
    (s.slotAt s.head = none → commitPhase s = s) ∧
    ∀ sl, s.slotAt s.head = some sl →
      (sl.ready = false → commitPhase s = s) ∧
      (sl.ready = true → commitPhase s = { s with
        x := (sl.publicReg.map (fun r => s.x.set r sl.result)).getD s.x
        renameMap := (sl.publicReg.map (fun r =>
          if s.renameMap[r]? = some (some sl.renamedReg) then s.renameMap.set r none else s.renameMap)).getD s.renameMap
        freeList := s.freeList ++ [sl.renamedReg]
        status := s.status.set sl.instr Status.committed
        committedCount := s.committedCount + 1
        log := s.log ++ [.commit s.currentCycle s.head sl.instr sl.publicReg sl.result]
        rob := s.rob.set s.head none
        head := (s.head + 1) % s.cfg.nrob })

/-! ## Operands and values -/

/-- 47_load_store.md R170: the effective address, with truncation toward zero said by its two bounds. -/
def Obligations.EffectiveAddressOrFault : Prop :=
  ∀ (memSize : Nat) (v : Value) (imm : Int),
    (F32.isNaN v = true ∨ F32.isInf v = true → effAddr memSize v imm = .bad none) ∧
    (F32.isFinite v = true →
      (F32.truncInt v + imm < 0 ∨ (memSize : Int) ≤ F32.truncInt v + imm →
        effAddr memSize v imm = .bad (some (F32.truncInt v + imm))) ∧
      (0 ≤ F32.truncInt v + imm → F32.truncInt v + imm < memSize →
        effAddr memSize v imm = .ok (F32.truncInt v + imm).toNat) ∧
      ((F32.truncInt v).natAbs * 2 ^ 149 ≤ (F32.signedUnits v).natAbs ∧
        (F32.signedUnits v).natAbs < ((F32.truncInt v).natAbs + 1) * 2 ^ 149 ∧
        (0 < F32.truncInt v → 0 < F32.signedUnits v) ∧ (F32.truncInt v < 0 → F32.signedUnits v < 0)))

/-- 45_arith.md R164 (b), (c), R160, R161: sums and differences of finite values are rounded once, to nearest even, and an exact
zero has the sign of the corner cases. -/
def Obligations.SumsAndDifferencesAreRoundedToNearestEven : Prop :=
  ∀ a b : Value, F32.isFinite a = true → F32.isFinite b = true →
    (∃ r, F32.add a b = some r ∧ F32.NearestEven (F32.signedUnits a + F32.signedUnits b) 1 r ∧
      (F32.signedUnits a + F32.signedUnits b = 0 → F32.sign r = (F32.sign a && F32.sign b))) ∧
    ∃ r, F32.sub a b = some r ∧ F32.NearestEven (F32.signedUnits a - F32.signedUnits b) 1 r ∧
      (F32.signedUnits a - F32.signedUnits b = 0 → F32.sign r = (F32.sign a && !F32.sign b))

/-- 45_arith.md R164 (b), (c), 46_muldiv.md R165, R166: products and quotients of finite values are rounded once, to nearest
even, and their sign is the exclusive-or of the operand signs. -/
def Obligations.ProductsAndQuotientsAreRoundedToNearestEven : Prop :=
  ∀ a b : Value, F32.isFinite a = true → F32.isFinite b = true →
    (∃ r, F32.mul a b = some r ∧ F32.NearestEven (F32.signedUnits a * F32.signedUnits b) (2 ^ 149) r ∧
      F32.sign r = (F32.sign a != F32.sign b)) ∧
    (F32.isZero b = false → ∃ r, F32.div a b = some r ∧
      F32.NearestEven (F32.signedUnits a * 2 ^ 149 * (if F32.sign b then -1 else 1)) (F32.units b) r ∧
      F32.sign r = (F32.sign a != F32.sign b))

/-- 45_arith.md R164 (d): a result is a NaN exactly for a NaN operand or an invalid operation, and every drawn NaN is a NaN; its
sign and payload are free (log 3). -/
def Obligations.NanExactlyForInvalidOperations : Prop :=
  (∀ a b : Value,
    (F32.add a b = none ↔ F32.isNaN a = true ∨ F32.isNaN b = true ∨
      (F32.isInf a = true ∧ F32.isInf b = true ∧ F32.sign a ≠ F32.sign b)) ∧
    (F32.sub a b = none ↔ F32.isNaN a = true ∨ F32.isNaN b = true ∨
      (F32.isInf a = true ∧ F32.isInf b = true ∧ F32.sign a = F32.sign b)) ∧
    (F32.mul a b = none ↔ F32.isNaN a = true ∨ F32.isNaN b = true ∨
      (F32.isInf a = true ∧ F32.isZero b = true) ∨ (F32.isZero a = true ∧ F32.isInf b = true)) ∧
    (F32.div a b = none ↔ F32.isNaN a = true ∨ F32.isNaN b = true ∨
      (F32.isZero a = true ∧ F32.isZero b = true) ∨ (F32.isInf a = true ∧ F32.isInf b = true)) ∧
    ∀ r, (F32.add a b = some r ∨ F32.sub a b = some r ∨ F32.mul a b = some r ∨ F32.div a b = some r) →
      F32.isNaN r = false) ∧
  ∀ n, F32.isNaN (Config.freeNaN n) = true

/-- 46_muldiv.md R166: a non-zero finite dividend over a zero gives the infinity whose sign is the exclusive-or of the operand
signs; an infinity over a finite value and a finite value over an infinity follow IEEE 754. -/
def Obligations.DivisionByZeroGivesAnInfinity : Prop :=
  ∀ a b : Value,
    (F32.isFinite a = true → F32.isZero a = false → F32.isZero b = true →
      ∃ r, F32.div a b = some r ∧ F32.isInf r = true ∧ F32.sign r = (F32.sign a != F32.sign b)) ∧
    (F32.isInf a = true → F32.isFinite b = true →
      ∃ r, F32.div a b = some r ∧ F32.isInf r = true ∧ F32.sign r = (F32.sign a != F32.sign b)) ∧
    (F32.isFinite a = true → F32.isInf b = true →
      ∃ r, F32.div a b = some r ∧ F32.isZero r = true ∧ F32.sign r = (F32.sign a != F32.sign b))

/-- 45_arith.md R164 (f): `f32_of_int` is exact for every integer of magnitude at most 2^24. -/
def Obligations.SmallIntegersConvertExactly : Prop :=
  ∀ i : Int, i.natAbs ≤ 2 ^ 24 →
    F32.isFinite (F32.ofInt i) = true ∧ F32.signedUnits (F32.ofInt i) = i * 2 ^ 149 ∧ F32.truncInt (F32.ofInt i) = i

/-- 45_arith.md R164 (f), 10_state.md R32: `f32_of_int` of any integer is that integer rounded to nearest even, so for those of
magnitude above 2^24 too; 0 gives +0.0 (IEEE 754, log 11). -/
def Obligations.IntegersAreRoundedToNearestEven : Prop :=
  (∀ i : Int, F32.NearestEven (i * 2 ^ 149) 1 (F32.ofInt i)) ∧ F32.ofInt 0 = 0x00000000#32

/-- 45_arith.md R164, 46_muldiv.md R165: sums, differences and products with an infinite operand, where they are no invalid
operation. 00_scope.md R13 names IEEE 754 for their values (log 11). -/
def Obligations.SumsAndProductsWithInfinities : Prop :=
  ∀ a b : Value,
    (F32.isInf a = true → F32.isNaN b = false →
      ((F32.isInf b = true → F32.sign b = F32.sign a) → F32.add a b = some a) ∧
      ((F32.isInf b = true → F32.sign b ≠ F32.sign a) → F32.sub a b = some a)) ∧
    (F32.isFinite a = true → F32.isInf b = true →
      F32.add a b = some b ∧ ∃ r, F32.sub a b = some r ∧ F32.isInf r = true ∧ F32.sign r = !F32.sign b) ∧
    ((F32.isInf a = true ∧ F32.isNaN b = false ∧ F32.isZero b = false ∨
        F32.isInf b = true ∧ F32.isNaN a = false ∧ F32.isZero a = false) →
      ∃ r, F32.mul a b = some r ∧ F32.isInf r = true ∧ F32.sign r = (F32.sign a != F32.sign b))

/-- 48_branch.md R175: the condition of BEQZ holds for both zeros and for nothing else, so not for a NaN. -/
def Obligations.BranchConditionHoldsForZerosOnly : Prop :=
  ∀ v : Value, F32.equalsZero v = true ↔ v = 0x00000000#32 ∨ v = 0x80000000#32

/-! ## Memory (20_memory.md) -/

/-- 20_memory.md R43, R47: a read returns the last Value written, a write leaves every other address alone, the canonical form
is kept, and memories in that form that read alike are equal. -/
def Obligations.MemoryReadsWhatWasWritten : Prop :=
  (∀ (m : Memory) (a : Nat) (v : Value), m.wf →
    (m.write a v).wf ∧ (m.write a v).read a = v ∧ ∀ b, b ≠ a → (m.write a v).read b = m.read b) ∧
  ∀ m m' : Memory, m.wf → m'.wf → (∀ a, m.read a = m'.read a) → m = m'

/-- Every step keeps the memory within the address space of 20_memory.md R40, and in the canonical form. The form is no rule of
the spec: it is the model's choice (log 6). -/
def Obligations.EveryStepKeepsTheMemoryInItsSpace : Prop :=
  ∀ s t : State, s.MemOk → step s = .next t → t.MemOk

/-- 20_memory.md R41: a step changes what an address reads as only if an SD whose write-result is due stores there, and then
the address holds the data operand of such an SD. -/
def Obligations.OnlyStoresChangeMemory : Prop :=
  ∀ (s t : State) (a : Nat), s.Inv → s.MemOk → step s = .next t → t.mem.read a ≠ s.mem.read a →
    ∃ sid st, s.stationAt sid = some st ∧ st.op = .sd ∧ st.cyclesRemaining = 0 ∧
      effAddr s.cfg.memSize st.vj st.imm = .ok a ∧ t.mem.read a = st.vk

/-! ## The whole machine -/

/-- The state after reset meets every invariant the statements below use. The values of its physical registers are the model's
choice (log 2) and play no part. -/
def Obligations.ResetMeetsTheInvariants : Prop :=
  State.reset.Inv ∧ State.reset.Ring ∧ State.reset.WaitsOk ∧ State.reset.MemOk ∧ State.reset.CommitBound

/-- 44_cycle_engine.md R154, R155: the host commands `reset` and `load` lead to a state that meets the invariants, whatever the
state before. -/
def Obligations.HostCommandsMeetTheInvariants : Prop :=
  (∀ s : State, s.Shape →
    (hostReset s).Inv ∧ (hostReset s).Ring ∧ (hostReset s).WaitsOk ∧ (hostReset s).MemOk ∧ (hostReset s).CommitBound) ∧
  ∀ (s t : State) (words : List InstrWord), s.cfg.wf = true → hostLoad s words = .ok t →
    t.Inv ∧ t.Ring ∧ t.WaitsOk ∧ t.MemOk ∧ t.CommitBound

/-- 10_state.md R36: every step keeps the invariant, single ownership of names and the link of stations to slots among it. -/
def Obligations.EveryStepKeepsTheInvariant : Prop :=
  ∀ s t : State, s.Inv → step s = .next t → t.Inv

/-- 60_exceptions.md R186, R188: from a state that meets the invariant a step always answers a next state, and the only model
fault it can record is BAD_ADDRESS. -/
def Obligations.StepNeverStopsNorRaisesInvariant : Prop :=
  ∀ s : State, s.Inv → ∃ t, step s = .next t ∧ ∀ f, t.faultRec = some f → s.faultRec = some f ∨ f.code = .badAddress

/-- 10_state.md R31: every step keeps the busy slots a circular run from head to tail with strictly increasing issue cycles. -/
def Obligations.EveryStepKeepsTheRing : Prop :=
  ∀ s t : State, s.Inv → s.Ring → step s = .next t → t.Ring

/-- 42_write_result.md R125 (c), 40_rename_issue.md R90: at every point between ticks a station waits only on the name of an older
register writer in flight that has not written its result. -/
def Obligations.EveryStepKeepsTheWaitsLive : Prop :=
  ∀ s t : State, s.Inv → s.WaitsOk → step s = .next t → t.WaitsOk

/-- 70_reset_and_hazards.md R213: at most one commit a tick, so that a complete run has `committedCount ≤ totalCycles`. -/
def Obligations.CommitsNeverExceedCycles : Prop :=
  ∀ s t : State, s.CommitBound → step s = .next t →
    t.CommitBound ∧ (t.committedCount = s.committedCount ∨ t.committedCount = s.committedCount + 1)

/-- 10_state.md R21: a step changes the public registers only by the commit of the head slot, one register at most. -/
def Obligations.PublicRegistersChangeOnlyAtCommit : Prop :=
  ∀ s t : State, step s = .next t → t.x = s.x ∨
    ∃ r v i, t.x = s.x.set r v ∧ t.committedCount = s.committedCount + 1 ∧ t.head = (s.head + 1) % s.cfg.nrob ∧
      Event.commit s.currentCycle s.head i (some r) v ∈ t.log

/-- 20_memory.md R53, 10_state.md R17, R39, 44_cycle_engine.md R158: no step writes the program or the configuration, the log only
grows, and the cycle number grows by one or stays. -/
def Obligations.StepKeepsProgramAndExtendsLog : Prop :=
  ∀ s t : State, step s = .next t →
    t.prog = s.prog ∧ t.cfg = s.cfg ∧ s.log <+: t.log ∧
    (t.currentCycle = s.currentCycle ∨ t.currentCycle = s.currentCycle + 1) ∧ (s.onBus = none → t.onBus = none)

/-- 10_state.md R22, R23, 44_cycle_engine.md R150: the physical registers and the rename map steer nothing: two states that differ
only there take steps that differ only there. -/
def Obligations.PhysicalRegistersAndRenameMapSteerNothing : Prop :=
  ∀ (s t : State) (p : List Value) (m : List (Option Nat)), step s = .next t →
    ∃ p' m', step { s with p := p, renameMap := m } = .next { t with p := p', renameMap := m' }

/-- 70_reset_and_hazards.md R210: an instruction that writes a register, issued into an empty engine as the last of its
program with both operands ready, finishes executing LAT ticks after its issue tick, writes back and commits in the tick after
that, and changes one public register; no tick counts a bubble. A result of ADD, SUB, MUL or DIV that is a NaN is left out. -/
def Obligations.LoneInstructionTakesItsLatency : Prop :=
  ∀ (s : State) (rd rs1 rs2 : RegNum) (imm : Int) (v : Value) (i : Instr), s.Inv → s.Ring →
    (i = .add rd rs1 rs2 ∧ F32.add (s.readX rs1) (s.readX rs2) = some v ∨
      i = .sub rd rs1 rs2 ∧ F32.sub (s.readX rs1) (s.readX rs2) = some v ∨
      i = .mul rd rs1 rs2 ∧ F32.mul (s.readX rs1) (s.readX rs2) = some v ∨
      i = .div rd rs1 rs2 ∧ F32.div (s.readX rs1) (s.readX rs2) = some v ∨
      i = .ld rd rs1 imm ∧ ∃ a, effAddr s.cfg.memSize (s.readX rs1) imm = .ok a ∧ s.mem.read a = v) →
    s.complete = false → s.faultRec = none → (∀ k, s.slotAt k = none) →
    s.pc + 1 = s.prog.length → s.prog[s.pc]? = some i →
    (∀ n ∈ s.reissue, n < s.cfg.stuckCap) → s.currentCycle + s.cfg.lat i.opcode + 1 ≤ s.cfg.cycleCap →
    ∃ t, runSteps (s.cfg.lat i.opcode + 2) s = .next t ∧
      t.complete = true ∧ t.timedOut = s.timedOut ∧ t.faultRec = none ∧
      t.totalCycles = s.currentCycle + s.cfg.lat i.opcode + 1 ∧
      t.x = s.x.set rd v ∧ (∀ a, t.mem.read a = s.mem.read a) ∧
      t.committedCount = s.committedCount + 1 ∧ t.bubbleCount = s.bubbleCount ∧
      Event.execDone (s.currentCycle + s.cfg.lat i.opcode) s.tail ∈ t.log ∧
      Event.writeResult (s.currentCycle + s.cfg.lat i.opcode + 1) s.tail v ∈ t.log ∧
      Event.commit (s.currentCycle + s.cfg.lat i.opcode + 1) s.tail s.pc (some rd) v ∈ t.log ∧
      ∀ n, n < s.cfg.lat i.opcode + 2 → ∃ u, runSteps n s = .next u ∧ u.complete = false
end

