-- ==== Sys2Proof/Laws/State.lean ====
section
/-! SUPPORT. One lemma per field per update of the state, true by rfl: no later proof unfolds a record update. -/

namespace Sys2Proof.Machine.State

variable (s : State)

/-! ### logEvent -/

@[simp] theorem logEvent_cfg (e : Event) : (s.logEvent e).cfg = s.cfg := rfl
@[simp] theorem logEvent_prog (e : Event) : (s.logEvent e).prog = s.prog := rfl
@[simp] theorem logEvent_status (e : Event) : (s.logEvent e).status = s.status := rfl
@[simp] theorem logEvent_reissue (e : Event) : (s.logEvent e).reissue = s.reissue := rfl
@[simp] theorem logEvent_pc (e : Event) : (s.logEvent e).pc = s.pc := rfl
@[simp] theorem logEvent_x (e : Event) : (s.logEvent e).x = s.x := rfl
@[simp] theorem logEvent_p (e : Event) : (s.logEvent e).p = s.p := rfl
@[simp] theorem logEvent_renameMap (e : Event) : (s.logEvent e).renameMap = s.renameMap := rfl
@[simp] theorem logEvent_freeList (e : Event) : (s.logEvent e).freeList = s.freeList := rfl
@[simp] theorem logEvent_rs (e : Event) : (s.logEvent e).rs = s.rs := rfl
@[simp] theorem logEvent_rob (e : Event) : (s.logEvent e).rob = s.rob := rfl
@[simp] theorem logEvent_head (e : Event) : (s.logEvent e).head = s.head := rfl
@[simp] theorem logEvent_tail (e : Event) : (s.logEvent e).tail = s.tail := rfl
@[simp] theorem logEvent_mem (e : Event) : (s.logEvent e).mem = s.mem := rfl
@[simp] theorem logEvent_currentCycle (e : Event) : (s.logEvent e).currentCycle = s.currentCycle := rfl
@[simp] theorem logEvent_totalCycles (e : Event) : (s.logEvent e).totalCycles = s.totalCycles := rfl
@[simp] theorem logEvent_bubbleCount (e : Event) : (s.logEvent e).bubbleCount = s.bubbleCount := rfl
@[simp] theorem logEvent_committedCount (e : Event) : (s.logEvent e).committedCount = s.committedCount := rfl
@[simp] theorem logEvent_complete (e : Event) : (s.logEvent e).complete = s.complete := rfl
@[simp] theorem logEvent_timedOut (e : Event) : (s.logEvent e).timedOut = s.timedOut := rfl
@[simp] theorem logEvent_faultRec (e : Event) : (s.logEvent e).faultRec = s.faultRec := rfl
@[simp] theorem logEvent_log (e : Event) : (s.logEvent e).log =
    s.log ++ [e] := rfl
@[simp] theorem logEvent_draws (e : Event) : (s.logEvent e).draws = s.draws := rfl
@[simp] theorem logEvent_onBus (e : Event) : (s.logEvent e).onBus = s.onBus := rfl

/-! ### afterDraw -/

@[simp] theorem afterDraw_cfg (r : Option Value) : (s.afterDraw r).cfg = s.cfg := rfl
@[simp] theorem afterDraw_prog (r : Option Value) : (s.afterDraw r).prog = s.prog := rfl
@[simp] theorem afterDraw_status (r : Option Value) : (s.afterDraw r).status = s.status := rfl
@[simp] theorem afterDraw_reissue (r : Option Value) : (s.afterDraw r).reissue = s.reissue := rfl
@[simp] theorem afterDraw_pc (r : Option Value) : (s.afterDraw r).pc = s.pc := rfl
@[simp] theorem afterDraw_x (r : Option Value) : (s.afterDraw r).x = s.x := rfl
@[simp] theorem afterDraw_p (r : Option Value) : (s.afterDraw r).p = s.p := rfl
@[simp] theorem afterDraw_renameMap (r : Option Value) : (s.afterDraw r).renameMap = s.renameMap := rfl
@[simp] theorem afterDraw_freeList (r : Option Value) : (s.afterDraw r).freeList = s.freeList := rfl
@[simp] theorem afterDraw_rs (r : Option Value) : (s.afterDraw r).rs = s.rs := rfl
@[simp] theorem afterDraw_rob (r : Option Value) : (s.afterDraw r).rob = s.rob := rfl
@[simp] theorem afterDraw_head (r : Option Value) : (s.afterDraw r).head = s.head := rfl
@[simp] theorem afterDraw_tail (r : Option Value) : (s.afterDraw r).tail = s.tail := rfl
@[simp] theorem afterDraw_mem (r : Option Value) : (s.afterDraw r).mem = s.mem := rfl
@[simp] theorem afterDraw_currentCycle (r : Option Value) : (s.afterDraw r).currentCycle = s.currentCycle := rfl
@[simp] theorem afterDraw_totalCycles (r : Option Value) : (s.afterDraw r).totalCycles = s.totalCycles := rfl
@[simp] theorem afterDraw_bubbleCount (r : Option Value) : (s.afterDraw r).bubbleCount = s.bubbleCount := rfl
@[simp] theorem afterDraw_committedCount (r : Option Value) : (s.afterDraw r).committedCount = s.committedCount := rfl
@[simp] theorem afterDraw_complete (r : Option Value) : (s.afterDraw r).complete = s.complete := rfl
@[simp] theorem afterDraw_timedOut (r : Option Value) : (s.afterDraw r).timedOut = s.timedOut := rfl
@[simp] theorem afterDraw_faultRec (r : Option Value) : (s.afterDraw r).faultRec = s.faultRec := rfl
@[simp] theorem afterDraw_log (r : Option Value) : (s.afterDraw r).log = s.log := rfl
@[simp] theorem afterDraw_onBus (r : Option Value) : (s.afterDraw r).onBus = s.onBus := rfl

/-! ### storeValue -/

@[simp] theorem storeValue_cfg (a : Nat) (v : Value) : (s.storeValue a v).cfg = s.cfg := rfl
@[simp] theorem storeValue_prog (a : Nat) (v : Value) : (s.storeValue a v).prog = s.prog := rfl
@[simp] theorem storeValue_status (a : Nat) (v : Value) : (s.storeValue a v).status = s.status := rfl
@[simp] theorem storeValue_reissue (a : Nat) (v : Value) : (s.storeValue a v).reissue = s.reissue := rfl
@[simp] theorem storeValue_pc (a : Nat) (v : Value) : (s.storeValue a v).pc = s.pc := rfl
@[simp] theorem storeValue_x (a : Nat) (v : Value) : (s.storeValue a v).x = s.x := rfl
@[simp] theorem storeValue_p (a : Nat) (v : Value) : (s.storeValue a v).p = s.p := rfl
@[simp] theorem storeValue_renameMap (a : Nat) (v : Value) : (s.storeValue a v).renameMap = s.renameMap := rfl
@[simp] theorem storeValue_freeList (a : Nat) (v : Value) : (s.storeValue a v).freeList = s.freeList := rfl
@[simp] theorem storeValue_rs (a : Nat) (v : Value) : (s.storeValue a v).rs = s.rs := rfl
@[simp] theorem storeValue_rob (a : Nat) (v : Value) : (s.storeValue a v).rob = s.rob := rfl
@[simp] theorem storeValue_head (a : Nat) (v : Value) : (s.storeValue a v).head = s.head := rfl
@[simp] theorem storeValue_tail (a : Nat) (v : Value) : (s.storeValue a v).tail = s.tail := rfl
@[simp] theorem storeValue_mem (a : Nat) (v : Value) : (s.storeValue a v).mem =
    s.mem.write a v := rfl
@[simp] theorem storeValue_currentCycle (a : Nat) (v : Value) : (s.storeValue a v).currentCycle = s.currentCycle := rfl
@[simp] theorem storeValue_totalCycles (a : Nat) (v : Value) : (s.storeValue a v).totalCycles = s.totalCycles := rfl
@[simp] theorem storeValue_bubbleCount (a : Nat) (v : Value) : (s.storeValue a v).bubbleCount = s.bubbleCount := rfl
@[simp] theorem storeValue_committedCount (a : Nat) (v : Value) : (s.storeValue a v).committedCount = s.committedCount := rfl
@[simp] theorem storeValue_complete (a : Nat) (v : Value) : (s.storeValue a v).complete = s.complete := rfl
@[simp] theorem storeValue_timedOut (a : Nat) (v : Value) : (s.storeValue a v).timedOut = s.timedOut := rfl
@[simp] theorem storeValue_faultRec (a : Nat) (v : Value) : (s.storeValue a v).faultRec = s.faultRec := rfl
@[simp] theorem storeValue_log (a : Nat) (v : Value) : (s.storeValue a v).log = s.log := rfl
@[simp] theorem storeValue_draws (a : Nat) (v : Value) : (s.storeValue a v).draws = s.draws := rfl
@[simp] theorem storeValue_onBus (a : Nat) (v : Value) : (s.storeValue a v).onBus = s.onBus := rfl

/-! ### clearStation -/

@[simp] theorem clearStation_cfg (sid : Nat) : (s.clearStation sid).cfg = s.cfg := rfl
@[simp] theorem clearStation_prog (sid : Nat) : (s.clearStation sid).prog = s.prog := rfl
@[simp] theorem clearStation_status (sid : Nat) : (s.clearStation sid).status = s.status := rfl
@[simp] theorem clearStation_reissue (sid : Nat) : (s.clearStation sid).reissue = s.reissue := rfl
@[simp] theorem clearStation_pc (sid : Nat) : (s.clearStation sid).pc = s.pc := rfl
@[simp] theorem clearStation_x (sid : Nat) : (s.clearStation sid).x = s.x := rfl
@[simp] theorem clearStation_p (sid : Nat) : (s.clearStation sid).p = s.p := rfl
@[simp] theorem clearStation_renameMap (sid : Nat) : (s.clearStation sid).renameMap = s.renameMap := rfl
@[simp] theorem clearStation_freeList (sid : Nat) : (s.clearStation sid).freeList = s.freeList := rfl
@[simp] theorem clearStation_rs (sid : Nat) : (s.clearStation sid).rs =
    setBody s.rs sid none := rfl
@[simp] theorem clearStation_rob (sid : Nat) : (s.clearStation sid).rob = s.rob := rfl
@[simp] theorem clearStation_head (sid : Nat) : (s.clearStation sid).head = s.head := rfl
@[simp] theorem clearStation_tail (sid : Nat) : (s.clearStation sid).tail = s.tail := rfl
@[simp] theorem clearStation_mem (sid : Nat) : (s.clearStation sid).mem = s.mem := rfl
@[simp] theorem clearStation_currentCycle (sid : Nat) : (s.clearStation sid).currentCycle = s.currentCycle := rfl
@[simp] theorem clearStation_totalCycles (sid : Nat) : (s.clearStation sid).totalCycles = s.totalCycles := rfl
@[simp] theorem clearStation_bubbleCount (sid : Nat) : (s.clearStation sid).bubbleCount = s.bubbleCount := rfl
@[simp] theorem clearStation_committedCount (sid : Nat) : (s.clearStation sid).committedCount = s.committedCount := rfl
@[simp] theorem clearStation_complete (sid : Nat) : (s.clearStation sid).complete = s.complete := rfl
@[simp] theorem clearStation_timedOut (sid : Nat) : (s.clearStation sid).timedOut = s.timedOut := rfl
@[simp] theorem clearStation_faultRec (sid : Nat) : (s.clearStation sid).faultRec = s.faultRec := rfl
@[simp] theorem clearStation_log (sid : Nat) : (s.clearStation sid).log = s.log := rfl
@[simp] theorem clearStation_draws (sid : Nat) : (s.clearStation sid).draws = s.draws := rfl
@[simp] theorem clearStation_onBus (sid : Nat) : (s.clearStation sid).onBus = s.onBus := rfl

/-! ### raiseFault -/

@[simp] theorem raiseFault_cfg (code : FaultCode) (k i : Option Nat) (a : Option Int) : (s.raiseFault code k i a).cfg = s.cfg := rfl
@[simp] theorem raiseFault_prog (code : FaultCode) (k i : Option Nat) (a : Option Int) : (s.raiseFault code k i a).prog = s.prog := rfl
@[simp] theorem raiseFault_status (code : FaultCode) (k i : Option Nat) (a : Option Int) : (s.raiseFault code k i a).status = s.status := rfl
@[simp] theorem raiseFault_reissue (code : FaultCode) (k i : Option Nat) (a : Option Int) : (s.raiseFault code k i a).reissue = s.reissue := rfl
@[simp] theorem raiseFault_pc (code : FaultCode) (k i : Option Nat) (a : Option Int) : (s.raiseFault code k i a).pc = s.pc := rfl
@[simp] theorem raiseFault_x (code : FaultCode) (k i : Option Nat) (a : Option Int) : (s.raiseFault code k i a).x = s.x := rfl
@[simp] theorem raiseFault_p (code : FaultCode) (k i : Option Nat) (a : Option Int) : (s.raiseFault code k i a).p = s.p := rfl
@[simp] theorem raiseFault_renameMap (code : FaultCode) (k i : Option Nat) (a : Option Int) : (s.raiseFault code k i a).renameMap = s.renameMap := rfl
@[simp] theorem raiseFault_freeList (code : FaultCode) (k i : Option Nat) (a : Option Int) : (s.raiseFault code k i a).freeList = s.freeList := rfl
@[simp] theorem raiseFault_rs (code : FaultCode) (k i : Option Nat) (a : Option Int) : (s.raiseFault code k i a).rs = s.rs := rfl
@[simp] theorem raiseFault_rob (code : FaultCode) (k i : Option Nat) (a : Option Int) : (s.raiseFault code k i a).rob = s.rob := rfl
@[simp] theorem raiseFault_head (code : FaultCode) (k i : Option Nat) (a : Option Int) : (s.raiseFault code k i a).head = s.head := rfl
@[simp] theorem raiseFault_tail (code : FaultCode) (k i : Option Nat) (a : Option Int) : (s.raiseFault code k i a).tail = s.tail := rfl
@[simp] theorem raiseFault_mem (code : FaultCode) (k i : Option Nat) (a : Option Int) : (s.raiseFault code k i a).mem = s.mem := rfl
@[simp] theorem raiseFault_currentCycle (code : FaultCode) (k i : Option Nat) (a : Option Int) : (s.raiseFault code k i a).currentCycle = s.currentCycle := rfl
@[simp] theorem raiseFault_totalCycles (code : FaultCode) (k i : Option Nat) (a : Option Int) : (s.raiseFault code k i a).totalCycles = s.totalCycles := rfl
@[simp] theorem raiseFault_bubbleCount (code : FaultCode) (k i : Option Nat) (a : Option Int) : (s.raiseFault code k i a).bubbleCount = s.bubbleCount := rfl
@[simp] theorem raiseFault_committedCount (code : FaultCode) (k i : Option Nat) (a : Option Int) : (s.raiseFault code k i a).committedCount = s.committedCount := rfl
@[simp] theorem raiseFault_complete (code : FaultCode) (k i : Option Nat) (a : Option Int) : (s.raiseFault code k i a).complete = s.complete := rfl
@[simp] theorem raiseFault_timedOut (code : FaultCode) (k i : Option Nat) (a : Option Int) : (s.raiseFault code k i a).timedOut = s.timedOut := rfl
@[simp] theorem raiseFault_faultRec (code : FaultCode) (k i : Option Nat) (a : Option Int) : (s.raiseFault code k i a).faultRec =
    some { code := code, cycle := s.currentCycle, slot := k, instr := i, addr := a } := rfl
@[simp] theorem raiseFault_log (code : FaultCode) (k i : Option Nat) (a : Option Int) : (s.raiseFault code k i a).log =
    s.log ++ [Event.fault s.currentCycle code] := rfl
@[simp] theorem raiseFault_draws (code : FaultCode) (k i : Option Nat) (a : Option Int) : (s.raiseFault code k i a).draws = s.draws := rfl
@[simp] theorem raiseFault_onBus (code : FaultCode) (k i : Option Nat) (a : Option Int) : (s.raiseFault code k i a).onBus = s.onBus := rfl

/-! ### stallIssue -/

@[simp] theorem stallIssue_cfg (why : StallReason) : (s.stallIssue why).cfg = s.cfg := rfl
@[simp] theorem stallIssue_prog (why : StallReason) : (s.stallIssue why).prog = s.prog := rfl
@[simp] theorem stallIssue_status (why : StallReason) : (s.stallIssue why).status = s.status := rfl
@[simp] theorem stallIssue_reissue (why : StallReason) : (s.stallIssue why).reissue = s.reissue := rfl
@[simp] theorem stallIssue_pc (why : StallReason) : (s.stallIssue why).pc = s.pc := rfl
@[simp] theorem stallIssue_x (why : StallReason) : (s.stallIssue why).x = s.x := rfl
@[simp] theorem stallIssue_p (why : StallReason) : (s.stallIssue why).p = s.p := rfl
@[simp] theorem stallIssue_renameMap (why : StallReason) : (s.stallIssue why).renameMap = s.renameMap := rfl
@[simp] theorem stallIssue_freeList (why : StallReason) : (s.stallIssue why).freeList = s.freeList := rfl
@[simp] theorem stallIssue_rs (why : StallReason) : (s.stallIssue why).rs = s.rs := rfl
@[simp] theorem stallIssue_rob (why : StallReason) : (s.stallIssue why).rob = s.rob := rfl
@[simp] theorem stallIssue_head (why : StallReason) : (s.stallIssue why).head = s.head := rfl
@[simp] theorem stallIssue_tail (why : StallReason) : (s.stallIssue why).tail = s.tail := rfl
@[simp] theorem stallIssue_mem (why : StallReason) : (s.stallIssue why).mem = s.mem := rfl
@[simp] theorem stallIssue_currentCycle (why : StallReason) : (s.stallIssue why).currentCycle = s.currentCycle := rfl
@[simp] theorem stallIssue_totalCycles (why : StallReason) : (s.stallIssue why).totalCycles = s.totalCycles := rfl
@[simp] theorem stallIssue_bubbleCount (why : StallReason) : (s.stallIssue why).bubbleCount =
    s.bubbleCount + 1 := rfl
@[simp] theorem stallIssue_committedCount (why : StallReason) : (s.stallIssue why).committedCount = s.committedCount := rfl
@[simp] theorem stallIssue_complete (why : StallReason) : (s.stallIssue why).complete = s.complete := rfl
@[simp] theorem stallIssue_timedOut (why : StallReason) : (s.stallIssue why).timedOut = s.timedOut := rfl
@[simp] theorem stallIssue_faultRec (why : StallReason) : (s.stallIssue why).faultRec = s.faultRec := rfl
@[simp] theorem stallIssue_log (why : StallReason) : (s.stallIssue why).log =
    s.log ++ [Event.stallIssue s.currentCycle s.pc why] := rfl
@[simp] theorem stallIssue_draws (why : StallReason) : (s.stallIssue why).draws = s.draws := rfl
@[simp] theorem stallIssue_onBus (why : StallReason) : (s.stallIssue why).onBus = s.onBus := rfl

/-! ### issued -/

@[simp] theorem issued_cfg (i : Instr) (sid n : Nat) (rest : List Nat) : (s.issued i sid n rest).cfg = s.cfg := rfl
@[simp] theorem issued_prog (i : Instr) (sid n : Nat) (rest : List Nat) : (s.issued i sid n rest).prog = s.prog := rfl
@[simp] theorem issued_status (i : Instr) (sid n : Nat) (rest : List Nat) : (s.issued i sid n rest).status =
    s.status.set s.pc Status.issued := rfl
@[simp] theorem issued_reissue (i : Instr) (sid n : Nat) (rest : List Nat) : (s.issued i sid n rest).reissue =
    s.reissued := rfl
@[simp] theorem issued_pc (i : Instr) (sid n : Nat) (rest : List Nat) : (s.issued i sid n rest).pc =
    s.pc + 1 := rfl
@[simp] theorem issued_x (i : Instr) (sid n : Nat) (rest : List Nat) : (s.issued i sid n rest).x = s.x := rfl
@[simp] theorem issued_p (i : Instr) (sid n : Nat) (rest : List Nat) : (s.issued i sid n rest).p =
    s.seededPhys i n := rfl
@[simp] theorem issued_renameMap (i : Instr) (sid n : Nat) (rest : List Nat) : (s.issued i sid n rest).renameMap =
    s.renamedMap i n := rfl
@[simp] theorem issued_freeList (i : Instr) (sid n : Nat) (rest : List Nat) : (s.issued i sid n rest).freeList =
    rest := rfl
@[simp] theorem issued_rs (i : Instr) (sid n : Nat) (rest : List Nat) : (s.issued i sid n rest).rs =
    setBody s.rs sid (some (s.issuedStation i n)) := rfl
@[simp] theorem issued_rob (i : Instr) (sid n : Nat) (rest : List Nat) : (s.issued i sid n rest).rob =
    s.rob.set s.tail (some (s.issuedSlot i n)) := rfl
@[simp] theorem issued_head (i : Instr) (sid n : Nat) (rest : List Nat) : (s.issued i sid n rest).head = s.head := rfl
@[simp] theorem issued_tail (i : Instr) (sid n : Nat) (rest : List Nat) : (s.issued i sid n rest).tail =
    (s.tail + 1) % s.cfg.nrob := rfl
@[simp] theorem issued_mem (i : Instr) (sid n : Nat) (rest : List Nat) : (s.issued i sid n rest).mem = s.mem := rfl
@[simp] theorem issued_currentCycle (i : Instr) (sid n : Nat) (rest : List Nat) : (s.issued i sid n rest).currentCycle = s.currentCycle := rfl
@[simp] theorem issued_totalCycles (i : Instr) (sid n : Nat) (rest : List Nat) : (s.issued i sid n rest).totalCycles = s.totalCycles := rfl
@[simp] theorem issued_bubbleCount (i : Instr) (sid n : Nat) (rest : List Nat) : (s.issued i sid n rest).bubbleCount = s.bubbleCount := rfl
@[simp] theorem issued_committedCount (i : Instr) (sid n : Nat) (rest : List Nat) : (s.issued i sid n rest).committedCount = s.committedCount := rfl
@[simp] theorem issued_complete (i : Instr) (sid n : Nat) (rest : List Nat) : (s.issued i sid n rest).complete = s.complete := rfl
@[simp] theorem issued_timedOut (i : Instr) (sid n : Nat) (rest : List Nat) : (s.issued i sid n rest).timedOut = s.timedOut := rfl
@[simp] theorem issued_faultRec (i : Instr) (sid n : Nat) (rest : List Nat) : (s.issued i sid n rest).faultRec = s.faultRec := rfl
@[simp] theorem issued_log (i : Instr) (sid n : Nat) (rest : List Nat) : (s.issued i sid n rest).log =
    s.log ++ [Event.issue s.currentCycle s.pc s.tail (s.stationName sid) n] := rfl
@[simp] theorem issued_draws (i : Instr) (sid n : Nat) (rest : List Nat) : (s.issued i sid n rest).draws = s.draws := rfl
@[simp] theorem issued_onBus (i : Instr) (sid n : Nat) (rest : List Nat) : (s.issued i sid n rest).onBus = s.onBus := rfl

/-! ### recordResult -/

@[simp] theorem recordResult_cfg (k : Nat) (sl : Slot) (v : Value) : (s.recordResult k sl v).cfg = s.cfg := rfl
@[simp] theorem recordResult_prog (k : Nat) (sl : Slot) (v : Value) : (s.recordResult k sl v).prog = s.prog := rfl
@[simp] theorem recordResult_status (k : Nat) (sl : Slot) (v : Value) : (s.recordResult k sl v).status =
    s.status.set sl.instr Status.resultWritten := rfl
@[simp] theorem recordResult_reissue (k : Nat) (sl : Slot) (v : Value) : (s.recordResult k sl v).reissue = s.reissue := rfl
@[simp] theorem recordResult_pc (k : Nat) (sl : Slot) (v : Value) : (s.recordResult k sl v).pc = s.pc := rfl
@[simp] theorem recordResult_x (k : Nat) (sl : Slot) (v : Value) : (s.recordResult k sl v).x = s.x := rfl
@[simp] theorem recordResult_p (k : Nat) (sl : Slot) (v : Value) : (s.recordResult k sl v).p =
    s.p.set sl.renamedReg v := rfl
@[simp] theorem recordResult_renameMap (k : Nat) (sl : Slot) (v : Value) : (s.recordResult k sl v).renameMap = s.renameMap := rfl
@[simp] theorem recordResult_freeList (k : Nat) (sl : Slot) (v : Value) : (s.recordResult k sl v).freeList = s.freeList := rfl
@[simp] theorem recordResult_rs (k : Nat) (sl : Slot) (v : Value) : (s.recordResult k sl v).rs = s.rs := rfl
@[simp] theorem recordResult_rob (k : Nat) (sl : Slot) (v : Value) : (s.recordResult k sl v).rob =
    s.rob.set k (some { sl with result := v, ready := true, state := .resultWritten, writeCycle := s.currentCycle }) := rfl
@[simp] theorem recordResult_head (k : Nat) (sl : Slot) (v : Value) : (s.recordResult k sl v).head = s.head := rfl
@[simp] theorem recordResult_tail (k : Nat) (sl : Slot) (v : Value) : (s.recordResult k sl v).tail = s.tail := rfl
@[simp] theorem recordResult_mem (k : Nat) (sl : Slot) (v : Value) : (s.recordResult k sl v).mem = s.mem := rfl
@[simp] theorem recordResult_currentCycle (k : Nat) (sl : Slot) (v : Value) : (s.recordResult k sl v).currentCycle = s.currentCycle := rfl
@[simp] theorem recordResult_totalCycles (k : Nat) (sl : Slot) (v : Value) : (s.recordResult k sl v).totalCycles = s.totalCycles := rfl
@[simp] theorem recordResult_bubbleCount (k : Nat) (sl : Slot) (v : Value) : (s.recordResult k sl v).bubbleCount = s.bubbleCount := rfl
@[simp] theorem recordResult_committedCount (k : Nat) (sl : Slot) (v : Value) : (s.recordResult k sl v).committedCount = s.committedCount := rfl
@[simp] theorem recordResult_complete (k : Nat) (sl : Slot) (v : Value) : (s.recordResult k sl v).complete = s.complete := rfl
@[simp] theorem recordResult_timedOut (k : Nat) (sl : Slot) (v : Value) : (s.recordResult k sl v).timedOut = s.timedOut := rfl
@[simp] theorem recordResult_faultRec (k : Nat) (sl : Slot) (v : Value) : (s.recordResult k sl v).faultRec = s.faultRec := rfl
@[simp] theorem recordResult_log (k : Nat) (sl : Slot) (v : Value) : (s.recordResult k sl v).log =
    s.log ++ [Event.writeResult s.currentCycle k v] := rfl
@[simp] theorem recordResult_draws (k : Nat) (sl : Slot) (v : Value) : (s.recordResult k sl v).draws = s.draws := rfl
@[simp] theorem recordResult_onBus (k : Nat) (sl : Slot) (v : Value) : (s.recordResult k sl v).onBus = s.onBus := rfl

/-! ### broadcast -/

@[simp] theorem broadcast_cfg (q : Nat) (v : Value) : (s.broadcast q v).cfg = s.cfg := rfl
@[simp] theorem broadcast_prog (q : Nat) (v : Value) : (s.broadcast q v).prog = s.prog := rfl
@[simp] theorem broadcast_status (q : Nat) (v : Value) : (s.broadcast q v).status = s.status := rfl
@[simp] theorem broadcast_reissue (q : Nat) (v : Value) : (s.broadcast q v).reissue = s.reissue := rfl
@[simp] theorem broadcast_pc (q : Nat) (v : Value) : (s.broadcast q v).pc = s.pc := rfl
@[simp] theorem broadcast_x (q : Nat) (v : Value) : (s.broadcast q v).x = s.x := rfl
@[simp] theorem broadcast_p (q : Nat) (v : Value) : (s.broadcast q v).p = s.p := rfl
@[simp] theorem broadcast_renameMap (q : Nat) (v : Value) : (s.broadcast q v).renameMap = s.renameMap := rfl
@[simp] theorem broadcast_freeList (q : Nat) (v : Value) : (s.broadcast q v).freeList = s.freeList := rfl
@[simp] theorem broadcast_rs (q : Nat) (v : Value) : (s.broadcast q v).rs =
    s.rs.map (fun e => { e with body := e.body.map (deliver q v) }) := rfl
@[simp] theorem broadcast_rob (q : Nat) (v : Value) : (s.broadcast q v).rob = s.rob := rfl
@[simp] theorem broadcast_head (q : Nat) (v : Value) : (s.broadcast q v).head = s.head := rfl
@[simp] theorem broadcast_tail (q : Nat) (v : Value) : (s.broadcast q v).tail = s.tail := rfl
@[simp] theorem broadcast_mem (q : Nat) (v : Value) : (s.broadcast q v).mem = s.mem := rfl
@[simp] theorem broadcast_currentCycle (q : Nat) (v : Value) : (s.broadcast q v).currentCycle = s.currentCycle := rfl
@[simp] theorem broadcast_totalCycles (q : Nat) (v : Value) : (s.broadcast q v).totalCycles = s.totalCycles := rfl
@[simp] theorem broadcast_bubbleCount (q : Nat) (v : Value) : (s.broadcast q v).bubbleCount = s.bubbleCount := rfl
@[simp] theorem broadcast_committedCount (q : Nat) (v : Value) : (s.broadcast q v).committedCount = s.committedCount := rfl
@[simp] theorem broadcast_complete (q : Nat) (v : Value) : (s.broadcast q v).complete = s.complete := rfl
@[simp] theorem broadcast_timedOut (q : Nat) (v : Value) : (s.broadcast q v).timedOut = s.timedOut := rfl
@[simp] theorem broadcast_faultRec (q : Nat) (v : Value) : (s.broadcast q v).faultRec = s.faultRec := rfl
@[simp] theorem broadcast_log (q : Nat) (v : Value) : (s.broadcast q v).log =
    s.log ++ [Event.broadcast s.currentCycle q v] := rfl
@[simp] theorem broadcast_draws (q : Nat) (v : Value) : (s.broadcast q v).draws = s.draws := rfl
@[simp] theorem broadcast_onBus (q : Nat) (v : Value) : (s.broadcast q v).onBus = s.onBus := rfl

/-! ### cancel -/

@[simp] theorem cancel_cfg (k : Nat) (vic : Nat × Slot) : (s.cancel k vic).cfg = s.cfg := rfl
@[simp] theorem cancel_prog (k : Nat) (vic : Nat × Slot) : (s.cancel k vic).prog = s.prog := rfl
@[simp] theorem cancel_status (k : Nat) (vic : Nat × Slot) : (s.cancel k vic).status =
    s.status.set vic.2.instr Status.skipped := rfl
@[simp] theorem cancel_reissue (k : Nat) (vic : Nat × Slot) : (s.cancel k vic).reissue = s.reissue := rfl
@[simp] theorem cancel_pc (k : Nat) (vic : Nat × Slot) : (s.cancel k vic).pc = s.pc := rfl
@[simp] theorem cancel_x (k : Nat) (vic : Nat × Slot) : (s.cancel k vic).x = s.x := rfl
@[simp] theorem cancel_p (k : Nat) (vic : Nat × Slot) : (s.cancel k vic).p = s.p := rfl
@[simp] theorem cancel_renameMap (k : Nat) (vic : Nat × Slot) : (s.cancel k vic).renameMap =
    s.unrenamed vic.2.publicReg vic.2.renamedReg := rfl
@[simp] theorem cancel_freeList (k : Nat) (vic : Nat × Slot) : (s.cancel k vic).freeList =
    s.freeList ++ [vic.2.renamedReg] := rfl
@[simp] theorem cancel_rs (k : Nat) (vic : Nat × Slot) : (s.cancel k vic).rs =
    s.rs.map (clearIfDest vic.2.renamedReg) := rfl
@[simp] theorem cancel_rob (k : Nat) (vic : Nat × Slot) : (s.cancel k vic).rob =
    s.rob.set vic.1 none := rfl
@[simp] theorem cancel_head (k : Nat) (vic : Nat × Slot) : (s.cancel k vic).head = s.head := rfl
@[simp] theorem cancel_tail (k : Nat) (vic : Nat × Slot) : (s.cancel k vic).tail = s.tail := rfl
@[simp] theorem cancel_mem (k : Nat) (vic : Nat × Slot) : (s.cancel k vic).mem = s.mem := rfl
@[simp] theorem cancel_currentCycle (k : Nat) (vic : Nat × Slot) : (s.cancel k vic).currentCycle = s.currentCycle := rfl
@[simp] theorem cancel_totalCycles (k : Nat) (vic : Nat × Slot) : (s.cancel k vic).totalCycles = s.totalCycles := rfl
@[simp] theorem cancel_bubbleCount (k : Nat) (vic : Nat × Slot) : (s.cancel k vic).bubbleCount = s.bubbleCount := rfl
@[simp] theorem cancel_committedCount (k : Nat) (vic : Nat × Slot) : (s.cancel k vic).committedCount = s.committedCount := rfl
@[simp] theorem cancel_complete (k : Nat) (vic : Nat × Slot) : (s.cancel k vic).complete = s.complete := rfl
@[simp] theorem cancel_timedOut (k : Nat) (vic : Nat × Slot) : (s.cancel k vic).timedOut = s.timedOut := rfl
@[simp] theorem cancel_faultRec (k : Nat) (vic : Nat × Slot) : (s.cancel k vic).faultRec = s.faultRec := rfl
@[simp] theorem cancel_log (k : Nat) (vic : Nat × Slot) : (s.cancel k vic).log =
    s.log ++ [Event.flush s.currentCycle k vic.1] := rfl
@[simp] theorem cancel_draws (k : Nat) (vic : Nat × Slot) : (s.cancel k vic).draws = s.draws := rfl
@[simp] theorem cancel_onBus (k : Nat) (vic : Nat × Slot) : (s.cancel k vic).onBus = s.onBus := rfl

/-! ### executed -/

@[simp] theorem executed_cfg (sid : Nat) (st : Station) (k : Nat) (sl : Slot) : (s.executed sid st k sl).cfg = s.cfg := rfl
@[simp] theorem executed_prog (sid : Nat) (st : Station) (k : Nat) (sl : Slot) : (s.executed sid st k sl).prog = s.prog := rfl
@[simp] theorem executed_reissue (sid : Nat) (st : Station) (k : Nat) (sl : Slot) : (s.executed sid st k sl).reissue = s.reissue := rfl
@[simp] theorem executed_pc (sid : Nat) (st : Station) (k : Nat) (sl : Slot) : (s.executed sid st k sl).pc = s.pc := rfl
@[simp] theorem executed_x (sid : Nat) (st : Station) (k : Nat) (sl : Slot) : (s.executed sid st k sl).x = s.x := rfl
@[simp] theorem executed_p (sid : Nat) (st : Station) (k : Nat) (sl : Slot) : (s.executed sid st k sl).p = s.p := rfl
@[simp] theorem executed_renameMap (sid : Nat) (st : Station) (k : Nat) (sl : Slot) : (s.executed sid st k sl).renameMap = s.renameMap := rfl
@[simp] theorem executed_freeList (sid : Nat) (st : Station) (k : Nat) (sl : Slot) : (s.executed sid st k sl).freeList = s.freeList := rfl
@[simp] theorem executed_rs (sid : Nat) (st : Station) (k : Nat) (sl : Slot) : (s.executed sid st k sl).rs =
    setBody s.rs sid (some { st with cyclesRemaining := st.cyclesRemaining - 1 }) := rfl
@[simp] theorem executed_head (sid : Nat) (st : Station) (k : Nat) (sl : Slot) : (s.executed sid st k sl).head = s.head := rfl
@[simp] theorem executed_tail (sid : Nat) (st : Station) (k : Nat) (sl : Slot) : (s.executed sid st k sl).tail = s.tail := rfl
@[simp] theorem executed_mem (sid : Nat) (st : Station) (k : Nat) (sl : Slot) : (s.executed sid st k sl).mem = s.mem := rfl
@[simp] theorem executed_currentCycle (sid : Nat) (st : Station) (k : Nat) (sl : Slot) : (s.executed sid st k sl).currentCycle = s.currentCycle := rfl
@[simp] theorem executed_totalCycles (sid : Nat) (st : Station) (k : Nat) (sl : Slot) : (s.executed sid st k sl).totalCycles = s.totalCycles := rfl
@[simp] theorem executed_bubbleCount (sid : Nat) (st : Station) (k : Nat) (sl : Slot) : (s.executed sid st k sl).bubbleCount = s.bubbleCount := rfl
@[simp] theorem executed_committedCount (sid : Nat) (st : Station) (k : Nat) (sl : Slot) : (s.executed sid st k sl).committedCount = s.committedCount := rfl
@[simp] theorem executed_complete (sid : Nat) (st : Station) (k : Nat) (sl : Slot) : (s.executed sid st k sl).complete = s.complete := rfl
@[simp] theorem executed_timedOut (sid : Nat) (st : Station) (k : Nat) (sl : Slot) : (s.executed sid st k sl).timedOut = s.timedOut := rfl
@[simp] theorem executed_faultRec (sid : Nat) (st : Station) (k : Nat) (sl : Slot) : (s.executed sid st k sl).faultRec = s.faultRec := rfl
@[simp] theorem executed_draws (sid : Nat) (st : Station) (k : Nat) (sl : Slot) : (s.executed sid st k sl).draws = s.draws := rfl
@[simp] theorem executed_onBus (sid : Nat) (st : Station) (k : Nat) (sl : Slot) : (s.executed sid st k sl).onBus = s.onBus := rfl

/-! ### waits -/

@[simp] theorem waits_cfg (sid : Nat) (st : Station) : (s.waits sid st).cfg = s.cfg := rfl
@[simp] theorem waits_prog (sid : Nat) (st : Station) : (s.waits sid st).prog = s.prog := rfl
@[simp] theorem waits_status (sid : Nat) (st : Station) : (s.waits sid st).status = s.status := rfl
@[simp] theorem waits_reissue (sid : Nat) (st : Station) : (s.waits sid st).reissue = s.reissue := rfl
@[simp] theorem waits_pc (sid : Nat) (st : Station) : (s.waits sid st).pc = s.pc := rfl
@[simp] theorem waits_x (sid : Nat) (st : Station) : (s.waits sid st).x = s.x := rfl
@[simp] theorem waits_p (sid : Nat) (st : Station) : (s.waits sid st).p = s.p := rfl
@[simp] theorem waits_renameMap (sid : Nat) (st : Station) : (s.waits sid st).renameMap = s.renameMap := rfl
@[simp] theorem waits_freeList (sid : Nat) (st : Station) : (s.waits sid st).freeList = s.freeList := rfl
@[simp] theorem waits_rs (sid : Nat) (st : Station) : (s.waits sid st).rs = s.rs := rfl
@[simp] theorem waits_rob (sid : Nat) (st : Station) : (s.waits sid st).rob = s.rob := rfl
@[simp] theorem waits_head (sid : Nat) (st : Station) : (s.waits sid st).head = s.head := rfl
@[simp] theorem waits_tail (sid : Nat) (st : Station) : (s.waits sid st).tail = s.tail := rfl
@[simp] theorem waits_mem (sid : Nat) (st : Station) : (s.waits sid st).mem = s.mem := rfl
@[simp] theorem waits_currentCycle (sid : Nat) (st : Station) : (s.waits sid st).currentCycle = s.currentCycle := rfl
@[simp] theorem waits_totalCycles (sid : Nat) (st : Station) : (s.waits sid st).totalCycles = s.totalCycles := rfl
@[simp] theorem waits_bubbleCount (sid : Nat) (st : Station) : (s.waits sid st).bubbleCount =
    s.bubbleCount + 1 := rfl
@[simp] theorem waits_committedCount (sid : Nat) (st : Station) : (s.waits sid st).committedCount = s.committedCount := rfl
@[simp] theorem waits_complete (sid : Nat) (st : Station) : (s.waits sid st).complete = s.complete := rfl
@[simp] theorem waits_timedOut (sid : Nat) (st : Station) : (s.waits sid st).timedOut = s.timedOut := rfl
@[simp] theorem waits_faultRec (sid : Nat) (st : Station) : (s.waits sid st).faultRec = s.faultRec := rfl
@[simp] theorem waits_log (sid : Nat) (st : Station) : (s.waits sid st).log =
    s.log ++ [s.waitEvent sid st] := rfl
@[simp] theorem waits_draws (sid : Nat) (st : Station) : (s.waits sid st).draws = s.draws := rfl
@[simp] theorem waits_onBus (sid : Nat) (st : Station) : (s.waits sid st).onBus = s.onBus := rfl

/-! ### retired -/

@[simp] theorem retired_cfg (sl : Slot) : (s.retired sl).cfg = s.cfg := rfl
@[simp] theorem retired_prog (sl : Slot) : (s.retired sl).prog = s.prog := rfl
@[simp] theorem retired_status (sl : Slot) : (s.retired sl).status =
    s.status.set sl.instr Status.committed := rfl
@[simp] theorem retired_reissue (sl : Slot) : (s.retired sl).reissue = s.reissue := rfl
@[simp] theorem retired_pc (sl : Slot) : (s.retired sl).pc = s.pc := rfl
@[simp] theorem retired_p (sl : Slot) : (s.retired sl).p = s.p := rfl
@[simp] theorem retired_renameMap (sl : Slot) : (s.retired sl).renameMap =
    s.unrenamed sl.publicReg sl.renamedReg := rfl
@[simp] theorem retired_freeList (sl : Slot) : (s.retired sl).freeList =
    s.freeList ++ [sl.renamedReg] := rfl
@[simp] theorem retired_rs (sl : Slot) : (s.retired sl).rs = s.rs := rfl
@[simp] theorem retired_rob (sl : Slot) : (s.retired sl).rob =
    s.rob.set s.head none := rfl
@[simp] theorem retired_head (sl : Slot) : (s.retired sl).head =
    (s.head + 1) % s.cfg.nrob := rfl
@[simp] theorem retired_tail (sl : Slot) : (s.retired sl).tail = s.tail := rfl
@[simp] theorem retired_mem (sl : Slot) : (s.retired sl).mem = s.mem := rfl
@[simp] theorem retired_currentCycle (sl : Slot) : (s.retired sl).currentCycle = s.currentCycle := rfl
@[simp] theorem retired_totalCycles (sl : Slot) : (s.retired sl).totalCycles = s.totalCycles := rfl
@[simp] theorem retired_bubbleCount (sl : Slot) : (s.retired sl).bubbleCount = s.bubbleCount := rfl
@[simp] theorem retired_committedCount (sl : Slot) : (s.retired sl).committedCount =
    s.committedCount + 1 := rfl
@[simp] theorem retired_complete (sl : Slot) : (s.retired sl).complete = s.complete := rfl
@[simp] theorem retired_timedOut (sl : Slot) : (s.retired sl).timedOut = s.timedOut := rfl
@[simp] theorem retired_faultRec (sl : Slot) : (s.retired sl).faultRec = s.faultRec := rfl
@[simp] theorem retired_log (sl : Slot) : (s.retired sl).log =
    s.log ++ [Event.commit s.currentCycle s.head sl.instr sl.publicReg sl.result] := rfl
@[simp] theorem retired_draws (sl : Slot) : (s.retired sl).draws = s.draws := rfl
@[simp] theorem retired_onBus (sl : Slot) : (s.retired sl).onBus = s.onBus := rfl

/-! ### timeout -/

@[simp] theorem timeout_cfg (why : TimeoutReason) (i : Option Nat) : (s.timeout why i).cfg = s.cfg := rfl
@[simp] theorem timeout_prog (why : TimeoutReason) (i : Option Nat) : (s.timeout why i).prog = s.prog := rfl
@[simp] theorem timeout_status (why : TimeoutReason) (i : Option Nat) : (s.timeout why i).status = s.status := rfl
@[simp] theorem timeout_reissue (why : TimeoutReason) (i : Option Nat) : (s.timeout why i).reissue = s.reissue := rfl
@[simp] theorem timeout_pc (why : TimeoutReason) (i : Option Nat) : (s.timeout why i).pc = s.pc := rfl
@[simp] theorem timeout_x (why : TimeoutReason) (i : Option Nat) : (s.timeout why i).x = s.x := rfl
@[simp] theorem timeout_p (why : TimeoutReason) (i : Option Nat) : (s.timeout why i).p = s.p := rfl
@[simp] theorem timeout_renameMap (why : TimeoutReason) (i : Option Nat) : (s.timeout why i).renameMap = s.renameMap := rfl
@[simp] theorem timeout_freeList (why : TimeoutReason) (i : Option Nat) : (s.timeout why i).freeList = s.freeList := rfl
@[simp] theorem timeout_rs (why : TimeoutReason) (i : Option Nat) : (s.timeout why i).rs = s.rs := rfl
@[simp] theorem timeout_rob (why : TimeoutReason) (i : Option Nat) : (s.timeout why i).rob = s.rob := rfl
@[simp] theorem timeout_head (why : TimeoutReason) (i : Option Nat) : (s.timeout why i).head = s.head := rfl
@[simp] theorem timeout_tail (why : TimeoutReason) (i : Option Nat) : (s.timeout why i).tail = s.tail := rfl
@[simp] theorem timeout_mem (why : TimeoutReason) (i : Option Nat) : (s.timeout why i).mem = s.mem := rfl
@[simp] theorem timeout_currentCycle (why : TimeoutReason) (i : Option Nat) : (s.timeout why i).currentCycle = s.currentCycle := rfl
@[simp] theorem timeout_totalCycles (why : TimeoutReason) (i : Option Nat) : (s.timeout why i).totalCycles =
    s.currentCycle - 1 := rfl
@[simp] theorem timeout_bubbleCount (why : TimeoutReason) (i : Option Nat) : (s.timeout why i).bubbleCount = s.bubbleCount := rfl
@[simp] theorem timeout_committedCount (why : TimeoutReason) (i : Option Nat) : (s.timeout why i).committedCount = s.committedCount := rfl
@[simp] theorem timeout_complete (why : TimeoutReason) (i : Option Nat) : (s.timeout why i).complete =
    true := rfl
@[simp] theorem timeout_timedOut (why : TimeoutReason) (i : Option Nat) : (s.timeout why i).timedOut =
    true := rfl
@[simp] theorem timeout_faultRec (why : TimeoutReason) (i : Option Nat) : (s.timeout why i).faultRec = s.faultRec := rfl
@[simp] theorem timeout_log (why : TimeoutReason) (i : Option Nat) : (s.timeout why i).log =
    s.log ++ [Event.timeout s.currentCycle why i] := rfl
@[simp] theorem timeout_draws (why : TimeoutReason) (i : Option Nat) : (s.timeout why i).draws = s.draws := rfl
@[simp] theorem timeout_onBus (why : TimeoutReason) (i : Option Nat) : (s.timeout why i).onBus = s.onBus := rfl

/-! ### setBus -/

@[simp] theorem setBus_cfg (b : Option Nat) : (s.setBus b).cfg = s.cfg := rfl
@[simp] theorem setBus_prog (b : Option Nat) : (s.setBus b).prog = s.prog := rfl
@[simp] theorem setBus_status (b : Option Nat) : (s.setBus b).status = s.status := rfl
@[simp] theorem setBus_reissue (b : Option Nat) : (s.setBus b).reissue = s.reissue := rfl
@[simp] theorem setBus_pc (b : Option Nat) : (s.setBus b).pc = s.pc := rfl
@[simp] theorem setBus_x (b : Option Nat) : (s.setBus b).x = s.x := rfl
@[simp] theorem setBus_p (b : Option Nat) : (s.setBus b).p = s.p := rfl
@[simp] theorem setBus_renameMap (b : Option Nat) : (s.setBus b).renameMap = s.renameMap := rfl
@[simp] theorem setBus_freeList (b : Option Nat) : (s.setBus b).freeList = s.freeList := rfl
@[simp] theorem setBus_rs (b : Option Nat) : (s.setBus b).rs = s.rs := rfl
@[simp] theorem setBus_rob (b : Option Nat) : (s.setBus b).rob = s.rob := rfl
@[simp] theorem setBus_head (b : Option Nat) : (s.setBus b).head = s.head := rfl
@[simp] theorem setBus_tail (b : Option Nat) : (s.setBus b).tail = s.tail := rfl
@[simp] theorem setBus_mem (b : Option Nat) : (s.setBus b).mem = s.mem := rfl
@[simp] theorem setBus_currentCycle (b : Option Nat) : (s.setBus b).currentCycle = s.currentCycle := rfl
@[simp] theorem setBus_totalCycles (b : Option Nat) : (s.setBus b).totalCycles = s.totalCycles := rfl
@[simp] theorem setBus_bubbleCount (b : Option Nat) : (s.setBus b).bubbleCount = s.bubbleCount := rfl
@[simp] theorem setBus_committedCount (b : Option Nat) : (s.setBus b).committedCount = s.committedCount := rfl
@[simp] theorem setBus_complete (b : Option Nat) : (s.setBus b).complete = s.complete := rfl
@[simp] theorem setBus_timedOut (b : Option Nat) : (s.setBus b).timedOut = s.timedOut := rfl
@[simp] theorem setBus_faultRec (b : Option Nat) : (s.setBus b).faultRec = s.faultRec := rfl
@[simp] theorem setBus_log (b : Option Nat) : (s.setBus b).log = s.log := rfl
@[simp] theorem setBus_draws (b : Option Nat) : (s.setBus b).draws = s.draws := rfl
@[simp] theorem setBus_onBus (b : Option Nat) : (s.setBus b).onBus =
    b := rfl

end Sys2Proof.Machine.State
end

