-- ==== Sys2Proof/Laws/Lookup.lean ====
section
/-! SUPPORT. What the lookups of slots and stations answer, and how an update of one place changes them. -/

namespace Sys2Proof.Machine

/-! ## Slots -/

theorem mem_busySlotsFrom (l : List (Option Slot)) (k0 : Nat) (j : Nat) (sl : Slot) :
    (j, sl) ∈ busySlotsFrom k0 l ↔ k0 ≤ j ∧ l[j - k0]? = some (some sl) := by
  induction l generalizing k0 with
  | nil => simp [busySlotsFrom]
  | cons o l ih =>
    have shift : ∀ {P : Prop}, k0 + 1 ≤ j → ((l[j - (k0 + 1)]? = some (some sl)) ↔ ((o :: l)[j - k0]? = some (some sl))) := by
      intro _ h
      have : j - k0 = (j - (k0 + 1)) + 1 := by omega
      rw [this, List.getElem?_cons_succ]
    cases o with
    | none =>
      rw [busySlotsFrom, ih]
      constructor
      · rintro ⟨h, e⟩
        exact ⟨by omega, (shift (P := True) h).1 e⟩
      · rintro ⟨h, e⟩
        rcases Nat.lt_or_ge k0 j with h' | h'
        · exact ⟨h', (shift (P := True) h').2 e⟩
        · have : j - k0 = 0 := by omega
          rw [this] at e; simp at e
    | some b =>
      rw [busySlotsFrom, List.mem_cons, ih]
      constructor
      · rintro (e | ⟨h, e⟩)
        · obtain ⟨rfl, rfl⟩ := Prod.mk.inj e
          simp
        · exact ⟨by omega, (shift (P := True) h).1 e⟩
      · rintro ⟨h, e⟩
        rcases Nat.lt_or_ge k0 j with h' | h'
        · exact .inr ⟨h', (shift (P := True) h').2 e⟩
        · have hj : j = k0 := by omega
          subst hj
          simp at e
          exact .inl (by rw [e])

namespace State

variable {s t : State}

theorem slotAt_some {k : Nat} {sl : Slot} : s.slotAt k = some sl ↔ s.rob[k]? = some (some sl) := by
  unfold slotAt
  cases h : s.rob[k]? <;> simp

theorem slotAt_lt {k : Nat} {sl : Slot} (h : s.slotAt k = some sl) : k < s.rob.length := by
  have := slotAt_some.1 h
  exact (List.getElem?_eq_some_iff.1 this).1

theorem mem_busySlots {k : Nat} {sl : Slot} : (k, sl) ∈ s.busySlots ↔ s.slotAt k = some sl := by
  rw [busySlots, mem_busySlotsFrom, slotAt_some]
  simp

/-- A slot that the ROB holds, after one slot was replaced. -/
theorem slotAt_of_rob_set {k : Nat} {o : Option Slot} (h : t.rob = s.rob.set k o) (hk : k < s.rob.length) (k' : Nat) :
    t.slotAt k' = if k' = k then o else s.slotAt k' := by
  unfold slotAt
  rw [h, List.getElem?_set]
  by_cases e : k = k'
  · subst e; simp [hk]
  · simp [e, Ne.symm e]

theorem slotAt_of_rob_eq (h : t.rob = s.rob) (k' : Nat) : t.slotAt k' = s.slotAt k' := by
  unfold slotAt; rw [h]

/-- The answer of the owner search is a busy slot with that name. -/
theorem owner_some {n k : Nat} {sl : Slot} (h : s.owner n = some (k, sl)) :
    s.slotAt k = some sl ∧ sl.renamedReg = n := by
  unfold owner at h
  have hm := List.mem_of_find?_eq_some h
  have hp := List.find?_some h
  exact ⟨mem_busySlots.1 hm, by simpa using hp⟩

theorem owner_isSome {k : Nat} {sl : Slot} (h : s.slotAt k = some sl) : (s.owner sl.renamedReg).isSome := by
  unfold owner
  rw [List.find?_isSome]
  exact ⟨(k, sl), mem_busySlots.2 h, by simp⟩

theorem owner_none {n : Nat} : s.owner n = none ↔ ∀ k sl, s.slotAt k = some sl → sl.renamedReg ≠ n := by
  unfold owner
  rw [List.find?_eq_none]
  constructor
  · intro h k sl hs e
    exact h (k, sl) (mem_busySlots.2 hs) (by simp [e])
  · rintro h ⟨k, sl⟩ hm e
    exact h k sl (mem_busySlots.1 hm) (by simpa using e)

theorem mem_ownedNames {n : Nat} : n ∈ s.ownedNames ↔ ∃ k sl, s.slotAt k = some sl ∧ sl.renamedReg = n := by
  unfold ownedNames
  rw [List.mem_filterMap]
  constructor
  · rintro ⟨o, ho, e⟩
    cases o with
    | none => simp at e
    | some sl =>
      obtain ⟨k, hk⟩ := List.mem_iff_getElem?.1 ho
      exact ⟨k, sl, slotAt_some.2 hk, by simpa using e⟩
  · rintro ⟨k, sl, hs, e⟩
    exact ⟨some sl, List.mem_of_getElem? (slotAt_some.1 hs), by simp [e]⟩

end State

/-- The names of a list of slots after a free slot was filled. -/
theorem filterMap_set_fill {l : List (Option Slot)} {k : Nat} {sl : Slot} (h : l[k]? = some none) :
    ((l.set k (some sl)).filterMap (fun o => o.map Slot.renamedReg)).Perm
      (sl.renamedReg :: l.filterMap (fun o => o.map Slot.renamedReg)) := by
  induction l generalizing k with
  | nil => simp at h
  | cons o l ih =>
    cases k with
    | zero => simp at h; subst h; simp
    | succ k =>
      simp only [List.getElem?_cons_succ] at h
      cases o with
      | none => simpa using ih h
      | some b => simpa using (List.Perm.cons _ (ih h)).trans (List.Perm.swap _ _ _)

/-- The names of a list of slots before and after a busy slot was cleared. -/
theorem filterMap_set_clear {l : List (Option Slot)} {k : Nat} {sl : Slot} (h : l[k]? = some (some sl)) :
    (l.filterMap (fun o => o.map Slot.renamedReg)).Perm
      (sl.renamedReg :: (l.set k none).filterMap (fun o => o.map Slot.renamedReg)) := by
  induction l generalizing k with
  | nil => simp at h
  | cons o l ih =>
    cases k with
    | zero => simp at h; subst h; simp
    | succ k =>
      simp only [List.getElem?_cons_succ] at h
      cases o with
      | none => simpa using ih h
      | some b => simpa using (List.Perm.cons _ (ih h)).trans (List.Perm.swap _ _ _)

/-- The names of a list of slots when a busy slot's contents change but not its name. -/
theorem filterMap_set_same {l : List (Option Slot)} {k : Nat} {sl sl' : Slot} (h : l[k]? = some (some sl))
    (hn : sl'.renamedReg = sl.renamedReg) :
    (l.set k (some sl')).filterMap (fun o => o.map Slot.renamedReg) = l.filterMap (fun o => o.map Slot.renamedReg) := by
  induction l generalizing k with
  | nil => simp at h
  | cons o l ih =>
    cases k with
    | zero => simp at h; subst h; simp [hn]
    | succ k =>
      simp only [List.getElem?_cons_succ] at h
      cases o with
      | none => simpa using ih h
      | some b => simpa using ih h

/-! ## Stations -/

@[simp] theorem setBody_length (rs : List StationEntry) (sid : Nat) (b : Option Station) :
    (setBody rs sid b).length = rs.length := by simp [setBody]

@[simp] theorem setBody_names (rs : List StationEntry) (sid : Nat) (b : Option Station) :
    (setBody rs sid b).map StationEntry.name = rs.map StationEntry.name := by
  apply List.ext_getElem?
  intro j
  simp only [setBody, List.getElem?_map, List.getElem?_modify]
  cases rs[j]? <;> simp <;> split <;> rfl

theorem getElem?_setBody (rs : List StationEntry) (sid : Nat) (b : Option Station) (j : Nat) :
    (setBody rs sid b)[j]? = (rs[j]?).map (fun e => if j = sid then { e with body := b } else e) := by
  simp only [setBody, List.getElem?_modify]
  cases rs[j]? <;> simp [eq_comm]

namespace State

variable {s t : State}

theorem stationAt_some {sid : Nat} {st : Station} :
    s.stationAt sid = some st ↔ ∃ e, s.rs[sid]? = some e ∧ e.body = some st := by
  unfold stationAt
  cases h : s.rs[sid]? <;> simp

theorem stationAt_lt {sid : Nat} {st : Station} (h : s.stationAt sid = some st) : sid < s.rs.length := by
  obtain ⟨e, he, -⟩ := stationAt_some.1 h
  exact (List.getElem?_eq_some_iff.1 he).1

theorem stationAt_of_rs_eq (h : t.rs = s.rs) (j : Nat) : t.stationAt j = s.stationAt j := by
  unfold stationAt; rw [h]

theorem stationName_of_rs_eq (h : t.rs = s.rs) (j : Nat) : t.stationName j = s.stationName j := by
  unfold stationName; rw [h]

/-- A station, after the contents of one station were replaced. -/
theorem stationAt_of_setBody {sid : Nat} {b : Option Station} (h : t.rs = setBody s.rs sid b)
    (hs : sid < s.rs.length) (j : Nat) : t.stationAt j = if j = sid then b else s.stationAt j := by
  unfold stationAt
  rw [h, getElem?_setBody]
  by_cases e : j = sid
  · subst e
    rw [List.getElem?_eq_getElem hs]
    simp
  · cases s.rs[j]? <;> simp [e]

theorem stationName_of_setBody {sid : Nat} {b : Option Station} (h : t.rs = setBody s.rs sid b) (j : Nat) :
    t.stationName j = s.stationName j := by
  unfold stationName
  rw [h, getElem?_setBody]
  cases s.rs[j]? with
  | none => rfl
  | some e => simp only [Option.map_some]; split <;> rfl

/-- A station, after every busy station's contents were mapped. -/
theorem stationAt_of_mapBody {f : Station → Station}
    (h : t.rs = s.rs.map (fun e => { e with body := e.body.map f })) (j : Nat) :
    t.stationAt j = (s.stationAt j).map f := by
  unfold stationAt
  rw [h, List.getElem?_map]
  cases s.rs[j]? <;> simp

theorem stationName_of_map {f : StationEntry → StationEntry} (hf : ∀ e, (f e).name = e.name) (h : t.rs = s.rs.map f)
    (j : Nat) : t.stationName j = s.stationName j := by
  unfold stationName
  rw [h, List.getElem?_map]
  cases s.rs[j]? <;> simp [hf]

@[simp] theorem clearIfDest_name (n : Nat) (e : StationEntry) : (clearIfDest n e).name = e.name := by
  unfold clearIfDest
  cases e.body with
  | none => rfl
  | some st => dsimp only; split <;> rfl

/-- A station, after the stations of the name `n` were cleared. -/
theorem stationAt_of_clearDest {n : Nat} (h : t.rs = s.rs.map (clearIfDest n)) (j : Nat) :
    t.stationAt j = (s.stationAt j).filter (fun st => decide (st.dest ≠ n)) := by
  unfold stationAt
  rw [h, List.getElem?_map]
  cases s.rs[j]? with
  | none => rfl
  | some e =>
    simp only [Option.map_some]
    unfold clearIfDest
    cases hb : e.body with
    | none => simp [hb]
    | some st =>
      by_cases hd : st.dest = n
      · simp [hd, Option.filter]
      · simp [hd, hb, Option.filter]

/-- The free station an issue takes is a free station of the class, and the first such. -/
theorem freeStationFrom_some {cls : OpClass} {l : List StationEntry} {k0 sid : Nat}
    (h : freeStationFrom cls k0 l = some sid) :
    k0 ≤ sid ∧ ∃ e, l[sid - k0]? = some e ∧ e.name.cls = cls ∧ e.body = none := by
  induction l generalizing k0 with
  | nil => simp [freeStationFrom] at h
  | cons e l ih =>
    unfold freeStationFrom at h
    split at h
    · obtain rfl := Option.some.inj h
      exact ⟨le_refl _, e, by simp, ‹_›⟩
    · obtain ⟨hle, e', he, h'⟩ := ih h
      refine ⟨by omega, e', ?_, h'⟩
      have : sid - k0 = (sid - (k0 + 1)) + 1 := by omega
      rw [this, List.getElem?_cons_succ]
      exact he

theorem freeStation_some {cls : OpClass} {sid : Nat} (h : s.freeStation cls = some sid) :
    sid < s.rs.length ∧ s.stationAt sid = none ∧ (s.stationName sid).cls = cls := by
  obtain ⟨-, e, he, hc, hb⟩ := freeStationFrom_some h
  simp only [Nat.sub_zero] at he
  refine ⟨(List.getElem?_eq_some_iff.1 he).1, ?_, ?_⟩
  · simp [stationAt, he, hb]
  · simp [stationName, he, hc]

end State

end Sys2Proof.Machine
end

