-- ==== Sys2Proof/Laws/Consistent.lean ====
section
/-! SUPPORT. Each shared operation keeps the consistency of the state (Safety.lean). A lemma here says it of one update; the phases
and the step are assembled from these. -/

namespace Sys2Proof.Machine

/-- Consistency with one station's link left out: within a candidate's write-result its slot is already written while its station is
not yet cleared (42_write_result.md R114, R123). -/
structure State.SoundBut (ex : Option Nat) (s : State) : Prop where
  shape : s.Shape
  slotsOk : ∀ k sl, s.slotAt k = some sl → SlotOk s sl
  stationsOk : ∀ sid st, s.stationAt sid = some st → StationOk s (s.stationName sid) st
  namesOnce : s.NamesOnce
  links : ∀ sid st, some sid ≠ ex → s.stationAt sid = some st → s.LinkOk st
  distinct : s.DestsDistinct
  mapLive : s.MapLive

theorem State.Consistent.soundBut {s : State} (h : s.Consistent) (ex : Option Nat) : s.SoundBut ex :=
  ⟨h.shape, h.slotsOk, h.stationsOk, h.namesOnce, fun sid st _ => h.links sid st, h.distinct, h.mapLive⟩

theorem State.SoundBut.consistent {s : State} (h : s.SoundBut none) : s.Consistent :=
  ⟨h.shape, h.slotsOk, h.stationsOk, h.namesOnce, fun sid st => h.links sid st (by simp), h.distinct, h.mapLive⟩

/-- Two states agree on everything consistency speaks of, up to later cycle numbers. -/
structure SameCore (s t : State) : Prop where
  cfg : t.cfg = s.cfg
  prog : t.prog = s.prog
  status : t.status.length = s.status.length
  reissue : t.reissue.length = s.reissue.length
  x : t.x.length = s.x.length
  p : t.p.length = s.p.length
  renameMap : t.renameMap = s.renameMap
  freeList : t.freeList = s.freeList
  rs : t.rs = s.rs
  rob : t.rob = s.rob
  head : t.head = s.head
  tail : t.tail = s.tail
  pc : t.pc ≤ 2147483647
  cycle : s.currentCycle ≤ t.currentCycle

theorem SlotOk.of_frame {s t : State} {sl : Slot} (h : SlotOk s sl) (hp : t.prog = s.prog) (hc : t.cfg = s.cfg)
    (hy : s.currentCycle ≤ t.currentCycle) : SlotOk t sl := by
  obtain ⟨a1, a2, a3, a4, a5, a6, a7⟩ := h
  exact ⟨by rw [hp]; exact a1, by rw [hc]; exact a2, le_trans a3 hy, a4, a5, a6, a7⟩

theorem StationOk.of_frame {s t : State} {name : StationName} {st : Station} (h : StationOk s name st)
    (hc : t.cfg = s.cfg) : StationOk t name st := by
  obtain ⟨a1, a2, a3, a4, a5, a6, a7⟩ := h
  exact ⟨a1, by rw [hc]; exact a2, a3, a4, a5, a6, a7⟩

namespace State

variable {s t : State}

theorem SoundBut.of_same {ex : Option Nat} (h : s.SoundBut ex) (e : SameCore s t) : t.SoundBut ex where
  shape := by
    obtain ⟨h1, h2, h3, h4, h5, h6, h7, h8, h9, h10, h11, h12, h13, h14⟩ := h.shape
    constructor
    all_goals first
      | (rw [e.cfg]; assumption)
      | (rw [e.prog]; assumption)
      | (rw [e.prog, e.cfg]; assumption)
      | (rw [e.status, e.prog]; assumption)
      | (rw [e.reissue, e.prog]; assumption)
      | (rw [e.x, e.cfg]; assumption)
      | (rw [e.p, e.cfg]; assumption)
      | (rw [e.renameMap, e.cfg]; assumption)
      | (rw [e.rob, e.cfg]; assumption)
      | (rw [e.rs, e.cfg]; assumption)
      | (rw [e.head, e.cfg]; assumption)
      | (rw [e.tail, e.cfg]; assumption)
      | exact e.pc
      | exact le_trans h14 e.cycle
  slotsOk := by
    intro k sl hs
    rw [slotAt_of_rob_eq e.rob] at hs
    exact (h.slotsOk k sl hs).of_frame e.prog e.cfg e.cycle
  stationsOk := by
    intro sid st hs
    rw [stationAt_of_rs_eq e.rs] at hs
    rw [stationName_of_rs_eq e.rs]
    exact (h.stationsOk sid st hs).of_frame e.cfg
  namesOnce := by
    have := h.namesOnce
    unfold NamesOnce ownedNames at *
    rw [e.freeList, e.rob, e.cfg]; exact this
  links := by
    intro sid st hx hs
    rw [stationAt_of_rs_eq e.rs] at hs
    obtain ⟨k, sl, h1, h2⟩ := h.links sid st hx hs
    exact ⟨k, sl, by rw [slotAt_of_rob_eq e.rob]; exact h1, h2⟩
  distinct := by
    intro a b sa sb ha hb
    rw [stationAt_of_rs_eq e.rs] at ha hb
    exact h.distinct a b sa sb ha hb
  mapLive := by
    intro r n hm
    rw [e.renameMap] at hm
    obtain ⟨k, sl, h1, h2⟩ := h.mapLive r n hm
    exact ⟨k, sl, by rw [slotAt_of_rob_eq e.rob]; exact h1, h2⟩

theorem Consistent.of_same (h : s.Consistent) (e : SameCore s t) : t.Consistent :=
  ((h.soundBut none).of_same e).consistent

/-! ## Names -/

/-- All names of the free list and of busy slots are distinct. -/
theorem SoundBut.nodup {ex : Option Nat} (h : s.SoundBut ex) : (s.freeList ++ s.ownedNames).Nodup :=
  (List.Perm.nodup_iff h.namesOnce).2 (List.nodup_range)

theorem SoundBut.owned_nodup {ex : Option Nat} (h : s.SoundBut ex) : s.ownedNames.Nodup :=
  (List.nodup_append.1 h.nodup).2.1

theorem SoundBut.free_not_owned {ex : Option Nat} (h : s.SoundBut ex) {n : Nat} (hn : n ∈ s.freeList) :
    n ∉ s.ownedNames := fun ho => (List.nodup_append.1 h.nodup).2.2 n hn n ho rfl

theorem filterMap_nodup_index {l : List (Option Slot)} (h : (l.filterMap (fun o => o.map Slot.renamedReg)).Nodup)
    {a b : Nat} {sa sb : Slot} (ha : l[a]? = some (some sa)) (hb : l[b]? = some (some sb))
    (e : sa.renamedReg = sb.renamedReg) : a = b := by
  induction l generalizing a b with
  | nil => simp at ha
  | cons o l ih =>
    have tailOk : (l.filterMap (fun o => o.map Slot.renamedReg)).Nodup := by
      cases o with
      | none => simpa using h
      | some x => simp only [List.filterMap_cons, Option.map_some] at h; exact (List.nodup_cons.1 h).2
    have headOk : ∀ {j : Nat} {x y : Slot}, o = some x → l[j]? = some (some y) → x.renamedReg ≠ y.renamedReg := by
      intro j x y ho hy he
      subst ho
      simp only [List.filterMap_cons, Option.map_some] at h
      refine (List.nodup_cons.1 h).1 (List.mem_filterMap.2 ⟨some y, List.mem_of_getElem? hy, by simp [he]⟩)
    cases a with
    | zero =>
      cases b with
      | zero => rfl
      | succ b =>
        simp only [List.getElem?_cons_zero, Option.some.injEq, List.getElem?_cons_succ] at ha hb
        exact absurd e (headOk ha hb)
    | succ a =>
      cases b with
      | zero =>
        simp only [List.getElem?_cons_zero, Option.some.injEq, List.getElem?_cons_succ] at ha hb
        exact absurd e.symm (headOk hb ha)
      | succ b =>
        simp only [List.getElem?_cons_succ] at ha hb
        rw [ih tailOk ha hb]

/-- Two busy slots with one name are the same slot (10_state.md R36). -/
theorem SoundBut.slot_unique {ex : Option Nat} (h : s.SoundBut ex) {a b : Nat} {sa sb : Slot}
    (ha : s.slotAt a = some sa) (hb : s.slotAt b = some sb) (e : sa.renamedReg = sb.renamedReg) : a = b ∧ sa = sb := by
  have := filterMap_nodup_index h.owned_nodup (slotAt_some.1 ha) (slotAt_some.1 hb) e
  subst this
  rw [ha] at hb
  exact ⟨rfl, Option.some.inj hb⟩

/-- The owner search finds the busy slot with a name. -/
theorem SoundBut.owner_of_slot {ex : Option Nat} (h : s.SoundBut ex) {k : Nat} {sl : Slot}
    (hs : s.slotAt k = some sl) : s.owner sl.renamedReg = some (k, sl) := by
  have hi := owner_isSome hs
  obtain ⟨⟨k', sl'⟩, he⟩ := Option.isSome_iff_exists.1 hi
  obtain ⟨h1, h2⟩ := owner_some he
  obtain ⟨rfl, rfl⟩ := h.slot_unique h1 hs h2
  exact he

/-- A linked station's owner exists, is unwritten and is found (42_write_result.md R112). -/
theorem SoundBut.owner_of_link {ex : Option Nat} (h : s.SoundBut ex) {st : Station} (hl : s.LinkOk st) :
    ∃ k sl, s.owner st.dest = some (k, sl) ∧ s.slotAt k = some sl ∧ sl.renamedReg = st.dest ∧ sl.ready = false ∧
      sl.writeCycle ≠ s.currentCycle := by
  obtain ⟨k, sl, h1, h2, h3⟩ := hl
  refine ⟨k, sl, ?_, h1, h2, h3, ?_⟩
  · rw [← h2]; exact h.owner_of_slot h1
  · have := (h.slotsOk k sl h1).unwritten h3
    have := h.shape.cyclePos
    omega

/-! ## Updates that consistency does not see -/

theorem SoundBut.logEvent {ex : Option Nat} (h : s.SoundBut ex) (e : Event) : (s.logEvent e).SoundBut ex :=
  h.of_same ⟨rfl, rfl, rfl, rfl, rfl, rfl, rfl, rfl, rfl, rfl, rfl, rfl, h.shape.pcLe, le_refl _⟩

theorem SoundBut.afterDraw {ex : Option Nat} (h : s.SoundBut ex) (r : Option Value) : (s.afterDraw r).SoundBut ex :=
  h.of_same ⟨rfl, rfl, rfl, rfl, rfl, rfl, rfl, rfl, rfl, rfl, rfl, rfl, h.shape.pcLe, le_refl _⟩

theorem SoundBut.storeValue {ex : Option Nat} (h : s.SoundBut ex) (a : Nat) (v : Value) :
    (s.storeValue a v).SoundBut ex :=
  h.of_same ⟨rfl, rfl, rfl, rfl, rfl, rfl, rfl, rfl, rfl, rfl, rfl, rfl, h.shape.pcLe, le_refl _⟩

theorem SoundBut.raiseFault {ex : Option Nat} (h : s.SoundBut ex) (code : FaultCode) (k i : Option Nat)
    (a : Option Int) : (s.raiseFault code k i a).SoundBut ex :=
  h.of_same ⟨rfl, rfl, rfl, rfl, rfl, rfl, rfl, rfl, rfl, rfl, rfl, rfl, h.shape.pcLe, le_refl _⟩

theorem SoundBut.stallIssue {ex : Option Nat} (h : s.SoundBut ex) (why : StallReason) : (s.stallIssue why).SoundBut ex :=
  h.of_same ⟨rfl, rfl, rfl, rfl, rfl, rfl, rfl, rfl, rfl, rfl, rfl, rfl, h.shape.pcLe, le_refl _⟩

theorem SoundBut.waits {ex : Option Nat} (h : s.SoundBut ex) (sid : Nat) (st : Station) : (s.waits sid st).SoundBut ex :=
  h.of_same ⟨rfl, rfl, rfl, rfl, rfl, rfl, rfl, rfl, rfl, rfl, rfl, rfl, h.shape.pcLe, le_refl _⟩

theorem SoundBut.setBus {ex : Option Nat} (h : s.SoundBut ex) (b : Option Nat) : (s.setBus b).SoundBut ex :=
  h.of_same ⟨rfl, rfl, rfl, rfl, rfl, rfl, rfl, rfl, rfl, rfl, rfl, rfl, h.shape.pcLe, le_refl _⟩

theorem SoundBut.timeout {ex : Option Nat} (h : s.SoundBut ex) (why : TimeoutReason) (i : Option Nat) :
    (s.timeout why i).SoundBut ex :=
  h.of_same ⟨rfl, rfl, rfl, rfl, rfl, rfl, rfl, rfl, rfl, rfl, rfl, rfl, h.shape.pcLe, le_refl _⟩

theorem SoundBut.endTick {ex : Option Nat} (h : s.SoundBut ex) : s.endTick.SoundBut ex := by
  unfold State.endTick
  split
  · exact h.of_same ⟨rfl, rfl, rfl, rfl, rfl, rfl, rfl, rfl, rfl, rfl, rfl, rfl, h.shape.pcLe, le_refl _⟩
  · exact h.of_same ⟨rfl, rfl, rfl, rfl, rfl, rfl, rfl, rfl, rfl, rfl, rfl, rfl, h.shape.pcLe, Nat.le_succ _⟩

/-! ## Issue -/


end State

end Sys2Proof.Machine
end

