-- ==== Sys2Proof/Laws/IssueLaws.lean ====
section
/-! SUPPORT. What an issue can do (40_rename_issue.md R96), and that it keeps the state consistent. -/

namespace Sys2Proof.Machine

/-! ## Small facts about instructions and lists -/

theorem freeStations_cls (c : Config) (e : StationEntry) (h : e ∈ freeStations c) : e.body = none := by
  simp only [freeStations, poolEntries, List.mem_append, List.mem_map] at h
  rcases h with ((⟨_, _, rfl⟩ | ⟨_, _, rfl⟩) | ⟨_, _, rfl⟩) | ⟨_, _, rfl⟩ <;> rfl

theorem Instr.dst_lt {narch : Nat} {i : Instr} (h : i.wf narch = true) {d : Nat} (hd : i.dst = some d) : d < narch := by
  cases i <;> simp_all [Instr.wf, Instr.dst]

theorem Instr.imm_inRange {narch : Nat} {i : Instr} (h : i.wf narch = true) : immInRange i.imm = true := by
  cases i <;> simp_all [Instr.wf, Instr.imm, immInRange]

theorem Instr.target_ok {narch : Nat} {i : Instr} (h : i.wf narch = true) (ho : i.opcode = Opcode.beqz) : 1 ≤ i.imm := by
  cases i <;> simp_all [Instr.wf, Instr.imm, Instr.opcode]

theorem Config.lat_pos {c : Config} (h : c.wf = true) (op : Opcode) : 1 ≤ c.lat op := by
  simp only [Config.wf, Bool.and_eq_true, decide_eq_true_eq] at h
  cases op <;> simp only [Config.lat] <;> omega

theorem Config.nrob_pos {c : Config} (h : c.wf = true) : 1 ≤ c.nrob := by
  simp only [Config.wf, Bool.and_eq_true, decide_eq_true_eq] at h
  omega

namespace State

variable {s : State}

/-- The three ways an issue ends (40_rename_issue.md R82, R96). -/
theorem issueInstr_cases (i : Instr) (s : State) :
    (∃ why, issueInstr i s = s.stallIssue why) ∨
    (∃ sid n rest, s.slotAt s.tail = none ∧ s.freeStation i.cls = some sid ∧ s.freeList = n :: rest ∧
      issueInstr i s = s.issued i sid n rest) := by
  unfold issueInstr
  split
  · exact .inl ⟨_, rfl⟩
  · split
    · exact .inl ⟨_, rfl⟩
    · split
      · exact .inl ⟨_, rfl⟩
      · exact .inr ⟨_, _, _, ‹_›, ‹_›, ‹_›, rfl⟩

theorem seededPhys_length (i : Instr) (n : Nat) : (s.seededPhys i n).length = s.p.length := by
  unfold seededPhys; split <;> simp

theorem renamedMap_length (i : Instr) (n : Nat) : (s.renamedMap i n).length = s.renameMap.length := by
  unfold renamedMap; split <;> simp

theorem reissued_length : s.reissued.length = s.reissue.length := by
  unfold reissued; split <;> simp

/-- A pending operand's value is 0.0 (40_rename_issue.md R84). -/
theorem operand_zero (src : Option Nat) (h : (s.operand src).q ≠ none) : (s.operand src).v = F32.posZero := by
  unfold operand at *
  split at h
  · unfold resolve at *
    split at h
    · simp at h
    · split at h
      · simp at h
      · rename_i hr
        rw [if_neg hr]
  · simp at h

/-- An issue at a free tail slot keeps the state consistent. -/
theorem Consistent.issued (h : s.Consistent) {i : Instr} {sid n : Nat} {rest : List Nat} (hi : s.prog[s.pc]? = some i)
    (ht : s.slotAt s.tail = none) (hf : s.freeStation i.cls = some sid) (hn : s.freeList = n :: rest) :
    (s.issued i sid n rest).Consistent := by
  have hS := h.soundBut none
  have hsh := h.shape
  have hwf : i.wf s.cfg.narch = true := hsh.progWf i (List.mem_of_getElem? hi)
  have hpc : s.pc < s.prog.length := (List.getElem?_eq_some_iff.1 hi).1
  have htl : s.tail < s.rob.length := by rw [hsh.robLen]; exact hsh.tailLt
  have htn : s.rob[s.tail]? = some none := by
    have := ht
    unfold slotAt at this
    rw [List.getElem?_eq_getElem htl] at this ⊢
    simpa using this
  obtain ⟨hsid, hsn, hcls⟩ := freeStation_some hf
  have hslot : ∀ k, (s.issued i sid n rest).slotAt k = if k = s.tail then some (s.issuedSlot i n) else s.slotAt k :=
    slotAt_of_rob_set rfl htl
  have hst : ∀ j, (s.issued i sid n rest).stationAt j = if j = sid then some (s.issuedStation i n) else s.stationAt j :=
    stationAt_of_setBody rfl hsid
  have hname : ∀ j, (s.issued i sid n rest).stationName j = s.stationName j := stationName_of_setBody rfl
  have hnew : n ∉ s.ownedNames := hS.free_not_owned (by simp [hn])
  have hkeep : ∀ {k sl}, s.slotAt k = some sl → (s.issued i sid n rest).slotAt k = some sl := by
    intro k sl hk
    rw [hslot, if_neg (by rintro rfl; rw [ht] at hk; cases hk)]
    exact hk
  refine ⟨?_, ?_, ?_, ?_, ?_, ?_, ?_⟩
  · obtain ⟨h1, h2, h3, h4, h5, h6, h7, h8, h9, h10, h11, h12, h13, h14⟩ := hsh
    refine ⟨h1, h2, h3, by simpa using h4, ?_, h6, ?_, ?_, by simpa using h9, ?_, h11, ?_, ?_, h14⟩
    · rw [issued_reissue, reissued_length]; exact h5
    · rw [issued_p, seededPhys_length]; exact h7
    · rw [issued_renameMap, renamedMap_length]; exact h8
    · rw [issued_rs, setBody_names]; exact h10
    · exact Nat.mod_lt _ (Config.nrob_pos h1)
    · simp only [issued_pc]; omega
  · intro k sl hk
    rw [hslot] at hk
    split at hk
    · obtain rfl := Option.some.inj hk
      refine ⟨hpc, fun r hr => Instr.dst_lt hwf hr, le_refl _, hsh.cyclePos, by simp [issuedSlot], fun _ => rfl, rfl⟩
    · exact (h.slotsOk k sl hk).of_frame rfl rfl (le_refl _)
  · intro j st hj
    rw [hst] at hj
    rw [hname]
    split at hj
    · rename_i e
      subst e
      obtain rfl := Option.some.inj hj
      refine ⟨hcls, le_refl _, ?_, operand_zero _, operand_zero _, Instr.imm_inRange hwf, Instr.target_ok hwf⟩
      intro h0
      have := Config.lat_pos hsh.cfgWf i.opcode
      simp only [issuedStation] at h0
      omega
    · exact (h.stationsOk j st hj).of_frame rfl
  · have h1 := h.namesOnce
    unfold NamesOnce at *
    rw [hn] at h1
    refine List.Perm.trans ?_ h1
    have h2 : (s.issued i sid n rest).ownedNames.Perm (n :: s.ownedNames) := by
      unfold ownedNames
      exact filterMap_set_fill htn
    simp only [issued_freeList]
    refine (List.Perm.append_left rest h2).trans ?_
    rw [List.cons_append]
    exact List.perm_middle
  · intro j st hj
    rw [hst] at hj
    split at hj
    · obtain rfl := Option.some.inj hj
      exact ⟨s.tail, s.issuedSlot i n, by rw [hslot, if_pos rfl], rfl, rfl⟩
    · obtain ⟨k, sl, h1, h2, h3⟩ := h.links j st hj
      exact ⟨k, sl, hkeep h1, h2, h3⟩
  · have fresh : ∀ j st, s.stationAt j = some st → st.dest ≠ n := by
      intro j st hj e
      obtain ⟨k, sl, h1, h2, -⟩ := h.links j st hj
      exact hnew (mem_ownedNames.2 ⟨k, sl, h1, by rw [h2, e]⟩)
    intro a b sa sb ha hb e
    rw [hst] at ha hb
    split at ha <;> split at hb
    · subst_vars; rfl
    · obtain rfl := Option.some.inj ha
      exact absurd e.symm (fresh b sb hb)
    · obtain rfl := Option.some.inj hb
      exact absurd e (fresh a sa ha)
    · exact h.distinct a b sa sb ha hb e
  · intro r m hm
    have old : s.renameMap[r]? = some (some m) →
        ∃ k sl, (s.issued i sid n rest).slotAt k = some sl ∧ sl.renamedReg = m ∧ sl.publicReg = some r := by
      intro ho
      obtain ⟨k, sl, h1, h2⟩ := h.mapLive r m ho
      exact ⟨k, sl, hkeep h1, h2⟩
    rw [issued_renameMap] at hm
    unfold renamedMap at hm
    cases hd : i.dst with
    | none => rw [hd] at hm; exact old hm
    | some d =>
      rw [hd] at hm
      simp only [List.getElem?_set] at hm
      split at hm
      · rename_i e
        subst e
        split at hm
        · obtain rfl : n = m := by simpa using hm
          exact ⟨s.tail, s.issuedSlot i n, by rw [hslot, if_pos rfl], rfl, hd⟩
        · simp at hm
      · exact old hm

/-- The issue of the instruction at `pc` keeps the state consistent, whether it stalls or not. -/
theorem Consistent.issueInstr (h : s.Consistent) {i : Instr} (hi : s.prog[s.pc]? = some i) :
    (issueInstr i s).Consistent := by
  rcases issueInstr_cases i s with ⟨why, e⟩ | ⟨sid, n, rest, ht, hf, hn, e⟩
  · rw [e]; exact ((h.soundBut none).stallIssue why).consistent
  · rw [e]; exact h.issued hi ht hf hn

end State

end Sys2Proof.Machine
end

