-- ==== Sys2Proof/Laws/WriteLaws.lean ====
section
/-! SUPPORT. What a candidate's write-result can do (42_write_result.md R112 to R123), and that it keeps the state consistent. -/

namespace Sys2Proof.Machine

/-- A successful opcode rule changes only the memory and the count of draws (42_write_result.md R113). -/
structure RuleFrame (s t : State) : Prop where
  same : t = { s with mem := t.mem, draws := t.draws }

/-- A rule whose every success changes only memory and draws. -/
def OpcodeRule.Framed (rule : OpcodeRule) : Prop :=
  ∀ st s v taken t, rule st s = .done v taken t → RuleFrame s t

theorem deliver_dest (q : Nat) (v : Value) (st : Station) : (deliver q v st).dest = st.dest := rfl

theorem deliver_ok {s t : State} {name : StationName} {q : Nat} {v : Value} {st : Station} (hc : t.cfg = s.cfg)
    (h : StationOk s name st) : StationOk t name (deliver q v st) := by
  obtain ⟨a1, a2, a3, a4, a5, a6, a7⟩ := h
  refine ⟨a1, by rw [hc]; exact a2, ?_, ?_, ?_, a6, a7⟩
  · intro h0
    obtain ⟨hj, hk⟩ := a3 h0
    simp [deliver, hj, hk]
  · intro hq
    simp only [deliver] at *
    split at hq
    · exact absurd rfl hq
    · rename_i hne
      rw [if_neg hne]
      exact a4 hq
  · intro hq
    simp only [deliver] at *
    split at hq
    · exact absurd rfl hq
    · rename_i hne
      rw [if_neg hne]
      exact a5 hq

theorem busySlotsFrom_fst (k0 : Nat) (l : List (Option Slot)) : ((busySlotsFrom k0 l).map Prod.fst).Pairwise (· < ·) ∧
    ∀ x ∈ (busySlotsFrom k0 l).map Prod.fst, k0 ≤ x := by
  induction l generalizing k0 with
  | nil => simp [busySlotsFrom]
  | cons o l ih =>
    obtain ⟨h1, h2⟩ := ih (k0 + 1)
    cases o with
    | none => exact ⟨h1, fun x hx => Nat.le_of_succ_le (h2 x hx)⟩
    | some b =>
      refine ⟨List.pairwise_cons.2 ⟨fun x hx => h2 x hx, h1⟩, ?_⟩
      intro x hx
      rcases List.mem_cons.1 hx with rfl | hx
      · exact le_refl _
      · exact Nat.le_of_succ_le (h2 x hx)

namespace State

variable {s t : State}

/-- The victims of a flush: the other busy slots that are not older than the branch (42_write_result.md R119). -/
theorem mem_victims {k c j : Nat} {sl : Slot} :
    (j, sl) ∈ s.victims k c ↔ s.slotAt j = some sl ∧ j ≠ k ∧ c ≤ sl.issueCycle := by
  unfold victims
  rw [List.mem_insertionSort, List.mem_filter, mem_busySlots]
  simp

theorem victims_nodup (k c : Nat) : ((s.victims k c).map Prod.fst).Nodup := by
  unfold victims
  refine (List.Perm.nodup_iff ((List.perm_insertionSort _ _).map _)).2 ?_
  refine List.Nodup.sublist (List.Sublist.map _ List.filter_sublist) ?_
  exact (busySlotsFrom_fst 0 s.rob).1.imp (fun h => Nat.ne_of_lt h)

/-! ## Recording and broadcasting -/

theorem published_slotAt {k : Nat} {sl : Slot} (v : Value) (hk : s.slotAt k = some sl) (k' : Nat) :
    ((s.recordResult k sl v).broadcast sl.renamedReg v).slotAt k' =
      if k' = k then some { sl with
        result := v, ready := true, state := .resultWritten, writeCycle := s.currentCycle } else s.slotAt k' :=
  slotAt_of_rob_set rfl (slotAt_lt hk) k'

theorem published_stationAt (k : Nat) (sl : Slot) (v : Value) (j : Nat) :
    ((s.recordResult k sl v).broadcast sl.renamedReg v).stationAt j = (s.stationAt j).map (deliver sl.renamedReg v) :=
  stationAt_of_mapBody rfl j

theorem published_stationName (k : Nat) (sl : Slot) (v : Value) (j : Nat) :
    ((s.recordResult k sl v).broadcast sl.renamedReg v).stationName j = s.stationName j :=
  stationName_of_map (f := fun e => { e with body := e.body.map (deliver sl.renamedReg v) }) (fun _ => rfl) rfl j

/-- Recording and broadcasting the result of the station at `sid` keeps the state sound but for that station's link. -/
theorem Consistent.published (h : s.Consistent) {sid k : Nat} {st : Station} {sl : Slot} (v : Value)
    (hst : s.stationAt sid = some st) (hk : s.slotAt k = some sl) (hd : sl.renamedReg = st.dest) :
    ((s.recordResult k sl v).broadcast sl.renamedReg v).SoundBut (some sid) := by
  have hS := h.soundBut none
  have hslot := published_slotAt v hk
  have hsta := published_stationAt (s := s) k sl v
  have hname := published_stationName (s := s) k sl v
  refine ⟨?_, ?_, ?_, ?_, ?_, ?_, ?_⟩
  · obtain ⟨h1, h2, h3, h4, h5, h6, h7, h8, h9, h10, h11, h12, h13, h14⟩ := h.shape
    refine ⟨h1, h2, h3, by simpa using h4, h5, h6, by simpa using h7, h8, by simpa using h9, ?_, h11, h12, h13, h14⟩
    simp only [broadcast_rs, recordResult_rs, List.map_map]
    exact h10
  · intro k' sl' hk'
    rw [hslot] at hk'
    split at hk'
    · obtain rfl := Option.some.inj hk'
      obtain ⟨a1, a2, a3, a4, a5, a6, a7⟩ := h.slotsOk k sl hk
      exact ⟨a1, a2, a3, a4, by simp, by simp, a7⟩
    · exact (h.slotsOk k' sl' hk').of_frame rfl rfl (le_refl _)
  · intro j st' hj
    rw [hsta] at hj
    rw [hname]
    obtain ⟨st0, h0, rfl⟩ := Option.map_eq_some_iff.1 hj
    exact deliver_ok (s := s) rfl (h.stationsOk j st0 h0)
  · have := h.namesOnce
    unfold NamesOnce ownedNames at *
    simp only [broadcast_freeList, recordResult_freeList, broadcast_rob, recordResult_rob, broadcast_cfg, recordResult_cfg]
    rw [filterMap_set_same (slotAt_some.1 hk) (by rfl)]
    exact this
  · intro j st' hne hj
    rw [hsta] at hj
    obtain ⟨st0, h0, rfl⟩ := Option.map_eq_some_iff.1 hj
    obtain ⟨k0, sl0, b1, b2, b3⟩ := h.links j st0 h0
    have hkne : k0 ≠ k := by
      rintro rfl
      rw [hk] at b1
      obtain rfl := Option.some.inj b1
      exact hne (by rw [h.distinct j sid st0 st h0 hst (by rw [← b2, hd])])
    exact ⟨k0, sl0, by rw [hslot, if_neg hkne]; exact b1, b2, b3⟩
  · intro a b sa sb ha hb e
    rw [hsta] at ha hb
    obtain ⟨sa0, ha0, rfl⟩ := Option.map_eq_some_iff.1 ha
    obtain ⟨sb0, hb0, rfl⟩ := Option.map_eq_some_iff.1 hb
    exact h.distinct a b sa0 sb0 ha0 hb0 e
  · intro r n hm
    obtain ⟨k0, sl0, b1, b2, b3⟩ := h.mapLive r n hm
    by_cases e : k0 = k
    · subst e
      rw [hk] at b1
      obtain rfl := Option.some.inj b1
      exact ⟨k0, _, (hslot k0).trans (if_pos rfl), b2, b3⟩
    · exact ⟨k0, sl0, by rw [hslot, if_neg e]; exact b1, b2, b3⟩

/-! ## Cancelling victims -/

theorem unrenamed_length (reg : Option Nat) (n : Nat) : (s.unrenamed reg n).length = s.renameMap.length := by
  unfold unrenamed; split
  · split <;> simp
  · rfl

/-- The rename map after a slot's entry was removed holds only old entries, none of them the slot's. -/
theorem unrenamed_some {reg : Option Nat} {n r m : Nat} (h : (s.unrenamed reg n)[r]? = some (some m)) :
    s.renameMap[r]? = some (some m) ∧ (reg = some r → m ≠ n) := by
  unfold unrenamed at h
  split at h
  · rename_i r'
    split at h
    · rename_i hmap
      rw [List.getElem?_set] at h
      split at h
      · split at h <;> simp at h
      · rename_i hne
        exact ⟨h, fun e => absurd (Option.some.inj e) hne⟩
    · rename_i hmap
      refine ⟨h, ?_⟩
      intro e hmn
      obtain rfl := Option.some.inj e
      subst hmn
      exact hmap h
  · exact ⟨h, fun e => by cases e⟩

theorem cancel_slotAt {j : Nat} {sl : Slot} (hj : s.slotAt j = some sl) (k k' : Nat) :
    (s.cancel k (j, sl)).slotAt k' = if k' = j then none else s.slotAt k' :=
  slotAt_of_rob_set rfl (slotAt_lt hj) k'

theorem cancel_stationAt (k : Nat) (vic : Nat × Slot) (a : Nat) :
    (s.cancel k vic).stationAt a = (s.stationAt a).filter (fun st => decide (st.dest ≠ vic.2.renamedReg)) :=
  stationAt_of_clearDest rfl a

theorem cancel_stationName (k : Nat) (vic : Nat × Slot) (a : Nat) : (s.cancel k vic).stationName a = s.stationName a :=
  stationName_of_map (clearIfDest_name _) rfl a

/-- A cleared slot, with its name back in the free list and its stations cleared, leaves a sound state sound. -/
theorem SoundBut.cancel {ex : Option Nat} (h : s.SoundBut ex) (k : Nat) {j : Nat} {sl : Slot}
    (hj : s.slotAt j = some sl) : (s.cancel k (j, sl)).SoundBut ex := by
  have hslot := cancel_slotAt hj k
  have hsta := cancel_stationAt (s := s) k (j, sl)
  have hname := cancel_stationName (s := s) k (j, sl)
  have old : ∀ {a st}, (s.cancel k (j, sl)).stationAt a = some st → s.stationAt a = some st ∧ st.dest ≠ sl.renamedReg := by
    intro a st ha
    rw [hsta, Option.filter_eq_some_iff] at ha
    exact ⟨ha.1, by simpa using ha.2⟩
  refine ⟨?_, ?_, ?_, ?_, ?_, ?_, ?_⟩
  · obtain ⟨h1, h2, h3, h4, h5, h6, h7, h8, h9, h10, h11, h12, h13, h14⟩ := h.shape
    refine ⟨h1, h2, h3, by simpa using h4, h5, h6, h7, ?_, by simpa using h9, ?_, h11, h12, h13, h14⟩
    · rw [cancel_renameMap, unrenamed_length]; exact h8
    · rw [cancel_rs, List.map_map]
      rw [show StationEntry.name ∘ clearIfDest (j, sl).2.renamedReg = StationEntry.name from
        funext (fun e => clearIfDest_name _ e)]
      exact h10
  · intro k' sl' hk'
    rw [hslot] at hk'
    split at hk'
    · cases hk'
    · exact (h.slotsOk k' sl' hk').of_frame rfl rfl (le_refl _)
  · intro a st ha
    rw [hname]
    exact (h.stationsOk a st (old ha).1).of_frame rfl
  · have h1 := h.namesOnce
    unfold NamesOnce at *
    refine List.Perm.trans ?_ h1
    have h2 : s.ownedNames.Perm (sl.renamedReg :: (s.cancel k (j, sl)).ownedNames) := by
      unfold ownedNames
      exact filterMap_set_clear (slotAt_some.1 hj)
    simp only [cancel_freeList, List.append_assoc, List.singleton_append]
    exact List.Perm.append_left _ h2.symm
  · intro a st hne ha
    obtain ⟨ha', hd⟩ := old ha
    obtain ⟨k0, sl0, b1, b2, b3⟩ := h.links a st hne ha'
    refine ⟨k0, sl0, ?_, b2, b3⟩
    rw [hslot, if_neg]
    · exact b1
    · rintro rfl
      rw [hj] at b1
      obtain rfl := Option.some.inj b1
      exact hd b2.symm
  · intro a b sa sb ha hb e
    exact h.distinct a b sa sb (old ha).1 (old hb).1 e
  · intro r n hm
    rw [cancel_renameMap] at hm
    obtain ⟨hm', hno⟩ := unrenamed_some hm
    obtain ⟨k0, sl0, b1, b2, b3⟩ := h.mapLive r n hm'
    refine ⟨k0, sl0, ?_, b2, b3⟩
    rw [hslot, if_neg]
    · exact b1
    · rintro rfl
      rw [hj] at b1
      obtain rfl := Option.some.inj b1
      exact hno b3 b2.symm

/-- Cancelling a list of victims, each a different busy slot. -/
theorem SoundBut.cancelAll {ex : Option Nat} (k : Nat) (l : List (Nat × Slot)) {s : State} (h : s.SoundBut ex)
    (hn : (l.map Prod.fst).Nodup) (hl : ∀ js ∈ l, s.slotAt js.1 = some js.2) :
    (l.foldl (fun t js => t.cancel k js) s).SoundBut ex := by
  induction l generalizing s with
  | nil => exact h
  | cons js l ih =>
    rw [List.map_cons, List.nodup_cons] at hn
    have h1 := hl js (by simp)
    refine ih (h.cancel k h1) hn.2 ?_
    intro ks hks
    rw [cancel_slotAt h1, if_neg]
    · exact hl ks (by simp [hks])
    · intro e
      exact hn.1 (e ▸ List.mem_map.2 ⟨ks, hks, rfl⟩)

/-- What cancelling a list of victims leaves of the ROB: the victims' slots are free, the others as they were. -/
theorem cancelAll_slotAt (k : Nat) (l : List (Nat × Slot)) {s : State} (hn : (l.map Prod.fst).Nodup)
    (hl : ∀ js ∈ l, s.slotAt js.1 = some js.2) (k' : Nat) :
    (l.foldl (fun t js => t.cancel k js) s).slotAt k' = if k' ∈ l.map Prod.fst then none else s.slotAt k' := by
  induction l generalizing s with
  | nil => simp
  | cons js l ih =>
    rw [List.map_cons, List.nodup_cons] at hn
    have h1 := hl js (by simp)
    have hl' : ∀ ks ∈ l, (s.cancel k js).slotAt ks.1 = some ks.2 := by
      intro ks hks
      rw [cancel_slotAt h1, if_neg]
      · exact hl ks (by simp [hks])
      · intro e
        exact hn.1 (e ▸ List.mem_map.2 ⟨ks, hks, rfl⟩)
    rw [List.foldl_cons, ih hn.2 hl', cancel_slotAt h1]
    by_cases e : k' = js.1
    · subst e; simp
    · simp only [List.map_cons, List.mem_cons, e, false_or, if_false]

/-- What cancelling changes of a station: it is cleared when its name is a victim's. -/
theorem cancelAll_stationAt (k : Nat) (l : List (Nat × Slot)) (s : State) (a : Nat) :
    (l.foldl (fun t js => t.cancel k js) s).stationAt a =
      (s.stationAt a).filter (fun st => decide (st.dest ∉ l.map (fun js => js.2.renamedReg))) := by
  induction l generalizing s with
  | nil =>
    simp only [List.foldl_nil, List.map_nil, List.not_mem_nil, not_false_eq_true, decide_true]
    cases s.stationAt a <;> rfl
  | cons js l ih =>
    rw [List.foldl_cons, ih, cancel_stationAt]
    cases s.stationAt a with
    | none => rfl
    | some st =>
      by_cases e : st.dest = js.2.renamedReg
      · simp [Option.filter, e]
      · simp only [Option.filter, e, List.map_cons, List.mem_cons, false_or, ne_eq, not_false_eq_true, decide_true,
          if_true]

/-- The fields that cancelling a list of victims leaves alone. -/
theorem cancelAll_frame (k : Nat) (l : List (Nat × Slot)) (s : State) :
    let t := l.foldl (fun t js => t.cancel k js) s
    t.cfg = s.cfg ∧ t.prog = s.prog ∧ t.reissue = s.reissue ∧ t.pc = s.pc ∧ t.x = s.x ∧ t.p = s.p ∧ t.head = s.head ∧
      t.tail = s.tail ∧ t.mem = s.mem ∧ t.currentCycle = s.currentCycle ∧ t.totalCycles = s.totalCycles ∧
      t.bubbleCount = s.bubbleCount ∧ t.committedCount = s.committedCount ∧ t.complete = s.complete ∧
      t.timedOut = s.timedOut ∧ t.faultRec = s.faultRec ∧ t.draws = s.draws ∧ t.onBus = s.onBus := by
  induction l generalizing s with
  | nil => simp
  | cons js l ih => simpa using ih (s.cancel k js)

/-- The free list and the log after cancelling: each victim's name and Flush event, in the order of the list. -/
theorem cancelAll_freeList (k : Nat) (l : List (Nat × Slot)) (s : State) :
    (l.foldl (fun t js => t.cancel k js) s).freeList = s.freeList ++ l.map (fun js => js.2.renamedReg) := by
  induction l generalizing s with
  | nil => simp
  | cons js l ih => simp [ih]

theorem cancelAll_log (k : Nat) (l : List (Nat × Slot)) (s : State) :
    (l.foldl (fun t js => t.cancel k js) s).log =
      s.log ++ l.map (fun js => Event.flush s.currentCycle k js.1) := by
  induction l generalizing s with
  | nil => simp
  | cons js l ih => simp [ih]

theorem cancelAll_stationName (k : Nat) (l : List (Nat × Slot)) (s : State) (a : Nat) :
    (l.foldl (fun t js => t.cancel k js) s).stationName a = s.stationName a := by
  induction l generalizing s with
  | nil => rfl
  | cons js l ih => rw [List.foldl_cons, ih, cancel_stationName]

theorem SoundBut.victims_ok {ex : Option Nat} (_ : s.SoundBut ex) (k c : Nat) :
    ((s.victims k c).map Prod.fst).Nodup ∧ ∀ js ∈ s.victims k c, s.slotAt js.1 = some js.2 :=
  ⟨victims_nodup k c, fun _ hjs => (mem_victims.1 hjs).1⟩

/-- A flush with its redirect leaves a sound state sound. -/
theorem SoundBut.flushAndRedirect {ex : Option Nat} (h : s.SoundBut ex) (k c : Nat) {imm : Int}
    (hi : immInRange imm = true) : (s.flushAndRedirect k c imm).SoundBut ex := by
  obtain ⟨hn, hl⟩ := h.victims_ok k c
  have h1 := SoundBut.cancelAll k (s.victims k c) h hn hl
  have hf := cancelAll_frame k (s.victims k c) s
  refine ⟨?_, fun j sl hj => (h1.slotsOk j sl hj).of_frame rfl rfl (le_refl _),
    fun j st hj => (h1.stationsOk j st hj).of_frame rfl, h1.namesOnce, h1.links, h1.distinct, h1.mapLive⟩
  obtain ⟨a1, a2, a3, a4, a5, a6, a7, a8, a9, a10, a11, a12, a13, a14⟩ := h1.shape
  refine ⟨a1, a2, a3, a4, a5, a6, a7, a8, a9, a10, a11, ?_, ?_, a14⟩
  · show (k + 1) % s.cfg.nrob < (List.foldl _ s _).cfg.nrob
    rw [hf.1]
    exact Nat.mod_lt _ (by
      have := h.shape.headLt
      omega)
  · show (imm - 1).toNat ≤ 2147483647
    simp only [immInRange, Bool.and_eq_true, decide_eq_true_eq] at hi
    omega

/-- Clearing the excepted station closes the gap in the links. -/
theorem SoundBut.clearStation {sid : Nat} (h : s.SoundBut (some sid)) (hs : sid < s.rs.length) :
    (s.clearStation sid).Consistent := by
  have hsta : ∀ j, (s.clearStation sid).stationAt j = if j = sid then none else s.stationAt j :=
    stationAt_of_setBody rfl hs
  have hname : ∀ j, (s.clearStation sid).stationName j = s.stationName j := stationName_of_setBody rfl
  have old : ∀ {a st}, (s.clearStation sid).stationAt a = some st → s.stationAt a = some st ∧ a ≠ sid := by
    intro a st ha
    rw [hsta] at ha
    split at ha
    · cases ha
    · exact ⟨ha, ‹_›⟩
  refine ⟨?_, ?_, ?_, h.namesOnce, ?_, ?_, h.mapLive⟩
  · obtain ⟨a1, a2, a3, a4, a5, a6, a7, a8, a9, a10, a11, a12, a13, a14⟩ := h.shape
    exact ⟨a1, a2, a3, a4, a5, a6, a7, a8, a9, by rw [clearStation_rs, setBody_names]; exact a10, a11, a12, a13, a14⟩
  · intro k sl hk
    exact (h.slotsOk k sl hk).of_frame rfl rfl (le_refl _)
  · intro j st hj
    rw [hname]
    exact (h.stationsOk j st (old hj).1).of_frame rfl
  · intro j st hj
    obtain ⟨hj', hne⟩ := old hj
    exact h.links j st (by simpa using hne) hj'
  · intro a b sa sb ha hb e
    exact h.distinct a b sa sb (old ha).1 (old hb).1 e

theorem flushAndRedirect_rsLength (k c : Nat) (imm : Int) : (s.flushAndRedirect k c imm).rs.length = s.rs.length := by
  unfold State.flushAndRedirect
  dsimp only
  generalize s.victims k c = l
  induction l generalizing s with
  | nil => rfl
  | cons js l ih => rw [List.foldl_cons, ih]; simp

/-- A candidate's write-result keeps the state consistent. -/
theorem Consistent.finishWrite (h : s.Consistent) {sid k : Nat} {st : Station} {sl : Slot} (v : Value) (taken : Bool)
    (hst : s.stationAt sid = some st) (hk : s.slotAt k = some sl) (hd : sl.renamedReg = st.dest) :
    (s.finishWrite sid k sl st.imm v taken).Consistent := by
  have h1 := h.published v hst hk hd
  have himm := (h.stationsOk sid st hst).immOk
  have hlen : sid < ((s.recordResult k sl v).broadcast sl.renamedReg v).rs.length := by
    simpa using stationAt_lt hst
  unfold State.finishWrite
  dsimp only
  cases taken with
  | false => exact h1.clearStation hlen
  | true =>
    refine (h1.flushAndRedirect k sl.issueCycle himm).clearStation ?_
    rw [flushAndRedirect_rsLength]
    exact hlen

theorem sameCore_of_ruleFrame (h : RuleFrame s t) (hp : s.pc ≤ 2147483647) : SameCore s t := by
  have e := h.same
  refine ⟨?_, ?_, ?_, ?_, ?_, ?_, ?_, ?_, ?_, ?_, ?_, ?_, ?_, ?_⟩ <;> rw [e]
  exact hp

/-- The four ways a candidate's write-result ends (42_write_result.md R112, R113). -/
theorem writeBack_cases (rule : OpcodeRule) (sid : Nat) (s : State) :
    (s.stationAt sid = none ∧ writeBack rule sid s = s) ∨
    (∃ st k i, s.stationAt sid = some st ∧
      (s.owner st.dest = none ∨ ∃ k' sl, s.owner st.dest = some (k', sl) ∧ sl.writeCycle = s.currentCycle) ∧
      writeBack rule sid s = s.raiseFault .invariantBroken k i none) ∨
    (∃ st k sl a, s.stationAt sid = some st ∧ s.owner st.dest = some (k, sl) ∧ sl.writeCycle ≠ s.currentCycle ∧
      rule st s = .badAddress a ∧ writeBack rule sid s = s.raiseFault .badAddress (some k) (some sl.instr) a) ∨
    (∃ st k sl v taken s', s.stationAt sid = some st ∧ s.owner st.dest = some (k, sl) ∧
      sl.writeCycle ≠ s.currentCycle ∧ rule st s = .done v taken s' ∧
      writeBack rule sid s = s'.finishWrite sid k sl st.imm v taken) := by
  unfold writeBack
  cases h1 : s.stationAt sid with
  | none => exact .inl ⟨rfl, rfl⟩
  | some st =>
    dsimp only
    cases h2 : s.owner st.dest with
    | none => exact .inr (.inl ⟨st, none, none, rfl, .inl h2, rfl⟩)
    | some ks =>
      obtain ⟨k, sl⟩ := ks
      dsimp only
      by_cases h3 : sl.writeCycle = s.currentCycle
      · rw [if_pos h3]
        exact .inr (.inl ⟨st, some k, some sl.instr, rfl, .inr ⟨k, sl, h2, h3⟩, rfl⟩)
      · rw [if_neg h3]
        cases h4 : rule st s with
        | badAddress a => exact .inr (.inr (.inl ⟨st, k, sl, a, rfl, h2, h3, h4, rfl⟩))
        | done v taken s' => exact .inr (.inr (.inr ⟨st, k, sl, v, taken, s', rfl, h2, h3, h4, rfl⟩))

/-- The write-result of any station keeps the state consistent, for any rule with the rules' frame. -/
theorem Consistent.writeBack (h : s.Consistent) {rule : OpcodeRule} (hr : rule.Framed) (sid : Nat) :
    (writeBack rule sid s).Consistent := by
  rcases writeBack_cases rule sid s with ⟨-, e⟩ | ⟨st, k, i, -, -, e⟩ | ⟨st, k, sl, a, -, -, -, -, e⟩ |
    ⟨st, k, sl, v, taken, s', hst, ho, -, hd, e⟩
  · rw [e]; exact h
  · rw [e]; exact ((h.soundBut none).raiseFault _ _ _ _).consistent
  · rw [e]; exact ((h.soundBut none).raiseFault _ _ _ _).consistent
  · rw [e]
    have hf := hr st s v taken s' hd
    have h' := h.of_same (sameCore_of_ruleFrame hf h.shape.pcLe)
    obtain ⟨hk, hn⟩ := owner_some ho
    refine h'.finishWrite v taken ?_ ?_ hn
    · rw [stationAt_of_rs_eq (by rw [hf.same])]; exact hst
    · rw [slotAt_of_rob_eq (by rw [hf.same])]; exact hk

end State

end Sys2Proof.Machine
end

