-- ==== Sys2Proof/Laws/PhaseLaws.lean ====
section
/-! SUPPORT. What the execute phase, the commit phase and the instructions can do, and that each keeps the state consistent. -/

namespace Sys2Proof.Machine

namespace State

variable {s t : State}

/-! ## Execute -/

theorem executed_slotAt (sid : Nat) (st : Station) {k : Nat} {sl : Slot} (hk : s.slotAt k = some sl) (k' : Nat) :
    (s.executed sid st k sl).slotAt k' =
      if k' = k then some { sl with
        state := if decide (st.cyclesRemaining = 1) then .executed
          else if decide (sl.state = SlotState.processing) then .executing else sl.state
        execCycle := if decide (sl.state = SlotState.processing) then s.currentCycle else sl.execCycle }
      else s.slotAt k' :=
  slotAt_of_rob_set rfl (slotAt_lt hk) k'

theorem executed_stationAt {sid : Nat} {st : Station} (hs : s.stationAt sid = some st) (k : Nat) (sl : Slot) (j : Nat) :
    (s.executed sid st k sl).stationAt j =
      if j = sid then some { st with cyclesRemaining := st.cyclesRemaining - 1 } else s.stationAt j :=
  stationAt_of_setBody rfl (stationAt_lt hs) j

theorem executed_stationName (sid : Nat) (st : Station) (k : Nat) (sl : Slot) (j : Nat) :
    (s.executed sid st k sl).stationName j = s.stationName j := stationName_of_setBody rfl j

theorem executed_statusLen (sid : Nat) (st : Station) (k : Nat) (sl : Slot) :
    (s.executed sid st k sl).status.length = s.status.length := by
  unfold executed
  dsimp only
  split <;> simp

/-- One execute step of a ready, linked station keeps the state consistent. -/
theorem Consistent.executed (h : s.Consistent) {sid k : Nat} {st : Station} {sl : Slot}
    (hst : s.stationAt sid = some st) (hq : st.isReady = true) (hk : s.slotAt k = some sl)
    (hd : sl.renamedReg = st.dest) : (s.executed sid st k sl).Consistent := by
  have hS := h.soundBut none
  have hslot := executed_slotAt sid st hk
  have hsta := executed_stationAt hst k sl
  have hname := executed_stationName (s := s) sid st k sl
  have hunready : sl.ready = false := by
    obtain ⟨k0, sl0, b1, b2, b3⟩ := h.links sid st hst
    obtain ⟨rfl, rfl⟩ := hS.slot_unique b1 hk (by rw [b2, hd])
    exact b3
  have lift : ∀ {k0 sl0}, s.slotAt k0 = some sl0 → ∃ sl1, (s.executed sid st k sl).slotAt k0 = some sl1 ∧
      sl1.renamedReg = sl0.renamedReg ∧ sl1.ready = sl0.ready ∧ sl1.publicReg = sl0.publicReg := by
    intro k0 sl0 h0
    by_cases e : k0 = k
    · subst e
      rw [hk] at h0
      obtain rfl := Option.some.inj h0
      exact ⟨_, (hslot k0).trans (if_pos rfl), rfl, rfl, rfl⟩
    · exact ⟨sl0, by rw [hslot, if_neg e]; exact h0, rfl, rfl, rfl⟩
  refine ⟨?_, ?_, ?_, ?_, ?_, ?_, ?_⟩
  · obtain ⟨h1, h2, h3, h4, h5, h6, h7, h8, h9, h10, h11, h12, h13, h14⟩ := h.shape
    refine ⟨h1, h2, h3, ?_, h5, h6, h7, h8, ?_, ?_, h11, h12, h13, h14⟩
    · rw [executed_statusLen]; exact h4
    · show (s.rob.set k _).length = s.cfg.nrob
      rw [List.length_set]; exact h9
    · rw [executed_rs, setBody_names]; exact h10
  · intro k' sl' hk'
    rw [hslot] at hk'
    split at hk'
    · obtain rfl := Option.some.inj hk'
      obtain ⟨a1, a2, a3, a4, a5, a6, a7⟩ := h.slotsOk k sl hk
      refine ⟨a1, a2, a3, a4, ?_, a6, a7⟩
      have hne : sl.state ≠ SlotState.resultWritten := by
        intro e
        rw [a5.2 e] at hunready
        cases hunready
      dsimp only
      rw [hunready]
      constructor
      · intro h'; cases h'
      · intro h'
        split at h'
        · cases h'
        · split at h'
          · cases h'
          · exact absurd h' hne
    · exact (h.slotsOk k' sl' hk').of_frame rfl rfl (le_refl _)
  · intro j st' hj
    rw [hsta] at hj
    rw [hname]
    split at hj
    · rename_i e
      subst e
      obtain rfl := Option.some.inj hj
      obtain ⟨a1, a2, a3, a4, a5, a6, a7⟩ := h.stationsOk j st hst
      refine ⟨a1, le_trans (Nat.sub_le _ _) a2, ?_, a4, a5, a6, a7⟩
      intro _
      simp only [Station.isReady, Bool.and_eq_true, Option.isNone_iff_eq_none] at hq
      exact hq
    · exact (h.stationsOk j st' hj).of_frame rfl
  · have := h.namesOnce
    unfold NamesOnce ownedNames at *
    have e : (s.executed sid st k sl).rob = s.rob.set k (some { sl with
        state := if decide (st.cyclesRemaining = 1) then .executed
          else if decide (sl.state = SlotState.processing) then .executing else sl.state
        execCycle := if decide (sl.state = SlotState.processing) then s.currentCycle else sl.execCycle }) := rfl
    rw [e, filterMap_set_same (slotAt_some.1 hk) (by rfl)]
    exact this
  · intro j st' hj
    rw [hsta] at hj
    have : ∃ st0, s.stationAt j = some st0 ∧ st0.dest = st'.dest := by
      split at hj
      · rename_i e
        subst e
        obtain rfl := Option.some.inj hj
        exact ⟨st, hst, rfl⟩
      · exact ⟨st', hj, rfl⟩
    obtain ⟨st0, h0, hd0⟩ := this
    obtain ⟨k0, sl0, b1, b2, b3⟩ := h.links j st0 h0
    obtain ⟨sl1, c1, c2, c3, -⟩ := lift b1
    exact ⟨k0, sl1, c1, by rw [c2, b2, hd0], by rw [c3, b3]⟩
  · have old : ∀ {j st'}, (s.executed sid st k sl).stationAt j = some st' →
        ∃ st0, s.stationAt j = some st0 ∧ st0.dest = st'.dest := by
      intro j st' hj
      rw [hsta] at hj
      split at hj
      · rename_i e
        subst e
        obtain rfl := Option.some.inj hj
        exact ⟨st, hst, rfl⟩
      · exact ⟨st', hj, rfl⟩
    intro a b sa sb ha hb e
    obtain ⟨sa0, a0, da⟩ := old ha
    obtain ⟨sb0, b0, db⟩ := old hb
    exact h.distinct a b sa0 sb0 a0 b0 (by rw [da, db, e])
  · intro r n hm
    obtain ⟨k0, sl0, b1, b2, b3⟩ := h.mapLive r n hm
    obtain ⟨sl1, c1, c2, -, c4⟩ := lift b1
    exact ⟨k0, sl1, c1, by rw [c2, b2], by rw [c4, b3]⟩

/-- What the visit of a station can do (41_execute.md R101). -/
theorem executeStation_cases (sid : Nat) (s : State) :
    executeStation sid s = .next s ∨
    (∃ st, s.stationAt sid = some st ∧ st.isReady = false ∧ executeStation sid s = .next (s.waits sid st)) ∨
    (∃ st, s.stationAt sid = some st ∧ st.isReady = true ∧ st.cyclesRemaining ≠ 0 ∧ s.owner st.dest = none ∧
      executeStation sid s = .fault .unownedStation) ∨
    (∃ st k sl, s.stationAt sid = some st ∧ st.isReady = true ∧ st.cyclesRemaining ≠ 0 ∧
      s.owner st.dest = some (k, sl) ∧ executeStation sid s = .next (s.executed sid st k sl)) := by
  unfold executeStation
  cases h1 : s.stationAt sid with
  | none => exact .inl rfl
  | some st =>
    dsimp only
    cases h2 : st.isReady with
    | false => exact .inr (.inl ⟨st, rfl, h2, by simp⟩)
    | true =>
      by_cases h3 : st.cyclesRemaining = 0
      · exact .inl (by simp [h3])
      · cases h4 : s.owner st.dest with
        | none => exact .inr (.inr (.inl ⟨st, rfl, h2, h3, h4, by simp [h3]⟩))
        | some ks => exact .inr (.inr (.inr ⟨st, ks.1, ks.2, rfl, h2, h3, by simp [h4], by simp [h3]⟩))

/-- The visit of a station of a consistent state answers a consistent state: it never stops. -/
theorem Consistent.executeStation (h : s.Consistent) (sid : Nat) :
    ∃ t, executeStation sid s = .next t ∧ t.Consistent := by
  rcases executeStation_cases sid s with e | ⟨st, -, -, e⟩ | ⟨st, hst, -, -, ho, -⟩ | ⟨st, k, sl, hst, hq, -, ho, e⟩
  · exact ⟨s, e, h⟩
  · exact ⟨_, e, ((h.soundBut none).waits sid st).consistent⟩
  · obtain ⟨k, sl, h1, -⟩ := (h.soundBut none).owner_of_link (h.links sid st hst)
    rw [ho] at h1; cases h1
  · obtain ⟨hk, hn⟩ := owner_some ho
    exact ⟨_, e, h.executed hst hq hk hn⟩

/-! ## Commit -/

theorem retired_slotAt {sl : Slot} (hk : s.slotAt s.head = some sl) (k' : Nat) :
    (s.retired sl).slotAt k' = if k' = s.head then none else s.slotAt k' :=
  slotAt_of_rob_set rfl (slotAt_lt hk) k'

theorem retired_stationAt (sl : Slot) (j : Nat) : (s.retired sl).stationAt j = s.stationAt j :=
  stationAt_of_rs_eq rfl j

theorem retired_xLength (sl : Slot) : (s.retired sl).x.length = s.x.length := by
  unfold retired
  dsimp only
  split <;> simp

/-- The commit of a ready head slot keeps the state consistent. -/
theorem Consistent.retired (h : s.Consistent) {sl : Slot} (hk : s.slotAt s.head = some sl) (hr : sl.ready = true) :
    (s.retired sl).Consistent := by
  have hslot := retired_slotAt hk
  refine ⟨?_, ?_, ?_, ?_, ?_, h.distinct, ?_⟩
  · obtain ⟨h1, h2, h3, h4, h5, h6, h7, h8, h9, h10, h11, h12, h13, h14⟩ := h.shape
    refine ⟨h1, h2, h3, by simpa using h4, h5, ?_, h7, ?_, by simpa using h9, h10, ?_, h12, h13, h14⟩
    · rw [retired_xLength]; exact h6
    · rw [retired_renameMap, unrenamed_length]; exact h8
    · exact Nat.mod_lt _ (Config.nrob_pos h1)
  · intro k' sl' hk'
    rw [hslot] at hk'
    split at hk'
    · cases hk'
    · exact (h.slotsOk k' sl' hk').of_frame rfl rfl (le_refl _)
  · intro j st hj
    exact (h.stationsOk j st hj).of_frame rfl
  · have h1 := h.namesOnce
    unfold NamesOnce at *
    refine List.Perm.trans ?_ h1
    have h2 : s.ownedNames.Perm (sl.renamedReg :: (s.retired sl).ownedNames) := by
      unfold ownedNames
      exact filterMap_set_clear (slotAt_some.1 hk)
    simp only [retired_freeList, List.append_assoc, List.singleton_append]
    exact List.Perm.append_left _ h2.symm
  · intro j st hj
    obtain ⟨k0, sl0, b1, b2, b3⟩ := h.links j st hj
    refine ⟨k0, sl0, ?_, b2, b3⟩
    rw [hslot, if_neg]
    · exact b1
    · rintro rfl
      rw [hk] at b1
      obtain rfl := Option.some.inj b1
      rw [hr] at b3
      cases b3
  · intro r n hm
    rw [retired_renameMap] at hm
    obtain ⟨hm', hno⟩ := unrenamed_some hm
    obtain ⟨k0, sl0, b1, b2, b3⟩ := h.mapLive r n hm'
    refine ⟨k0, sl0, ?_, b2, b3⟩
    rw [hslot, if_neg]
    · exact b1
    · rintro rfl
      rw [hk] at b1
      obtain rfl := Option.some.inj b1
      exact hno b3 b2.symm

/-- The two ways a commit phase ends (43_commit.md R130). -/
theorem commitPhase_cases (s : State) :
    (commitPhase s = s ∧ ∀ sl, s.slotAt s.head = some sl → sl.ready = false) ∨
    (∃ sl, s.slotAt s.head = some sl ∧ sl.ready = true ∧ commitPhase s = s.retired sl) := by
  unfold commitPhase
  cases h1 : s.slotAt s.head with
  | none => exact .inl ⟨rfl, by simp⟩
  | some sl =>
    dsimp only
    cases h2 : sl.ready with
    | false => exact .inl ⟨by simp, by simp [h2]⟩
    | true => exact .inr ⟨sl, rfl, h2, by simp⟩

theorem Consistent.commitPhase (h : s.Consistent) : (commitPhase s).Consistent := by
  rcases commitPhase_cases s with ⟨e, -⟩ | ⟨sl, hk, hr, e⟩
  · rw [e]; exact h
  · rw [e]; exact h.retired hk hr

/-! ## Instructions -/

/-- The opcode rule of each instruction. -/
def ruleOf : Opcode → OpcodeRule
  | .add => ruleAdd
  | .sub => ruleSub
  | .mul => ruleMul
  | .div => ruleDiv
  | .ld => ruleLd
  | .sd => ruleSd
  | .beqz => ruleBeqz

theorem ruleOf_framed (op : Opcode) : (ruleOf op).Framed := by
  intro st s v taken t h
  cases op <;> simp only [ruleOf, ruleAdd, ruleSub, ruleMul, ruleDiv, ruleLd, ruleSd, ruleBeqz] at h
  case add => obtain ⟨-, -, rfl⟩ := RuleResult.done.inj h; exact ⟨rfl⟩
  case sub => obtain ⟨-, -, rfl⟩ := RuleResult.done.inj h; exact ⟨rfl⟩
  case mul => obtain ⟨-, -, rfl⟩ := RuleResult.done.inj h; exact ⟨rfl⟩
  case div => obtain ⟨-, -, rfl⟩ := RuleResult.done.inj h; exact ⟨rfl⟩
  case ld =>
    split at h
    · cases h
    · obtain ⟨-, -, rfl⟩ := RuleResult.done.inj h; exact ⟨rfl⟩
  case sd =>
    split at h
    · cases h
    · obtain ⟨-, -, rfl⟩ := RuleResult.done.inj h; exact ⟨rfl⟩
  case beqz =>
    split at h <;> (obtain ⟨-, -, rfl⟩ := RuleResult.done.inj h; exact ⟨rfl⟩)

/-- Every instruction acts by its issue or by the write-result with its rule. -/
theorem exec_eq_act (i : Instr) (s : State) : exec i s = act i (ruleOf i.opcode) s := by
  cases i <;> rfl

/-- Off the bus, an instruction issues. -/
theorem exec_issue (i : Instr) (h : s.onBus = none) : exec i s = .next (Sys2Proof.Machine.issueInstr i s) := by
  rw [exec_eq_act]; unfold act; rw [h]

/-- On the bus, an instruction writes its station's result. -/
theorem exec_write (i : Instr) {sid : Nat} (h : s.onBus = some sid) :
    exec i s = .next (Sys2Proof.Machine.writeBack (ruleOf i.opcode) sid s) := by
  rw [exec_eq_act]; unfold act; rw [h]

theorem station_instr_opcode (st : Station) : st.instr.opcode = st.op := by
  unfold Station.instr
  cases st.op <;> rfl

end State

end Sys2Proof.Machine
end

