-- ==== Sys2Proof/Laws/EngineLaws.lean ====
section
/-! SUPPORT. The loops of the phases packaged once, and what one tick can do (44_cycle_engine.md R140 to R148). -/

namespace Sys2Proof.Machine

@[simp] theorem andThen_next (s : State) (f : State → Host.Outcome State Fault Refusal) : andThen (.next s) f = f s := rfl

/-- A sequence that answers a next state did so through a state in between. -/
theorem andThen_eq_next {o : Host.Outcome State Fault Refusal} {f : State → Host.Outcome State Fault Refusal} {t : State}
    (h : andThen o f = .next t) : ∃ m, o = .next m ∧ f m = .next t := by
  cases o with
  | next s => exact ⟨s, rfl, h⟩
  | fault r => cases h
  | refused r => cases h

namespace State

variable {s t : State}

/-- A property every station visit keeps is kept by the execute phase. -/
theorem executeStations_keeps {P : State → Prop}
    (hP : ∀ sid s t, P s → executeStation sid s = .next t → P t) (l : List Nat) {s t : State} (h : P s)
    (e : executeStations l s = .next t) : P t := by
  induction l generalizing s with
  | nil => simp only [executeStations] at e; cases e; exact h
  | cons sid l ih =>
    obtain ⟨m, h1, h2⟩ := andThen_eq_next e
    exact ih (hP sid s m h h1) h2

/-- The execute phase of a consistent state answers a next state, which is consistent. -/
theorem Consistent.executeStations (l : List Nat) {s : State} (h : s.Consistent) :
    ∃ t, executeStations l s = .next t ∧ t.Consistent := by
  induction l generalizing s with
  | nil => exact ⟨s, rfl, h⟩
  | cons sid l ih =>
    obtain ⟨m, h1, h2⟩ := h.executeStation sid
    obtain ⟨t, h3, h4⟩ := ih h2
    exact ⟨t, by rw [Sys2Proof.Machine.executeStations, h1]; exact h3, h4⟩

theorem Consistent.executePhase (h : s.Consistent) : ∃ t, executePhase s = .next t ∧ t.Consistent :=
  Consistent.executeStations _ h

/-- Every `exec` answers a next state. -/
theorem exec_isNext (i : Instr) (s : State) : ∃ t, exec i s = .next t := by
  rw [exec_eq_act]
  unfold act
  split <;> exact ⟨_, rfl⟩

/-- A property that granting the bus and every write-result of a listed busy station keep is kept by the write-result phase. -/
theorem writeResults_keeps_of {P : State → Prop} (hb : ∀ s b, P s → P (s.setBus b)) (l : List Nat)
    (hw : ∀ sid st s, P s → sid ∈ l → s.stationAt sid = some st → s.onBus = some sid → s.faultRec = none →
      P (Sys2Proof.Machine.writeBack (ruleOf st.op) sid s)) {s t : State} (h : P s)
    (e : writeResults l s = .next t) : P t := by
  induction l generalizing s with
  | nil => simp only [writeResults] at e; cases e; exact hb _ _ h
  | cons sid l ih =>
    have hw' : ∀ a st s, P s → a ∈ l → s.stationAt a = some st → s.onBus = some a → s.faultRec = none →
        P (Sys2Proof.Machine.writeBack (ruleOf st.op) a s) :=
      fun a st s h ha => hw a st s h (List.mem_cons_of_mem _ ha)
    unfold writeResults at e
    split at e
    · cases e; exact hb _ _ h
    · rename_i hf
      split at e
      · exact ih hw' h e
      · rename_i st hst
        obtain ⟨m, h1, h2⟩ := andThen_eq_next e
        rw [exec_write st.instr (sid := sid) rfl, station_instr_opcode] at h1
        cases h1
        refine ih hw' (hw sid st (s.setBus (some sid)) (hb s (some sid) h) (List.mem_cons_self ..) hst rfl ?_) h2
        show s.faultRec = none
        simpa using hf

/-- A property that granting the bus and every write-result on it keep is kept by the write-result phase. -/
theorem writeResults_keeps {P : State → Prop} (hb : ∀ s b, P s → P (s.setBus b))
    (hw : ∀ op sid s, P s → s.onBus = some sid → P (Sys2Proof.Machine.writeBack (ruleOf op) sid s)) (l : List Nat) {s t : State} (h : P s)
    (e : writeResults l s = .next t) : P t :=
  writeResults_keeps_of hb l (fun sid st s h _ _ h2 _ => hw st.op sid s h h2) h e

/-- The write-result phase always answers a next state, with no station on the bus. -/
theorem writeResults_isNext (l : List Nat) (s : State) : ∃ t, writeResults l s = .next t ∧ t.onBus = none := by
  induction l generalizing s with
  | nil => exact ⟨_, rfl, rfl⟩
  | cons sid l ih =>
    unfold writeResults
    split
    · exact ⟨_, rfl, rfl⟩
    · split
      · exact ih s
      · rename_i st _
        rw [exec_write st.instr (sid := sid) rfl]
        exact ih _

theorem Consistent.writeResults (l : List Nat) {s t : State} (h : s.Consistent) (e : writeResults l s = .next t) :
    t.Consistent :=
  writeResults_keeps (P := State.Consistent) (fun _ b h => ((h.soundBut none).setBus b).consistent)
    (fun op sid _ h _ => h.writeBack (ruleOf_framed op) sid) l h e

/-- The three ways a tick ends without doing its phases, and the one way it does them (44_cycle_engine.md R140). -/
theorem step_cases (s : State) :
    (s.stopped = true ∧ step s = .next s) ∨
    (s.stopped = false ∧ ∃ why i, (s.cfg.cycleCap < s.currentCycle ∨ s.stuckPosition ≠ none) ∧
      step s = .next ((s.logEvent (.cycleStart s.currentCycle)).timeout why i)) ∨
    (s.stopped = false ∧ s.currentCycle ≤ s.cfg.cycleCap ∧
      (s.logEvent (.cycleStart s.currentCycle)).stuckPosition = none ∧
      step s = andThen (writeResultPhase (s.logEvent (.cycleStart s.currentCycle))) afterWriteResult) := by
  unfold step tick
  cases h1 : s.stopped with
  | true => exact .inl ⟨rfl, by simp⟩
  | false =>
    simp only [Bool.false_eq_true, if_false]
    by_cases h2 : s.cfg.cycleCap < s.currentCycle
    · exact .inr (.inl ⟨trivial, _, _, .inl h2, by rw [logEvent_cfg, logEvent_currentCycle, if_pos h2]⟩)
    · rw [logEvent_cfg, logEvent_currentCycle, if_neg h2]
      cases h3 : (s.logEvent (.cycleStart s.currentCycle)).stuckPosition with
      | some i =>
        have : s.stuckPosition = some i := h3
        exact .inr (.inl ⟨trivial, _, _, .inr (by simp [this]), rfl⟩)
      | none => exact .inr (.inr ⟨trivial, by omega, rfl, rfl⟩)

/-- A tick that no guard stops. -/
theorem step_running {s : State} (h1 : s.complete = false) (h2 : s.faultRec = none) (h3 : s.currentCycle ≤ s.cfg.cycleCap)
    (h4 : s.stuckPosition = none) :
    step s = andThen (writeResultPhase (s.logEvent (.cycleStart s.currentCycle))) afterWriteResult := by
  rcases step_cases s with ⟨h, -⟩ | ⟨-, why, i, h, -⟩ | ⟨-, -, -, e⟩
  · simp [State.stopped, h1, h2] at h
  · rcases h with h | h
    · omega
    · exact absurd h4 h
  · exact e

/-- What follows write-result in a tick that answers a next state. -/
theorem afterWriteResult_cases {s t : State} (h : afterWriteResult s = .next t) :
    (s.faultRec.isSome = true ∧ t = s) ∨
    (s.faultRec = none ∧ ∃ s2 s3, executePhase s = .next s2 ∧ issuePhase s2 = .next s3 ∧
      t = (commitPhase s3).endTick) := by
  unfold afterWriteResult at h
  split at h
  · cases h; exact .inl ⟨‹_›, rfl⟩
  · rename_i hf
    obtain ⟨s2, h1, h2⟩ := andThen_eq_next h
    obtain ⟨s3, h3, h4⟩ := andThen_eq_next h2
    cases h4
    exact .inr ⟨by simpa using hf, s2, s3, h1, h3, rfl⟩

end State

end Sys2Proof.Machine
end

