-- ==== Sys2Proof/Laws/FrameLaws.lean ====
section
/-! SUPPORT. What each phase leaves unchanged (10_state.md R38). -/

namespace Sys2Proof.Machine

namespace State

variable {s t : State}

/-- A flush and redirect changes only stations, ROB, free list, rename map, statuses, log, tail and pc. -/
theorem flushAndRedirect_frame (k c : Nat) (imm : Int) (s : State) :
    let t := s.flushAndRedirect k c imm
    t.cfg = s.cfg ∧ t.prog = s.prog ∧ t.reissue = s.reissue ∧ t.x = s.x ∧ t.p = s.p ∧ t.head = s.head ∧
      t.mem = s.mem ∧ t.currentCycle = s.currentCycle ∧ t.totalCycles = s.totalCycles ∧
      t.bubbleCount = s.bubbleCount ∧ t.committedCount = s.committedCount ∧ t.complete = s.complete ∧
      t.timedOut = s.timedOut ∧ t.faultRec = s.faultRec ∧ t.draws = s.draws ∧ t.onBus = s.onBus := by
  obtain ⟨h1, h2, h3, -, h5, h6, h7, -, h9, h10, h11, h12, h13, h14, h15, h16, h17, h18⟩ :=
    cancelAll_frame k (s.victims k c) s
  exact ⟨h1, h2, h3, h5, h6, h7, h9, h10, h11, h12, h13, h14, h15, h16, h17, h18⟩

/-- The fields that a candidate's write-result never changes, whatever it does. -/
structure WriteFrame (s t : State) : Prop where
  cfg : t.cfg = s.cfg
  prog : t.prog = s.prog
  reissue : t.reissue = s.reissue
  x : t.x = s.x
  head : t.head = s.head
  currentCycle : t.currentCycle = s.currentCycle
  totalCycles : t.totalCycles = s.totalCycles
  bubbleCount : t.bubbleCount = s.bubbleCount
  committedCount : t.committedCount = s.committedCount
  complete : t.complete = s.complete
  timedOut : t.timedOut = s.timedOut
  logGrows : s.log <+: t.log

theorem WriteFrame.refl (s : State) : WriteFrame s s :=
  ⟨rfl, rfl, rfl, rfl, rfl, rfl, rfl, rfl, rfl, rfl, rfl, List.prefix_refl _⟩

theorem WriteFrame.trans {s t u : State} (h : WriteFrame s t) (g : WriteFrame t u) : WriteFrame s u :=
  ⟨g.cfg.trans h.cfg, g.prog.trans h.prog, g.reissue.trans h.reissue, g.x.trans h.x, g.head.trans h.head,
    g.currentCycle.trans h.currentCycle, g.totalCycles.trans h.totalCycles, g.bubbleCount.trans h.bubbleCount,
    g.committedCount.trans h.committedCount, g.complete.trans h.complete, g.timedOut.trans h.timedOut,
    h.logGrows.trans g.logGrows⟩

theorem finishWrite_frame (sid k : Nat) (sl : Slot) (imm : Int) (v : Value) (taken : Bool) (s : State) :
    WriteFrame s (s.finishWrite sid k sl imm v taken) ∧
      (s.finishWrite sid k sl imm v taken).mem = s.mem ∧
      (s.finishWrite sid k sl imm v taken).draws = s.draws ∧
      (s.finishWrite sid k sl imm v taken).faultRec = s.faultRec ∧
      (s.finishWrite sid k sl imm v taken).onBus = s.onBus := by
  unfold State.finishWrite
  dsimp only
  cases taken with
  | false =>
    refine ⟨⟨rfl, rfl, rfl, rfl, rfl, rfl, rfl, rfl, rfl, rfl, rfl, ?_⟩, rfl, rfl, rfl, rfl⟩
    simp [List.append_assoc]
  | true =>
    obtain ⟨h1, h2, h3, h5, h6, h7, h9, h10, h11, h12, h13, h14, h15, h16, h17, h18⟩ :=
      flushAndRedirect_frame k sl.issueCycle imm ((s.recordResult k sl v).broadcast sl.renamedReg v)
    refine ⟨⟨h1, h2, h3, h5, h7, h10, h11, h12, h13, h14, h15, ?_⟩, h9, h17, h16, h18⟩
    show s.log <+: (State.flushAndRedirect ((s.recordResult k sl v).broadcast sl.renamedReg v) k sl.issueCycle imm).log
    unfold State.flushAndRedirect
    dsimp only
    rw [cancelAll_log]
    simp [List.append_assoc]

theorem writeFrame_of_ruleFrame (h : RuleFrame s t) : WriteFrame s t := by
  have e := h.same
  refine ⟨?_, ?_, ?_, ?_, ?_, ?_, ?_, ?_, ?_, ?_, ?_, ?_⟩ <;> rw [e]

/-- The write-result of any station under any framed rule. -/
theorem writeBack_frame {rule : OpcodeRule} (hr : rule.Framed) (sid : Nat) (s : State) :
    WriteFrame s (Sys2Proof.Machine.writeBack rule sid s) ∧ (Sys2Proof.Machine.writeBack rule sid s).onBus = s.onBus := by
  rcases writeBack_cases rule sid s with ⟨-, e⟩ | ⟨st, k, i, -, -, e⟩ | ⟨st, k, sl, a, -, -, -, -, e⟩ |
    ⟨st, k, sl, v, taken, s', hst, ho, -, hd, e⟩
  · rw [e]; exact ⟨WriteFrame.refl s, rfl⟩
  · rw [e]; exact ⟨⟨rfl, rfl, rfl, rfl, rfl, rfl, rfl, rfl, rfl, rfl, rfl, List.prefix_append _ _⟩, rfl⟩
  · rw [e]; exact ⟨⟨rfl, rfl, rfl, rfl, rfl, rfl, rfl, rfl, rfl, rfl, rfl, List.prefix_append _ _⟩, rfl⟩
  · rw [e]
    have hf := hr st s v taken s' hd
    have h1 := finishWrite_frame sid k sl st.imm v taken s'
    exact ⟨(writeFrame_of_ruleFrame hf).trans h1.1, by rw [h1.2.2.2.2]; rw [hf.same]⟩

/-- The fields the whole write-result phase leaves alone. -/
theorem writeResults_frame (l : List Nat) {s t : State} (e : writeResults l s = .next t) : WriteFrame s t := by
  refine writeResults_keeps (P := fun u => WriteFrame s u) ?_ ?_ l (WriteFrame.refl s) e
  · intro u b h
    exact h.trans ⟨rfl, rfl, rfl, rfl, rfl, rfl, rfl, rfl, rfl, rfl, rfl, List.prefix_refl _⟩
  · intro op sid u h _
    exact h.trans (writeBack_frame (ruleOf_framed op) sid u).1

/-- The fields the execute phase leaves alone. -/
structure ExecuteFrame (s t : State) : Prop where
  cfg : t.cfg = s.cfg
  prog : t.prog = s.prog
  reissue : t.reissue = s.reissue
  pc : t.pc = s.pc
  x : t.x = s.x
  p : t.p = s.p
  renameMap : t.renameMap = s.renameMap
  freeList : t.freeList = s.freeList
  head : t.head = s.head
  tail : t.tail = s.tail
  mem : t.mem = s.mem
  currentCycle : t.currentCycle = s.currentCycle
  totalCycles : t.totalCycles = s.totalCycles
  committedCount : t.committedCount = s.committedCount
  complete : t.complete = s.complete
  timedOut : t.timedOut = s.timedOut
  faultRec : t.faultRec = s.faultRec
  draws : t.draws = s.draws
  onBus : t.onBus = s.onBus
  bubbles : s.bubbleCount ≤ t.bubbleCount
  logGrows : s.log <+: t.log

theorem ExecuteFrame.refl (s : State) : ExecuteFrame s s :=
  ⟨rfl, rfl, rfl, rfl, rfl, rfl, rfl, rfl, rfl, rfl, rfl, rfl, rfl, rfl, rfl, rfl, rfl, rfl, rfl, le_refl _,
    List.prefix_refl _⟩

theorem ExecuteFrame.trans {s t u : State} (h : ExecuteFrame s t) (g : ExecuteFrame t u) : ExecuteFrame s u :=
  ⟨g.cfg.trans h.cfg, g.prog.trans h.prog, g.reissue.trans h.reissue, g.pc.trans h.pc, g.x.trans h.x, g.p.trans h.p,
    g.renameMap.trans h.renameMap, g.freeList.trans h.freeList, g.head.trans h.head, g.tail.trans h.tail,
    g.mem.trans h.mem, g.currentCycle.trans h.currentCycle, g.totalCycles.trans h.totalCycles,
    g.committedCount.trans h.committedCount, g.complete.trans h.complete, g.timedOut.trans h.timedOut,
    g.faultRec.trans h.faultRec, g.draws.trans h.draws, g.onBus.trans h.onBus, le_trans h.bubbles g.bubbles,
    h.logGrows.trans g.logGrows⟩

theorem executeStation_frame (sid : Nat) {s t : State} (e : executeStation sid s = .next t) : ExecuteFrame s t := by
  rcases executeStation_cases sid s with h | ⟨st, -, -, h⟩ | ⟨st, -, -, -, -, h⟩ | ⟨st, k, sl, -, -, -, -, h⟩ <;>
    rw [h] at e <;> cases e
  · exact ExecuteFrame.refl s
  · exact ⟨rfl, rfl, rfl, rfl, rfl, rfl, rfl, rfl, rfl, rfl, rfl, rfl, rfl, rfl, rfl, rfl, rfl, rfl, rfl,
      Nat.le_succ _, List.prefix_append _ _⟩
  · refine ⟨rfl, rfl, rfl, rfl, rfl, rfl, rfl, rfl, rfl, rfl, rfl, rfl, rfl, rfl, rfl, rfl, rfl, rfl, rfl,
      le_refl _, ?_⟩
    unfold State.executed
    dsimp only
    split
    · exact List.prefix_append _ _
    · exact List.prefix_refl _

theorem executePhase_frame {s t : State} (e : executePhase s = .next t) : ExecuteFrame s t :=
  executeStations_keeps (P := fun u => ExecuteFrame s u)
    (fun sid _ _ h e => h.trans (executeStation_frame sid e)) _ (ExecuteFrame.refl s) e

/-- The fields an issue leaves alone. -/
structure IssueFrame (s t : State) : Prop where
  cfg : t.cfg = s.cfg
  prog : t.prog = s.prog
  x : t.x = s.x
  head : t.head = s.head
  mem : t.mem = s.mem
  currentCycle : t.currentCycle = s.currentCycle
  totalCycles : t.totalCycles = s.totalCycles
  committedCount : t.committedCount = s.committedCount
  complete : t.complete = s.complete
  timedOut : t.timedOut = s.timedOut
  faultRec : t.faultRec = s.faultRec
  draws : t.draws = s.draws
  onBus : t.onBus = s.onBus
  bubbles : s.bubbleCount ≤ t.bubbleCount
  logGrows : s.log <+: t.log

theorem issueInstr_frame (i : Instr) (s : State) : IssueFrame s (Sys2Proof.Machine.issueInstr i s) := by
  rcases issueInstr_cases i s with ⟨why, e⟩ | ⟨sid, n, rest, -, -, -, e⟩ <;> rw [e]
  · exact ⟨rfl, rfl, rfl, rfl, rfl, rfl, rfl, rfl, rfl, rfl, rfl, rfl, rfl, Nat.le_succ _, List.prefix_append _ _⟩
  · exact ⟨rfl, rfl, rfl, rfl, rfl, rfl, rfl, rfl, rfl, rfl, rfl, rfl, rfl, le_refl _, List.prefix_append _ _⟩

/-- The issue phase with no station on the bus: nothing, or the issue of the instruction at `pc`. -/
theorem issuePhase_cases {s t : State} (hb : s.onBus = none) (e : issuePhase s = .next t) :
    (s.prog[s.pc]? = none ∧ t = s) ∨ (∃ i, s.prog[s.pc]? = some i ∧ t = Sys2Proof.Machine.issueInstr i s) := by
  unfold issuePhase at e
  split at e
  · cases e; exact .inl ⟨‹_›, rfl⟩
  · rename_i i h
    rw [exec_issue i hb] at e
    cases e
    exact .inr ⟨i, h, rfl⟩

/-- The fields a commit phase leaves alone. -/
structure CommitFrame (s t : State) : Prop where
  cfg : t.cfg = s.cfg
  prog : t.prog = s.prog
  reissue : t.reissue = s.reissue
  pc : t.pc = s.pc
  p : t.p = s.p
  rs : t.rs = s.rs
  tail : t.tail = s.tail
  mem : t.mem = s.mem
  currentCycle : t.currentCycle = s.currentCycle
  totalCycles : t.totalCycles = s.totalCycles
  bubbleCount : t.bubbleCount = s.bubbleCount
  complete : t.complete = s.complete
  timedOut : t.timedOut = s.timedOut
  faultRec : t.faultRec = s.faultRec
  draws : t.draws = s.draws
  onBus : t.onBus = s.onBus
  logGrows : s.log <+: t.log

theorem commitPhase_frame (s : State) : CommitFrame s (Sys2Proof.Machine.commitPhase s) := by
  rcases commitPhase_cases s with ⟨e, -⟩ | ⟨sl, -, -, e⟩ <;> rw [e]
  · exact ⟨rfl, rfl, rfl, rfl, rfl, rfl, rfl, rfl, rfl, rfl, rfl, rfl, rfl, rfl, rfl, rfl, List.prefix_refl _⟩
  · exact ⟨rfl, rfl, rfl, rfl, rfl, rfl, rfl, rfl, rfl, rfl, rfl, rfl, rfl, rfl, rfl, rfl, List.prefix_append _ _⟩

/-- The two ways a tick whose phases ran ends (44_cycle_engine.md R147, R148). -/
theorem endTick_cases (s : State) :
    (s.prog.length ≤ s.pc ∧ s.robEmpty = true ∧ s.endTick = { s with
      complete := true, totalCycles := s.currentCycle, log := s.log ++ [Event.complete s.currentCycle] }) ∨
    (¬(s.prog.length ≤ s.pc ∧ s.robEmpty = true) ∧ s.endTick = { s with currentCycle := s.currentCycle + 1 }) := by
  unfold State.endTick
  split
  · exact .inl ⟨‹_ ∧ _›.1, ‹_ ∧ _›.2, rfl⟩
  · exact .inr ⟨‹_›, rfl⟩

theorem robEmpty_slotAt (h : s.robEmpty = true) (k : Nat) : s.slotAt k = none := by
  cases e : s.slotAt k with
  | none => rfl
  | some sl =>
    unfold robEmpty at h
    rw [List.all_eq_true] at h
    have := h _ (List.mem_of_getElem? (slotAt_some.1 e))
    simp at this

theorem robEmpty_iff : s.robEmpty = true ↔ ∀ k, s.slotAt k = none := by
  constructor
  · exact fun h k => robEmpty_slotAt h k
  · intro h
    simp only [State.robEmpty, List.all_eq_true]
    intro o ho
    obtain ⟨k, hk⟩ := List.getElem?_of_mem ho
    have := h k
    simp only [State.slotAt, hk] at this
    simp [this]

theorem IssueFrame.refl (s : State) : IssueFrame s s :=
  ⟨rfl, rfl, rfl, rfl, rfl, rfl, rfl, rfl, rfl, rfl, rfl, rfl, rfl, le_refl _, List.prefix_refl _⟩

/-- The issue phase with no station on the bus, with its frame. -/
theorem issuePhase_frame {s t : State} (hb : s.onBus = none) (e : issuePhase s = .next t) : IssueFrame s t := by
  rcases issuePhase_cases hb e with ⟨-, rfl⟩ | ⟨i, -, rfl⟩
  · exact IssueFrame.refl _
  · exact issueInstr_frame i s

/-- Everything a step can do, said once: nothing, a forced stop, a write-result phase that faults, or all four phases
(44_cycle_engine.md R140 to R148). -/
theorem step_inversion {s t : State} (e : step s = .next t) :
    (s.stopped = true ∧ t = s) ∨
    (s.complete = false ∧ s.faultRec = none ∧ ∃ why i,
      (s.cfg.cycleCap < s.currentCycle ∨ s.stuckPosition ≠ none) ∧
      t = (s.logEvent (.cycleStart s.currentCycle)).timeout why i) ∨
    (s.complete = false ∧ s.faultRec = none ∧ s.currentCycle ≤ s.cfg.cycleCap ∧ s.stuckPosition = none ∧
      ∃ s1, writeResults s.candidates (s.logEvent (.cycleStart s.currentCycle)) = .next s1 ∧
        WriteFrame (s.logEvent (.cycleStart s.currentCycle)) s1 ∧ s1.onBus = none ∧
        ((s1.faultRec ≠ none ∧ t = s1) ∨
          (s1.faultRec = none ∧ ∃ s2 s3, executePhase s1 = .next s2 ∧ ExecuteFrame s1 s2 ∧
            issuePhase s2 = .next s3 ∧ IssueFrame s2 s3 ∧
            ((s2.prog[s2.pc]? = none ∧ s3 = s2) ∨ ∃ i, s2.prog[s2.pc]? = some i ∧ s3 = Sys2Proof.Machine.issueInstr i s2) ∧
            CommitFrame s3 (Sys2Proof.Machine.commitPhase s3) ∧ t = (Sys2Proof.Machine.commitPhase s3).endTick))) := by
  have hc : s.stopped = false → s.complete = false ∧ s.faultRec = none := by
    intro h1; simpa [State.stopped] using h1
  rcases step_cases s with ⟨h1, e'⟩ | ⟨h1, why, i, hw, e'⟩ | ⟨h1, h2, h3, e'⟩
  · cases e'.symm.trans e; exact .inl ⟨h1, rfl⟩
  · cases e'.symm.trans e
    exact .inr (.inl ⟨(hc h1).1, (hc h1).2, _, _, hw, rfl⟩)
  · obtain ⟨s1, e1, e2⟩ := andThen_eq_next (e'.symm.trans e)
    have b1 : s1.onBus = none := by
      obtain ⟨u, hu, hb⟩ := writeResults_isNext s.candidates (s.logEvent (.cycleStart s.currentCycle))
      have : Host.Outcome.next u = Host.Outcome.next s1 := hu.symm.trans e1
      cases this
      exact hb
    refine .inr (.inr ⟨(hc h1).1, (hc h1).2, h2, h3, s1, e1, writeResults_frame _ e1, b1, ?_⟩)
    rcases afterWriteResult_cases e2 with ⟨hf, rfl⟩ | ⟨hf, s2, s3, e3, e4, rfl⟩
    · exact .inl ⟨Option.isSome_iff_ne_none.1 hf, rfl⟩
    · have f2 := executePhase_frame e3
      have b2 : s2.onBus = none := f2.onBus.trans b1
      exact .inr ⟨hf, s2, s3, e3, f2, e4, issuePhase_frame b2 e4, issuePhase_cases b2 e4, commitPhase_frame s3, rfl⟩

/-- A fault recorded by the write-result phase names the current cycle (60_exceptions.md R185, R186). -/
theorem writeResults_faultCycle {l : List Nat} {s t : State} {f : FaultRecord} (h0 : s.faultRec = none)
    (e : writeResults l s = .next t) (hf : t.faultRec = some f) : f.cycle = s.currentCycle := by
  have key : t.currentCycle = s.currentCycle ∧ ∀ f, t.faultRec = some f → f.cycle = s.currentCycle := by
    refine writeResults_keeps
      (P := fun u => u.currentCycle = s.currentCycle ∧ ∀ f, u.faultRec = some f → f.cycle = s.currentCycle)
      ?_ ?_ l ⟨rfl, by simp [h0]⟩ e
    · intro u b h; exact h
    · intro op sid u h _
      refine ⟨(writeBack_frame (ruleOf_framed op) sid u).1.currentCycle.trans h.1, ?_⟩
      rcases writeBack_cases (ruleOf op) sid u with ⟨-, e⟩ | ⟨st, k, i, -, -, e⟩ | ⟨st, k, sl, a, -, -, -, -, e⟩ |
        ⟨st, k, sl, v, taken, s', -, -, -, hd, e⟩ <;> rw [e]
      · exact h.2
      · intro f hf; simp at hf; subst hf; exact h.1
      · intro f hf; simp at hf; subst hf; exact h.1
      · rw [(finishWrite_frame _ _ _ _ _ _ _).2.2.2.1, ((ruleOf_framed op) _ _ _ _ _ hd).same]
        exact h.2
  exact key.2 f hf

end State

end Sys2Proof.Machine
end

