-- ==== Sys2Proof/Laws/ResultLaws.lean ====
section
/-! SUPPORT. What recording a result and what a taken branch leave, lookup by lookup (42_write_result.md R114 to R123), and the
small lemmas the statements about issue and execute need. -/

namespace Sys2Proof.Machine

namespace State

variable {s t : State}

/-! ## Lookups -/

theorem setBody_eq_set {sid : Nat} (hs : sid < s.rs.length) (b : Option Station) :
    setBody s.rs sid b = s.rs.set sid { name := s.stationName sid, body := b } := by
  unfold setBody
  rw [List.modify_eq_set_getElem?]
  simp [hs, State.stationName]

theorem stationAt_getElem {j : Nat} (h : j < s.rs.length) : s.stationAt j = s.rs[j].body ∧ s.stationName j = s.rs[j].name := by
  simp [State.stationAt, State.stationName, h]

/-- The one busy slot with a name is its owner. -/
theorem owner_of_only {k n : Nat} {sl : Slot} (hk : s.slotAt k = some sl) (hn : sl.renamedReg = n)
    (hu : ∀ j x, s.slotAt j = some x → x.renamedReg = n → j = k) : s.owner n = some (k, sl) := by
  have h1 := owner_isSome hk
  rw [hn] at h1
  obtain ⟨⟨j, x⟩, hj⟩ := Option.isSome_iff_exists.1 h1
  obtain ⟨h2, h3⟩ := owner_some hj
  have := hu j x h2 h3
  subst this
  rw [h2] at hk
  cases hk
  exact hj

/-! ## Recording a result -/

/-- The write-result of a candidate whose rule answers, from the rule's answer alone. -/
theorem exec_of_rule {sid k : Nat} {st : Station} {sl : Slot} (h : s.OnBus sid st k sl) (i : Instr) {v : Value} {taken : Bool}
    {s' : State} (hr : ruleOf i.opcode st s = .done v taken s') :
    exec i s = .next (s'.finishWrite sid k sl st.imm v taken) := by
  rw [exec_write i h.bus]
  unfold writeBack
  rw [h.busy]
  simp only [owner_of_only h.slot h.owns h.only, if_neg h.notYet, hr]

/-- A candidate whose opcode rule faults records the fault only. -/
theorem exec_of_badAddress {sid k : Nat} {st : Station} {sl : Slot} (h : s.OnBus sid st k sl) (i : Instr) {a : Option Int}
    (hr : ruleOf i.opcode st s = .badAddress a) :
    exec i s = .next (s.raiseFault .badAddress (some k) (some sl.instr) a) := by
  rw [exec_write i h.bus]
  unfold writeBack
  rw [h.busy]
  simp only [owner_of_only h.slot h.owns h.only, if_neg h.notYet, hr]

/-- Recording, broadcasting and clearing, when no branch is taken, over the state the opcode rule left. -/
theorem recorded_of_rule {s s' : State} {sid k : Nat} {st : Station} {sl : Slot} (h : s.OnBus sid st k sl) (v : Value)
    (hf : RuleFrame s s') (imm : Int) :
    s.Recorded (s'.finishWrite sid k sl imm v false) sid st k sl v ∧
      (s'.finishWrite sid k sl imm v false).mem = s'.mem ∧ (s'.finishWrite sid k sl imm v false).draws = s'.draws := by
  have e := hf.same
  have hrob : s'.rob = s.rob := by rw [e]
  have hrs : s'.rs = s.rs := by rw [e]
  have hk' : s'.slotAt k = some sl := by rw [slotAt_of_rob_eq hrob]; exact h.slot
  have hp := published_slotAt (s := s') v hk'
  have hst := published_stationAt (s := s') k sl v
  have hsid : sid < ((s'.recordResult k sl v).broadcast sl.renamedReg v).rs.length := by
    simp only [broadcast_rs, recordResult_rs, List.length_map, hrs]
    exact stationAt_lt h.busy
  have hat : ∀ j, (s'.finishWrite sid k sl imm v false).stationAt j =
      if j = sid then none else ((s'.recordResult k sl v).broadcast sl.renamedReg v).stationAt j :=
    stationAt_of_setBody (s := (s'.recordResult k sl v).broadcast sl.renamedReg v) rfl hsid
  have hslot : ∀ j, (s'.finishWrite sid k sl imm v false).slotAt j =
      ((s'.recordResult k sl v).broadcast sl.renamedReg v).slotAt j := fun j => rfl
  have hc : s'.currentCycle = s.currentCycle := by rw [e]
  refine ⟨⟨?_, ?_, ?_, ?_, ?_, ?_, ?_, ?_, ?_,
    (congrArg State.cfg e :), (congrArg State.prog e :), (congrArg State.reissue e :), (congrArg State.pc e :), (congrArg State.x e :), (congrArg State.renameMap e :),
    (congrArg State.freeList e :), (congrArg State.head e :), (congrArg State.tail e :), (congrArg State.currentCycle e :), (congrArg State.totalCycles e :), (congrArg State.bubbleCount e :),
    (congrArg State.committedCount e :), (congrArg State.complete e :), (congrArg State.timedOut e :), (congrArg State.faultRec e :), (congrArg State.onBus e :)⟩, rfl, rfl⟩
  · rw [hslot, hp, if_pos rfl, hc]
  · intro j hj
    rw [hslot, hp, if_neg hj]
    exact slotAt_of_rob_eq hrob j
  · show s'.status.set _ _ = _
    rw [e]
  · show s'.p.set sl.renamedReg v = _
    rw [e, h.owns]
  · rw [hat, if_pos rfl]
  · intro j hj
    rw [hat, if_neg hj, hst, stationAt_of_rs_eq hrs, h.owns]
    rfl
  · show (setBody (s'.rs.map (fun e => { e with body := e.body.map (deliver sl.renamedReg v) })) sid none).map
      StationEntry.name = _
    rw [setBody_names, List.map_map, hrs]
    rfl
  · show (s'.log ++ [Event.writeResult s'.currentCycle k v]) ++ [Event.broadcast s'.currentCycle sl.renamedReg v] = _
    rw [List.append_assoc, hc, h.owns, show s'.log = s.log by rw [e]]
    rfl
  · show (s'.rob.set k _).length = _
    rw [List.length_set, hrob]

/-! ## Cancelling the victims of a taken branch -/

/-- A position's status after cancelling: Skipped when a victim was its instance. -/
theorem cancelAll_status (k : Nat) (l : List (Nat × Slot)) (s : State) (i : Nat) :
    (l.foldl (fun t js => t.cancel k js) s).status[i]? =
      if i ∈ l.map (fun js => js.2.instr) ∧ i < s.status.length then some Status.skipped else s.status[i]? := by
  induction l generalizing s with
  | nil => simp
  | cons js l ih =>
    rw [List.foldl_cons, ih]
    have hl : (s.cancel k js).status.length = s.status.length := by simp
    rw [hl]
    by_cases h : i ∈ l.map (fun js => js.2.instr) ∧ i < s.status.length
    · rw [if_pos h, if_pos ⟨List.mem_cons_of_mem _ h.1, h.2⟩]
    · rw [if_neg h]
      show (s.status.set js.2.instr Status.skipped)[i]? = _
      rw [List.getElem?_set]
      by_cases e : js.2.instr = i
      · subst e
        by_cases hi : js.2.instr < s.status.length
        · rw [if_pos rfl, if_pos hi, if_pos ⟨by simp, hi⟩]
        · rw [if_pos rfl, if_neg hi, if_neg (fun h => hi h.2), List.getElem?_eq_none (by omega)]
      · rw [if_neg e, if_neg]
        rintro ⟨h1, h2⟩
        rw [List.map_cons, List.mem_cons] at h1
        rcases h1 with h1 | h1
        · exact e h1.symm
        · exact h ⟨h1, h2⟩

theorem unrenamed_getElem? (reg : Option Nat) (n d : Nat) :
    (s.unrenamed reg n)[d]? =
      if reg = some d ∧ s.renameMap[d]? = some (some n) then some none else s.renameMap[d]? := by
  unfold unrenamed
  cases reg with
  | none => simp
  | some r =>
    dsimp only
    by_cases h : s.renameMap[r]? = some (some n)
    · have hl : r < s.renameMap.length := by
        by_contra hc
        rw [List.getElem?_eq_none (by omega)] at h
        cases h
      rw [if_pos h, List.getElem?_set]
      by_cases e : r = d
      · subst e
        rw [if_pos rfl, if_pos hl, if_pos ⟨rfl, h⟩]
      · rw [if_neg e, if_neg (fun x => e (Option.some.inj x.1))]
    · rw [if_neg h, if_neg]
      rintro ⟨h1, h2⟩
      obtain rfl := Option.some.inj h1
      exact h h2

/-- A register's rename-map entry after cancelling: removed when it named a victim that writes the register. -/
theorem cancelAll_renameMap (k : Nat) (l : List (Nat × Slot)) (s : State) (d : Nat) :
    (l.foldl (fun t js => t.cancel k js) s).renameMap[d]? =
      if ∃ js ∈ l, js.2.publicReg = some d ∧ s.renameMap[d]? = some (some js.2.renamedReg) then some none
      else s.renameMap[d]? := by
  induction l generalizing s with
  | nil => simp
  | cons js l ih =>
    have hd : (s.cancel k js).renameMap[d]? =
        if js.2.publicReg = some d ∧ s.renameMap[d]? = some (some js.2.renamedReg) then some none
        else s.renameMap[d]? := unrenamed_getElem? js.2.publicReg js.2.renamedReg d
    rw [List.foldl_cons, ih, hd]
    by_cases h : js.2.publicReg = some d ∧ s.renameMap[d]? = some (some js.2.renamedReg)
    · have h2 : ∃ ks ∈ js :: l, ks.2.publicReg = some d ∧ s.renameMap[d]? = some (some ks.2.renamedReg) :=
        ⟨js, by simp, h⟩
      rw [if_pos h, if_pos h2]
      simp
    · rw [if_neg h]
      congr 1
      simp only [List.mem_cons, exists_eq_or_imp, h, false_or]

theorem cancelAll_names (k : Nat) (l : List (Nat × Slot)) (s : State) :
    (l.foldl (fun t js => t.cancel k js) s).rs.map StationEntry.name = s.rs.map StationEntry.name ∧
      (l.foldl (fun t js => t.cancel k js) s).rob.length = s.rob.length ∧
      (l.foldl (fun t js => t.cancel k js) s).rs.length = s.rs.length := by
  induction l generalizing s with
  | nil => simp
  | cons js l ih =>
    obtain ⟨h1, h2, h3⟩ := ih (s.cancel k js)
    rw [List.foldl_cons, h1, h2, h3]
    refine ⟨?_, by simp, by simp⟩
    show (s.rs.map (clearIfDest js.2.renamedReg)).map StationEntry.name = _
    rw [List.map_map]
    congr 1
    funext e
    exact clearIfDest_name _ e

/-- The victims of a flush, by their slots in the state before the branch recorded its result. -/
theorem mem_victims_published {s : State} {k : Nat} {sl : Slot} (v : Value) (hk : s.slotAt k = some sl) {j : Nat} {x : Slot} :
    (j, x) ∈ ((s.recordResult k sl v).broadcast sl.renamedReg v).victims k sl.issueCycle ↔
      s.slotAt j = some x ∧ j ≠ k ∧ sl.issueCycle ≤ x.issueCycle := by
  rw [mem_victims, published_slotAt v hk]
  constructor
  · rintro ⟨h1, h2, h3⟩
    rw [if_neg h2] at h1
    exact ⟨h1, h2, h3⟩
  · rintro ⟨h1, h2, h3⟩
    rw [if_neg h2]
    exact ⟨h1, h2, h3⟩

theorem victims_sorted (k c : Nat) :
    (s.victims k c).Pairwise (fun a b => a.2.issueCycle ≤ b.2.issueCycle) := by
  unfold victims
  have := List.pairwise_insertionSort (fun a b : Nat × Slot => a.2.issueCycle ≤ b.2.issueCycle)
    (s.busySlots.filter (fun js => decide (js.1 ≠ k) && decide (c ≤ js.2.issueCycle)))
  exact this

/-! ## Memory -/

theorem effAddr_ok {n : Nat} {v : Value} {imm : Int} {a : Nat} (h : effAddr n v imm = .ok a) : a < n := by
  unfold effAddr at h
  dsimp only at h
  split at h
  · cases h
  · split at h
    · cases h
    · cases h
      omega

/-- What an opcode rule does to the memory: nothing, or the one write of an SD. -/
theorem ruleOf_mem {op : Opcode} {st : Station} {s s' : State} {v : Value} {b : Bool} (h : ruleOf op st s = .done v b s') :
    s'.mem = s.mem ∨
      (op = .sd ∧ ∃ a, effAddr s.cfg.memSize st.vj st.imm = .ok a ∧ s'.mem = s.mem.write a st.vk) := by
  cases op with
  | add => cases h; exact .inl rfl
  | sub => cases h; exact .inl rfl
  | mul => cases h; exact .inl rfl
  | div => cases h; exact .inl rfl
  | ld =>
    replace h : ruleLd st s = _ := h
    unfold ruleLd at h
    split at h <;> cases h
    exact .inl rfl
  | sd =>
    replace h : ruleSd st s = _ := h
    unfold ruleSd at h
    split at h <;> cases h
    exact .inr ⟨rfl, _, ‹_›, rfl⟩
  | beqz =>
    replace h : ruleBeqz st s = _ := h
    unfold ruleBeqz at h
    split at h <;> cases h <;> exact .inl rfl

/-- The stations after a candidate's write-result: each is as before with the result delivered, or free; the candidate's own
is free. -/
theorem finishWrite_station (sid k : Nat) (sl : Slot) (imm : Int) (v : Value) (taken : Bool) (s : State) (j : Nat) {st : Station}
    (h : (s.finishWrite sid k sl imm v taken).stationAt j = some st) :
    j ≠ sid ∧ ∃ w, s.stationAt j = some w ∧ st = deliver sl.renamedReg v w := by
  have key : ∀ u : State, (∀ a x, u.stationAt a = some x → ∃ w, s.stationAt a = some w ∧ x = deliver sl.renamedReg v w) →
      (u.clearStation sid).stationAt j = some st → j ≠ sid ∧ ∃ w, s.stationAt j = some w ∧ st = deliver sl.renamedReg v w := by
    intro u hu hj
    have hne : j ≠ sid := by
      rintro rfl
      unfold State.clearStation State.stationAt at hj
      dsimp only at hj
      rw [getElem?_setBody] at hj
      cases hx : u.rs[j]? <;> simp [hx] at hj
    refine ⟨hne, hu j st ?_⟩
    unfold State.clearStation State.stationAt at hj
    dsimp only at hj
    rw [getElem?_setBody] at hj
    unfold State.stationAt
    cases hx : u.rs[j]? with
    | none => simp [hx] at hj
    | some e => simpa [hx, hne] using hj
  have hp : ∀ a x, ((s.recordResult k sl v).broadcast sl.renamedReg v).stationAt a = some x →
      ∃ w, s.stationAt a = some w ∧ x = deliver sl.renamedReg v w := by
    intro a x hx
    rw [published_stationAt] at hx
    obtain ⟨w, h1, h2⟩ := Option.map_eq_some_iff.1 hx
    exact ⟨w, h1, h2.symm⟩
  cases taken with
  | false => exact key _ hp h
  | true =>
    refine key _ ?_ h
    intro a x hx
    have hx' : ((((s.recordResult k sl v).broadcast sl.renamedReg v).victims k sl.issueCycle).foldl
        (fun t js => t.cancel k js) ((s.recordResult k sl v).broadcast sl.renamedReg v)).stationAt a = some x := hx
    rw [cancelAll_stationAt] at hx'
    exact hp a x (Option.eq_some_of_filter_eq_some hx')

end State

end Sys2Proof.Machine
end

