-- ==== Sys2Proof/Laws/ChoiceLaws.lean ====
section
/-! SUPPORT. What the lookups choose: the free station, the youngest writer, the candidates; and what is left of a station list
after a candidate's write-result. -/

namespace Sys2Proof.Machine

open State

/-! ## The free station an issue takes (40_rename_issue.md R82, R92) -/

theorem freeStationFrom_none {cls : OpClass} (l : List StationEntry) (k : Nat) : freeStationFrom cls k l = none ↔ ∀ e ∈ l, e.name.cls = cls → e.body ≠ none := by
  induction l generalizing k with
  | nil => simp [freeStationFrom]
  | cons e l ih =>
    unfold freeStationFrom
    split
    · rename_i h; simp; intro h'; exact absurd h.2 (h' h.1)
    · rename_i h; rw [ih]; simp; intro _ h1 h2; exact h ⟨h1, h2⟩

theorem freeStation_none {s : State} {cls : OpClass} : s.freeStation cls = none ↔ ∀ j, j < s.rs.length → (s.stationName j).cls = cls → s.stationAt j ≠ none := by
  unfold State.freeStation
  rw [freeStationFrom_none]
  constructor
  · intro h j hj
    obtain ⟨a, b⟩ := stationAt_getElem hj
    rw [a, b]; exact h _ (List.getElem_mem hj)
  · intro h e he
    obtain ⟨j, hj, rfl⟩ := List.getElem_of_mem he
    obtain ⟨a, b⟩ := stationAt_getElem hj
    rw [← a, ← b]; exact h j hj

theorem freeStationFrom_first {cls : OpClass} (l : List StationEntry) (k sid : Nat) (hs : sid < l.length) (h1 : l[sid].name.cls = cls) (h2 : l[sid].body = none)
   (h3 : ∀ j (hj : j < sid), l[j].name.cls = cls → l[j].body ≠ none) : freeStationFrom cls k l = some (k + sid) := by
  induction l generalizing k sid with
  | nil => simp at hs
  | cons e l ih =>
    unfold freeStationFrom
    cases sid with
    | zero => simp at h1 h2; simp [h1, h2]
    | succ sid =>
      rw [if_neg]
      · have := ih (k + 1) sid (by simpa using hs) (by simpa using h1) (by simpa using h2) (fun j hj => by simpa using h3 (j + 1) (by omega))
        rw [this]; congr 1; omega
      · rintro ⟨a, b⟩; exact h3 0 (by omega) (by simpa using a) (by simpa using b)

theorem freeStation_first {s : State} {cls : OpClass} {sid : Nat} (hs : sid < s.rs.length) (h1 : (s.stationName sid).cls = cls) (h2 : s.stationAt sid = none)
   (h3 : ∀ j, j < sid → (s.stationName j).cls = cls → s.stationAt j ≠ none) : s.freeStation cls = some sid := by
  unfold State.freeStation
  have := freeStationFrom_first (cls := cls) s.rs 0 sid hs (by rw [← (stationAt_getElem hs).2]; exact h1) (by rw [← (stationAt_getElem hs).1]; exact h2)
    (fun j hj => by
      have hj' : j < s.rs.length := by omega
      rw [← (stationAt_getElem hj').1, ← (stationAt_getElem hj').2]; exact h3 j hj)
  simpa using this

/-- An issue that does not stall. -/
theorem issueInstr_ok {s : State} {i : Instr} {sid n : Nat} {rest : List Nat} (ht : s.slotAt s.tail = none)
    (hs : sid < s.rs.length) (h1 : (s.stationName sid).cls = i.opcode.cls) (h2 : s.stationAt sid = none)
    (h3 : ∀ j, j < sid → (s.stationName j).cls = i.opcode.cls → s.stationAt j ≠ none) (hf : s.freeList = n :: rest) :
    issueInstr i s = s.issued i sid n rest := by
  unfold issueInstr
  rw [ht, show i.cls = i.opcode.cls from rfl, freeStation_first hs h1 h2 h3, hf]

/-! ## The producer of a register (40_rename_issue.md R84, R85) -/

theorem youngestWriter_none (r : Nat) (l : List (Option Slot)) (h : ∀ sl, some sl ∈ l → sl.publicReg ≠ some r) : youngestWriter r l = none := by
  induction l with
  | nil => rfl
  | cons o l ih =>
    have := ih (fun sl hs => h sl (List.mem_cons_of_mem _ hs))
    cases o with
    | none => exact this
    | some sl => simp [youngestWriter, h sl (List.mem_cons_self ..), this]

theorem youngestWriter_mem (r : Nat) (l : List (Option Slot)) (b : Slot) (h : youngestWriter r l = some b) : some b ∈ l ∧ b.publicReg = some r := by
  induction l with
  | nil => cases h
  | cons o l ih =>
    cases o with
    | none => have := ih h; exact ⟨List.mem_cons_of_mem _ this.1, this.2⟩
    | some sl =>
      unfold youngestWriter at h
      split at h
      · rename_i hp
        split at h
        · cases h; exact ⟨List.mem_cons_self .., hp⟩
        · rename_i b' hb'
          split at h
          · cases h; exact ⟨List.mem_cons_self .., hp⟩
          · cases h; have := ih hb'; exact ⟨List.mem_cons_of_mem _ this.1, this.2⟩
      · have := ih h; exact ⟨List.mem_cons_of_mem _ this.1, this.2⟩

theorem youngestWriter_max (r : Nat) (l : List (Option Slot)) (k : Nat) (sl : Slot) (hk : l[k]? = some (some sl)) (hp : sl.publicReg = some r)
   (hm : ∀ j x, l[j]? = some (some x) → x.publicReg = some r → j ≠ k → x.issueCycle < sl.issueCycle) : youngestWriter r l = some sl := by
  induction l generalizing k with
  | nil => simp at hk
  | cons o l ih =>
    cases k with
    | zero =>
      simp at hk; subst hk
      unfold youngestWriter
      rw [if_pos hp]
      split
      · rfl
      · rename_i b hb
        obtain ⟨hb1, hb2⟩ := youngestWriter_mem r l b hb
        obtain ⟨j, hj⟩ := List.getElem?_of_mem hb1
        rw [if_pos (hm (j + 1) b (by simpa using hj) hb2 (by omega))]
    | succ k =>
      have := ih k (by simpa using hk) (fun j x hj hx hne => hm (j + 1) x (by simpa using hj) hx (by omega))
      cases o with
      | none => exact this
      | some a =>
        unfold youngestWriter
        rw [this]
        split
        · rename_i ha
          have := hm 0 a (by simp) ha (by omega)
          simp only
          rw [if_neg (by omega)]
        · rfl

namespace State

variable {s : State}

/-- The name an operand waits for is that of a busy slot that writes a register and has not written its result. -/
theorem operand_waits {src : Option Nat} {q : Nat} (h : (s.operand src).q = some q) :
    ∃ k sl, s.slotAt k = some sl ∧ sl.renamedReg = q ∧ sl.ready = false ∧ sl.publicReg ≠ none := by
  unfold State.operand at h
  split at h
  · rename_i r
    unfold State.resolve at h
    split at h
    · cases h
    · rename_i sl hy
      split at h
      · cases h
      · simp at h
        obtain ⟨h1, h2⟩ := Machine.youngestWriter_mem r _ _ hy
        obtain ⟨k, hk⟩ := List.getElem?_of_mem h1
        exact ⟨k, sl, slotAt_some.2 hk, h, by simpa using ‹¬sl.ready = true›, by simp [h2]⟩
  · cases h

/-! ## Candidates and stations -/

theorem mem_candidates {sid : Nat} : sid ∈ s.candidates ↔ ∃ st, s.stationAt sid = some st ∧ st.cyclesRemaining = 0 := by
  unfold candidates
  rw [List.mem_insertionSort, List.mem_filter, List.mem_range]
  unfold isCandidate
  constructor
  · rintro ⟨-, h⟩
    split at h
    · exact ⟨_, ‹_›, by simpa using h⟩
    · cases h
  · rintro ⟨st, h1, h2⟩
    refine ⟨stationAt_lt h1, ?_⟩
    simp [h1, h2]

theorem candidates_nodup : s.candidates.Nodup := by
  unfold candidates
  rw [(List.perm_insertionSort _ _).nodup_iff]
  exact List.nodup_range.filter _

end State

theorem isReady_iff (st : Station) : st.isReady = true ↔ st.qj = none ∧ st.qk = none := by
  simp [Station.isReady]

theorem finishWrite_stations {s : State} {sid k : Nat} {sl : Slot} {imm v taken} (hs : sid < s.rs.length) (j : Nat) (w : Station) (h : (s.finishWrite sid k sl imm v taken).stationAt j = some w) :
   j ≠ sid ∧ ∃ w', s.stationAt j = some w' ∧ w'.cyclesRemaining = w.cyclesRemaining := by
  have key : ∀ u : State, sid < u.rs.length → (u.clearStation sid).stationAt j = some w → j ≠ sid ∧ u.stationAt j = some w := by
    intro u hl h
    rw [stationAt_of_setBody (s := u) rfl hl] at h
    split at h
    · cases h
    · exact ⟨‹_›, h⟩
  have pub : ∀ w, ((s.recordResult k sl v).broadcast sl.renamedReg v).stationAt j = some w → ∃ w', s.stationAt j = some w' ∧ w'.cyclesRemaining = w.cyclesRemaining := by
    intro w h
    rw [published_stationAt] at h
    obtain ⟨w', h1, rfl⟩ := Option.map_eq_some_iff.1 h
    exact ⟨w', h1, rfl⟩
  unfold State.finishWrite at h
  cases taken with
  | false =>
    obtain ⟨h1, h2⟩ := key _ (by simpa using hs) h
    exact ⟨h1, pub w h2⟩
  | true =>
    obtain ⟨h1, h2⟩ := key _ (by show sid < (State.flushAndRedirect _ _ _ _).rs.length; rw [flushAndRedirect_rsLength]; simpa using hs) h
    refine ⟨h1, pub w ?_⟩
    have := cancelAll_stationAt k (((s.recordResult k sl v).broadcast sl.renamedReg v).victims k sl.issueCycle) ((s.recordResult k sl v).broadcast sl.renamedReg v) j
    have h2' : (List.foldl (fun t js => t.cancel k js) ((s.recordResult k sl v).broadcast sl.renamedReg v) (((s.recordResult k sl v).broadcast sl.renamedReg v).victims k sl.issueCycle)).stationAt j = some w := h2
    rw [this, Option.filter_eq_some_iff] at h2'
    exact h2'.1

/-- A recorded fault stays. -/
theorem writeResults_fault {l : List Nat} {s t : State} (h : s.faultRec.isSome) (e : writeResults l s = .next t) : t.faultRec.isSome := by
  cases l with
  | nil => cases e; exact h
  | cons a l => unfold writeResults at e; rw [if_pos h] at e; cases e; exact h

theorem countP_range (l : List StationEntry) (p : StationEntry → Bool) : (List.range l.length).countP (fun j => (l[j]?).any p) = l.countP p := by
  induction l using List.reverseRecOn with
  | nil => rfl
  | append_singleton l a ih =>
    rw [List.length_append, List.length_singleton, List.range_succ, List.countP_append, List.countP_append, ← ih]
    congr 1
    · apply List.countP_congr
      intro j hj
      rw [List.getElem?_append_left (List.mem_range.1 hj)]
    · simp

theorem executeStations_free (s : State) (h : ∀ sid, s.stationAt sid = none) (l : List Nat) : executeStations l s = .next s := by
  induction l with
  | nil => rfl
  | cons a l ih => rw [executeStations, executeStation, h a]; exact ih

theorem candidates_free (s : State) (h : ∀ sid, s.stationAt sid = none) : s.candidates = [] := by
  unfold State.candidates
  rw [show (List.range s.rs.length).filter (fun sid => s.isCandidate sid) = [] from ?_]
  · rfl
  · rw [List.filter_eq_nil_iff]
    intro a _; simp [State.isCandidate, h a]

end Sys2Proof.Machine
end

