-- ==== Sys2Proof/Laws/EncodeLaws.lean ====
section
/-! SUPPORT. The fields of a packed word, and what a legal word's fields say about its record. -/

namespace Sys2Proof

theorem packFields_toNat {opc rd rs1 rs2 imm : Nat} (h0 : opc < 16) (h1 : rd < 32) (h2 : rs1 < 32) (h3 : rs2 < 32)
    (h4 : imm < 4294967296) :
    (packFields opc rd rs1 rs2 imm).toNat = opc + rd * 16 + rs1 * 512 + rs2 * 16384 + imm * 4294967296 := by
  unfold packFields
  rw [BitVec.toNat_ofNat, Nat.mod_eq_of_lt (by omega)]

/-- Every field of a packed word reads back. -/
theorem packFields_fields {opc rd rs1 rs2 imm : Nat} (h0 : opc < 16) (h1 : rd < 32) (h2 : rs1 < 32) (h3 : rs2 < 32)
    (h4 : imm < 4294967296) :
    fieldOpc (packFields opc rd rs1 rs2 imm) = opc ∧ fieldRd (packFields opc rd rs1 rs2 imm) = rd ∧
      fieldRs1 (packFields opc rd rs1 rs2 imm) = rs1 ∧ fieldRs2 (packFields opc rd rs1 rs2 imm) = rs2 ∧
      fieldResv (packFields opc rd rs1 rs2 imm) = 0 ∧ fieldImm (packFields opc rd rs1 rs2 imm) = imm := by
  unfold fieldOpc fieldRd fieldRs1 fieldRs2 fieldResv fieldImm bits
  rw [packFields_toNat h0 h1 h2 h3 h4]
  norm_num
  omega

/-- A packed word is the disjunction of its shifted fields. -/
theorem packFields_eq_or {opc rd rs1 rs2 imm : Nat} (h0 : opc < 16) (h1 : rd < 32) (h2 : rs1 < 32) (h3 : rs2 < 32)
    (h4 : imm < 4294967296) :
    packFields opc rd rs1 rs2 imm = BitVec.ofNat 64 opc ||| BitVec.ofNat 64 rd <<< 4 |||
      BitVec.ofNat 64 rs1 <<< 9 ||| BitVec.ofNat 64 rs2 <<< 14 ||| BitVec.ofNat 64 imm <<< 32 := by
  apply BitVec.eq_of_toNat_eq
  rw [packFields_toNat h0 h1 h2 h3 h4]
  simp only [BitVec.toNat_or, BitVec.toNat_shiftLeft, BitVec.toNat_ofNat]
  have e : ∀ n k : Nat, n * 2 ^ k < 2 ^ 64 → (n % 2 ^ 64) <<< k % 2 ^ 64 = n * 2 ^ k := by
    intro n k h
    have : n < 2 ^ 64 := lt_of_le_of_lt (Nat.le_mul_of_pos_right n (by positivity)) h
    rw [Nat.mod_eq_of_lt this, Nat.shiftLeft_eq, Nat.mod_eq_of_lt h]
  have o : ∀ a b k : Nat, a < 2 ^ k → a ||| b * 2 ^ k = a + b * 2 ^ k := by
    intro a b k h
    rw [Nat.or_comm, ← Nat.shiftLeft_eq, ← Nat.shiftLeft_add_eq_or_of_lt h, Nat.add_comm]
  rw [e rd 4 (by omega), e rs1 9 (by omega), e rs2 14 (by omega), e imm 32 (by omega),
    Nat.mod_eq_of_lt (show opc < 2 ^ 64 by omega), o _ _ 4 (by omega), o _ _ 9 (by omega), o _ _ 14 (by omega),
    o _ _ 32 (by omega)]
  omega

/-- A word whose reserved bits are 0 is packed from its own fields. -/
theorem packFields_of_fields {w : InstrWord} (h : fieldResv w = 0) :
    packFields (fieldOpc w) (fieldRd w) (fieldRs1 w) (fieldRs2 w) (fieldImm w) = w := by
  apply BitVec.eq_of_toNat_eq
  have hw := w.isLt
  unfold fieldOpc fieldRd fieldRs1 fieldRs2 fieldResv fieldImm bits at *
  norm_num at *
  rw [packFields_toNat] <;> omega

theorem fieldOpc_lt (w : InstrWord) : fieldOpc w < 16 := Nat.mod_lt _ (by norm_num)
theorem fieldRd_lt (w : InstrWord) : fieldRd w < 32 := Nat.mod_lt _ (by norm_num)
theorem fieldRs1_lt (w : InstrWord) : fieldRs1 w < 32 := Nat.mod_lt _ (by norm_num)
theorem fieldRs2_lt (w : InstrWord) : fieldRs2 w < 32 := Nat.mod_lt _ (by norm_num)
theorem fieldImm_lt (w : InstrWord) : fieldImm w < 4294967296 := Nat.mod_lt _ (by norm_num)

theorem immField_lt (imm : Int) : immField imm < 4294967296 := by
  unfold immField
  omega

theorem sext32_immField {imm : Int} (h : immInRange imm = true) : sext32 (immField imm) = imm := by
  simp [immInRange] at h
  unfold sext32 immField
  split <;> omega

theorem immField_sext32 {v : Nat} (h : v < 4294967296) : immField (sext32 v) = v := by
  unfold sext32 immField
  split <;> omega

theorem sext32_inRange {v : Nat} (h : v < 4294967296) : immInRange (sext32 v) = true := by
  unfold sext32 immInRange
  simp only [Bool.and_eq_true, decide_eq_true_eq]
  split <;> omega

theorem opcodeOfNumber_number (op : Opcode) : opcodeOfNumber op.number = some op := by
  cases op <;> rfl

theorem opcodeOfNumber_some {n : Nat} {op : Opcode} (h : opcodeOfNumber n = some op) : n = op.number := by
  unfold opcodeOfNumber at h
  split at h <;> first | cases h; rfl | cases h

/-- What a legal word says: the checks of 30_encoding.md R69 all pass. -/
theorem decode_ok {narch : Nat} {w : InstrWord} {i : Instr} (h : decode narch w = .ok i) :
    ∃ op, opcodeOfNumber (fieldOpc w) = some op ∧ fieldResv w = 0 ∧ unusedFieldSet op w = false ∧
      i = recordOf op w ∧ registersInRange narch i = true ∧ targetTooLow i = false := by
  unfold decode at h
  split at h
  · cases h
  · rename_i op ho
    split_ifs at h with h1 h2 h3 h4
    cases h
    exact ⟨op, ho, by simpa using h1, by simpa using h2, rfl, by simpa using h3, by simpa using h4⟩

/-- The decoder answers the record when the checks pass. -/
theorem decode_of_checks {narch : Nat} {w : InstrWord} {op : Opcode} (ho : opcodeOfNumber (fieldOpc w) = some op)
    (h1 : fieldResv w = 0) (h2 : unusedFieldSet op w = false) (h3 : registersInRange narch (recordOf op w) = true)
    (h4 : targetTooLow (recordOf op w) = false) : decode narch w = .ok (recordOf op w) := by
  unfold decode
  rw [ho]
  simp [h1, h2, h3, h4]

end Sys2Proof
end

