-- ==== Sys2Proof/Laws/ExecuteLaws.lean ====
section
/-! SUPPORT. Everything the execute phase does to a consistent state (41_execute.md R100 to R106): the visit of one station, and by
induction the visits of a list of stations. -/

namespace Sys2Proof.Machine

/-- A station after its visit (41_execute.md R102, R104). -/
def Station.visited (st : Station) : Station :=
  if st.qj = none ∧ st.qk = none then { st with cyclesRemaining := st.cyclesRemaining - 1 } else st

/-- The slot of a station after the station's visit in cycle `c` (41_execute.md R102, R103). -/
def Slot.visited (sl : Slot) (st : Station) (c : Nat) : Slot :=
  if st.qj = none ∧ st.qk = none ∧ 0 < st.cyclesRemaining then
    { sl with
      state := if st.cyclesRemaining = 1 then .executed else if sl.state = .processing then .executing else sl.state
      execCycle := if sl.state = .processing then c else sl.execCycle }
  else sl

@[simp] theorem Station.visited_dest (st : Station) : st.visited.dest = st.dest := by
  unfold Station.visited; split <;> rfl

@[simp] theorem Slot.visited_renamedReg (sl : Slot) (st : Station) (c : Nat) : (sl.visited st c).renamedReg = sl.renamedReg := by
  unfold Slot.visited; split <;> rfl

/-- With nothing to count down, the visit leaves the station as it is. -/
theorem Station.visited_eq {st : Station} (h : st.cyclesRemaining = 0) : st.visited = st := by
  unfold Station.visited; split
  · rw [h]; cases st; simp_all
  · rfl

/-- With nothing to count down, the visit leaves the slot as it is. -/
theorem Slot.visited_eq {st : Station} (h : st.cyclesRemaining = 0) (sl : Slot) (c : Nat) : sl.visited st c = sl := by
  unfold Slot.visited; rw [if_neg (by omega)]

theorem Station.isReady_iff (st : Station) : st.isReady = true ↔ st.qj = none ∧ st.qk = none := by
  simp [Station.isReady]

namespace State

/-- The station at `sid` is busy and waits for an operand. -/
def waitingAt (s : State) (sid : Nat) : Bool := (s.stationAt sid).any (fun st => st.qj.isSome || st.qk.isSome)

/-- `t` is `s` after the visits of the stations in `l`. -/
structure VisitedTo (s t : State) (l : List Nat) : Prop where
  stations : ∀ sid, t.stationAt sid = if sid ∈ l then (s.stationAt sid).map Station.visited else s.stationAt sid
  names : t.rs.map StationEntry.name = s.rs.map StationEntry.name
  owned : ∀ sid st k sl, s.stationAt sid = some st → s.slotAt k = some sl → sl.renamedReg = st.dest →
    t.slotAt k = some (if sid ∈ l then sl.visited st s.currentCycle else sl)
  unowned : ∀ k sl, s.slotAt k = some sl → (∀ sid st, s.stationAt sid = some st → st.dest ≠ sl.renamedReg) →
    t.slotAt k = some sl
  free : ∀ k, s.slotAt k = none → t.slotAt k = none
  robLength : t.rob.length = s.rob.length
  finished : ∀ i, (∃ sid ∈ l, ∃ k, s.FinishesExecute sid k i) → t.status[i]? = some Status.executed
  unfinished : ∀ i, (¬∃ sid ∈ l, ∃ k, s.FinishesExecute sid k i) → t.status[i]? = s.status[i]?
  bubbles : t.bubbleCount = s.bubbleCount + l.countP s.waitingAt
  log : t.log = s.log ++ l.filterMap s.executeEvent
  rest : t = { s with rs := t.rs, rob := t.rob, status := t.status, bubbleCount := t.bubbleCount, log := t.log }

variable {s t u : State}

theorem VisitedTo.nil (s : State) : s.VisitedTo s [] := by
  refine ⟨fun _ => by simp, rfl, fun _ _ _ _ _ h _ => by simpa using h, fun _ _ h _ => h, fun _ h => h, rfl, ?_, fun _ _ => rfl,
    rfl, by simp, rfl⟩
  rintro i ⟨sid, h, -⟩; cases h

/-- A visit that changes nothing, as it should: the station is free, or its counter is 0. -/
theorem VisitedTo.idle {a : Nat} (h : ∀ st, s.stationAt a = some st → (st.qj = none ∧ st.qk = none) ∧ st.cyclesRemaining = 0) :
    s.VisitedTo s [a] := by
  have hf : ∀ k i, ¬s.FinishesExecute a k i := by
    rintro k i ⟨st, sl, h1, -, -, h2, -⟩
    rw [(h st h1).2] at h2; cases h2
  refine ⟨fun sid => ?_, rfl, fun sid st k sl h1 h2 _ => ?_, fun _ _ h _ => h, fun _ h => h, rfl, ?_, fun _ _ => rfl, ?_, ?_, rfl⟩
  · split
    · rename_i hm; obtain rfl := List.mem_singleton.1 hm
      cases hst : s.stationAt sid with
      | none => rfl
      | some st => simp [Station.visited_eq (h st hst).2]
    · rfl
  · split
    · rename_i hm; obtain rfl := List.mem_singleton.1 hm
      rw [Slot.visited_eq (h st h1).2]; exact h2
    · exact h2
  · rintro i ⟨sid, hm, k, hk⟩
    obtain rfl := List.mem_singleton.1 hm
    exact absurd hk (hf k i)
  · have : s.waitingAt a = false := by
      unfold waitingAt
      cases hst : s.stationAt a with
      | none => rfl
      | some st => simp [(h st hst).1]
    simp [this]
  · have : s.executeEvent a = none := by
      unfold executeEvent
      cases hst : s.stationAt a with
      | none => rfl
      | some st => simp [(h st hst).1, (h st hst).2]
    simp [this]

/-- The visit of a station that waits for an operand. -/
theorem VisitedTo.waits {a : Nat} {st : Station} (hst : s.stationAt a = some st) (hn : ¬(st.qj = none ∧ st.qk = none)) :
    s.VisitedTo (s.waits a st) [a] := by
  have hf : ∀ k i, ¬s.FinishesExecute a k i := by
    rintro k i ⟨st', sl, h1, h2, h3, -⟩
    rw [hst] at h1; cases h1; exact hn ⟨h2, h3⟩
  refine ⟨fun sid => ?_, rfl, fun sid st' k sl h1 h2 _ => ?_, fun _ _ h _ => h, fun _ h => h, rfl, ?_, fun _ _ => rfl, ?_, ?_, rfl⟩
  · split
    · rename_i hm; obtain rfl := List.mem_singleton.1 hm
      rw [hst, Option.map_some, Station.visited, if_neg hn]; exact hst
    · rfl
  · split
    · rename_i hm; obtain rfl := List.mem_singleton.1 hm
      rw [hst] at h1; cases h1
      rw [Slot.visited, if_neg (fun h => hn ⟨h.1, h.2.1⟩)]; exact h2
    · exact h2
  · rintro i ⟨sid, hm, k, hk⟩
    obtain rfl := List.mem_singleton.1 hm
    exact absurd hk (hf k i)
  · have : s.waitingAt a = true := by
      unfold waitingAt; rw [hst]
      cases h1 : st.qj <;> cases h2 : st.qk <;> simp_all
    simp [this]
  · have : s.executeEvent a = some (s.waitEvent a st) := by
      unfold executeEvent waitEvent; rw [hst]
      cases h1 : st.qj <;> cases h2 : st.qk <;> simp_all
    simp [this]

/-- The visit of a ready station that counts down. -/
theorem VisitedTo.executed (h : s.Consistent) {a k : Nat} {st : Station} {sl : Slot} (hst : s.stationAt a = some st)
    (hr : st.qj = none ∧ st.qk = none) (h0 : st.cyclesRemaining ≠ 0) (ho : s.owner st.dest = some (k, sl)) :
    s.VisitedTo (s.executed a st k sl) [a] := by
  obtain ⟨hk, hn⟩ := owner_some ho
  have hlt : sl.instr < s.status.length := by rw [h.shape.statusLen]; exact (h.slotsOk k sl hk).instrLt
  have hstat : (s.executed a st k sl).status = if st.cyclesRemaining = 1 then s.status.set sl.instr Status.executed else s.status := by
    by_cases h1 : st.cyclesRemaining = 1 <;> simp [State.executed, h1]
  have hfin : ∀ i, (∃ sid ∈ [a], ∃ k, s.FinishesExecute sid k i) ↔ st.cyclesRemaining = 1 ∧ sl.instr = i := by
    intro i
    constructor
    · rintro ⟨sid, hm, j, st', x, h1, -, -, h4, h5, h6, h7⟩
      obtain rfl := List.mem_singleton.1 hm
      rw [hst] at h1; cases h1
      obtain ⟨-, rfl⟩ := (h.soundBut none).slot_unique h5 hk (h6.trans hn.symm)
      exact ⟨h4, h7⟩
    · rintro ⟨h1, h2⟩
      exact ⟨a, List.mem_singleton.2 rfl, k, st, sl, hst, hr.1, hr.2, h1, hk, hn, h2⟩
  refine ⟨fun sid => ?_, ?_, fun sid st' j x h1 h2 h3 => ?_, fun j x h1 h2 => ?_, fun j hj => ?_, ?_, fun i hi => ?_,
    fun i hi => ?_, ?_, ?_, rfl⟩
  · rw [executed_stationAt hst]
    by_cases hs : sid = a
    · subst hs; rw [if_pos rfl, if_pos (List.mem_singleton.2 rfl), hst, Option.map_some, Station.visited, if_pos hr]
    · rw [if_neg hs, if_neg (by simpa using hs)]
  · exact setBody_names s.rs a _
  · rw [executed_slotAt a st hk]
    by_cases hs : sid = a
    · subst hs; rw [hst] at h1; cases h1
      obtain ⟨rfl, rfl⟩ := (h.soundBut none).slot_unique h2 hk (h3.trans hn.symm)
      have hp : st.qj = none ∧ st.qk = none ∧ 0 < st.cyclesRemaining := ⟨hr.1, hr.2, by omega⟩
      rw [if_pos rfl, if_pos (List.mem_singleton.2 rfl)]
      simp only [Slot.visited, if_pos hp, decide_eq_true_eq]
    · have hjk : j ≠ k := by
        rintro rfl; rw [hk] at h2; cases h2
        exact hs (h.distinct sid a st' st h1 hst (h3.symm.trans hn))
      rw [if_neg hjk, if_neg (by simpa using hs), h2]
  · rw [executed_slotAt a st hk, if_neg, h1]
    rintro rfl; rw [hk] at h1; cases h1
    exact h2 a st hst hn.symm
  · rw [executed_slotAt a st hk, if_neg, hj]
    rintro rfl; rw [hk] at hj; cases hj
  · simp [State.executed]
  · obtain ⟨h1, rfl⟩ := (hfin i).1 hi
    rw [hstat, if_pos h1, List.getElem?_set_self hlt]
  · rw [hfin] at hi
    rw [hstat]
    split
    · rename_i h1
      rw [List.getElem?_set_ne (fun e => hi ⟨h1, e⟩)]
    · rfl
  · have : s.waitingAt a = false := by unfold waitingAt; rw [hst]; simp [hr.1, hr.2]
    simp [this, State.executed]
  · have : s.executeEvent a = if st.cyclesRemaining = 1 then some (Event.execDone s.currentCycle k) else none := by
      unfold executeEvent; rw [hst]; simp [hr.1, hr.2, ho]
    by_cases h1 : st.cyclesRemaining = 1 <;> simp [this, h1, State.executed]

/-- The visit of one station of a consistent state. -/
theorem Consistent.visit (h : s.Consistent) (a : Nat) : ∃ u, Sys2Proof.Machine.executeStation a s = .next u ∧ s.VisitedTo u [a] ∧ u.Consistent := by
  obtain ⟨u, e, hu⟩ := Consistent.executeStation h a
  refine ⟨u, e, ?_, hu⟩
  unfold Sys2Proof.Machine.executeStation at e
  split at e
  · rename_i hst
    cases e; exact VisitedTo.idle fun st h' => by rw [hst] at h'; cases h'
  · rename_i st hst
    split at e
    · rename_i hr
      have hr' := (Station.isReady_iff st).1 hr
      split at e
      · rename_i h0
        cases e; exact VisitedTo.idle fun st' h' => by rw [hst] at h'; cases h'; exact ⟨hr', h0⟩
      · rename_i h0
        split at e
        · cases e
        · rename_i k sl ho
          cases e; exact VisitedTo.executed h hst hr' h0 ho
    · rename_i hr
      cases e; exact VisitedTo.waits hst (fun hr' => hr ((Station.isReady_iff st).2 hr'))

/-- What a visit of `a` leaves of the other stations: whether they finish, wait, and what they log. -/
theorem VisitedTo.others {a b : Nat} (h : s.Consistent) (hu : u.Consistent) (v : s.VisitedTo u [a]) (hb : b ≠ a) :
    (∀ k i, u.FinishesExecute b k i ↔ s.FinishesExecute b k i) ∧ u.waitingAt b = s.waitingAt b ∧
      u.executeEvent b = s.executeEvent b := by
  have hst : u.stationAt b = s.stationAt b := by rw [v.stations, if_neg (by simpa using hb)]
  have hc : u.currentCycle = s.currentCycle := by rw [v.rest]
  have hnm : u.stationName b = s.stationName b := by
    have := congrArg (fun l => l[b]?) v.names
    simp only [List.getElem?_map] at this
    unfold stationName
    cases h1 : u.rs[b]? <;> cases h2 : s.rs[b]? <;> simp_all
  have hsl : ∀ st, s.stationAt b = some st → ∀ k sl, sl.renamedReg = st.dest → (u.slotAt k = some sl ↔ s.slotAt k = some sl) := by
    intro st h1 k sl hd
    have fwd : ∀ k sl, s.slotAt k = some sl → sl.renamedReg = st.dest → u.slotAt k = some sl := by
      intro k sl h2 hd
      have := v.owned b st k sl h1 h2 hd
      rwa [if_neg (by simpa using hb)] at this
    refine ⟨fun h2 => ?_, fun h2 => fwd k sl h2 hd⟩
    obtain ⟨k0, sl0, g1, g2, -⟩ := h.links b st h1
    obtain ⟨rfl, rfl⟩ := (hu.soundBut none).slot_unique h2 (fwd k0 sl0 g1 g2) (hd.trans g2.symm)
    exact g1
  refine ⟨fun k i => ?_, by unfold waitingAt; rw [hst], ?_⟩
  · unfold FinishesExecute
    rw [hst]
    constructor
    · rintro ⟨st, sl, h1, h2, h3, h4, h5, h6, h7⟩
      exact ⟨st, sl, h1, h2, h3, h4, (hsl st h1 k sl h6).1 h5, h6, h7⟩
    · rintro ⟨st, sl, h1, h2, h3, h4, h5, h6, h7⟩
      exact ⟨st, sl, h1, h2, h3, h4, (hsl st h1 k sl h6).2 h5, h6, h7⟩
  · unfold executeEvent
    rw [hst, hc, hnm]
    cases hb' : s.stationAt b with
    | none => rfl
    | some st =>
      obtain ⟨k, sl, g, g1, g2, -⟩ := (h.soundBut none).owner_of_link (h.links b st hb')
      have : u.owner st.dest = some (k, sl) := by
        rw [← g2]; exact (hu.soundBut none).owner_of_slot ((hsl st hb' k sl g2).2 g1)
      have e : u.owner st.dest = s.owner st.dest := this.trans g.symm
      simp only [e, Option.bind_some]

/-- The visit of `a` and then of the stations in `l`, none of which is `a`. -/
theorem VisitedTo.cons {a : Nat} {l : List Nat} (h : s.Consistent) (hu : u.Consistent) (ha : a ∉ l) (v : s.VisitedTo u [a])
    (w : u.VisitedTo t l) : s.VisitedTo t (a :: l) := by
  have ne : ∀ b ∈ l, b ≠ a := fun b hb e => ha (e ▸ hb)
  have hc : u.currentCycle = s.currentCycle := by rw [v.rest]
  have hfin : ∀ i, (∃ sid ∈ l, ∃ k, u.FinishesExecute sid k i) ↔ ∃ sid ∈ l, ∃ k, s.FinishesExecute sid k i := by
    intro i
    constructor
    · rintro ⟨b, hb, k, hk⟩; exact ⟨b, hb, k, ((v.others h hu (ne b hb)).1 k i).1 hk⟩
    · rintro ⟨b, hb, k, hk⟩; exact ⟨b, hb, k, ((v.others h hu (ne b hb)).1 k i).2 hk⟩
  refine ⟨fun sid => ?_, w.names.trans v.names, fun sid st k sl h1 h2 h3 => ?_, fun k sl h1 h2 => ?_,
    fun k hk => w.free k (v.free k hk), w.robLength.trans v.robLength, fun i hi => ?_, fun i hi => ?_, ?_, ?_, ?_⟩
  · rw [w.stations, v.stations]
    by_cases h1 : sid = a
    · subst h1; simp [ha]
    · simp [h1]
  · have g1 := v.owned sid st k sl h1 h2 h3
    by_cases hs : sid = a
    · subst hs
      rw [if_pos (List.mem_singleton.2 rfl)] at g1
      have hst : u.stationAt sid = some st.visited := by rw [v.stations]; simp [h1]
      have := w.owned sid _ k _ hst g1 (by simpa using h3)
      rw [if_neg ha] at this
      rw [if_pos (List.mem_cons_self ..)]; exact this
    · rw [if_neg (by simpa using hs)] at g1
      have hst : u.stationAt sid = some st := by rw [v.stations]; simp [hs, h1]
      rw [w.owned sid st k sl hst g1 h3, hc]
      simp [hs]
  · refine w.unowned k sl (v.unowned k sl h1 h2) fun sid st' h' => ?_
    rw [v.stations] at h'
    split at h'
    · obtain ⟨st, g1, rfl⟩ := Option.map_eq_some_iff.1 h'
      rw [Station.visited_dest]; exact h2 sid st g1
    · exact h2 sid st' h'
  · by_cases hl : ∃ sid ∈ l, ∃ k, s.FinishesExecute sid k i
    · exact w.finished i ((hfin i).2 hl)
    · rw [w.unfinished i (fun h => hl ((hfin i).1 h))]
      obtain ⟨sid, hm, hk⟩ := hi
      rcases List.mem_cons.1 hm with rfl | hm
      · exact v.finished i ⟨sid, List.mem_singleton.2 rfl, hk⟩
      · exact absurd ⟨sid, hm, hk⟩ hl
  · rw [w.unfinished i, v.unfinished i]
    · rintro ⟨sid, hm, hk⟩
      obtain rfl := List.mem_singleton.1 hm
      exact hi ⟨sid, List.mem_cons_self .., hk⟩
    · rintro hl
      obtain ⟨sid, hm, hk⟩ := (hfin i).1 hl
      exact hi ⟨sid, List.mem_cons_of_mem _ hm, hk⟩
  · have : l.countP u.waitingAt = l.countP s.waitingAt := List.countP_congr fun b hb => by rw [(v.others h hu (ne b hb)).2.1]
    rw [w.bubbles, v.bubbles, this, Nat.add_assoc, ← List.countP_append]
    rfl
  · rw [w.log, v.log, List.append_assoc]
    congr 1
    rw [List.filterMap_congr (fun b hb => (v.others h hu (ne b hb)).2.2), ← List.filterMap_append]
    rfl
  · have h1 := v.rest
    have h2 := w.rest
    rw [h1] at h2
    exact h2

/-- The visits of the stations in `l`, each once, of a consistent state. -/
theorem Consistent.visits (l : List Nat) : ∀ {s : State}, s.Consistent → l.Nodup →
    ∃ t, Sys2Proof.Machine.executeStations l s = .next t ∧ s.VisitedTo t l := by
  induction l with
  | nil => intro s _ _; exact ⟨s, rfl, VisitedTo.nil s⟩
  | cons a l ih =>
    intro s h hn
    obtain ⟨ha, hl⟩ := List.nodup_cons.1 hn
    obtain ⟨u, e1, v, hu⟩ := h.visit a
    obtain ⟨t, e2, w⟩ := ih hu hl
    exact ⟨t, by unfold Sys2Proof.Machine.executeStations; rw [e1]; exact e2, VisitedTo.cons h hu ha v w⟩

/-- The whole execute phase of a consistent state (41_execute.md R106). -/
theorem Consistent.visitsAll (h : s.Consistent) : ∃ t, Sys2Proof.Machine.executePhase s = .next t ∧ s.VisitedTo t (List.range s.rs.length) :=
  h.visits _ List.nodup_range

end State

end Sys2Proof.Machine
end

