-- ==== Sys2Proof/Laws/FloatLaws.lean ====
section
/-! SUPPORT. The binary32 primitives: the fields of a packed Value, and one correct rounding (45_arith.md R164). -/

namespace Sys2Proof.F32

/-! ## Fields of a packed Value -/

theorem pack_toNat {n : Bool} {m : Nat} (hm : m < 2147483648) :
    (pack n m).toNat = (if n then 2147483648 else 0) + m := by
  unfold pack
  rw [BitVec.toNat_ofNat]
  cases n <;> simp <;> omega

theorem pack_even {n : Bool} {m : Nat} (hm : m < 2147483648) (h : m % 2 = 0) : (pack n m).toNat % 2 = 0 := by
  rw [pack_toNat hm]
  cases n
  · simpa using h
  · simp; omega

theorem sign_pack {n : Bool} {m : Nat} (hm : m < 2147483648) : sign (pack n m) = n := by
  unfold sign
  rw [pack_toNat hm]
  cases n
  · simp; omega
  · simp

theorem expField_pack {n : Bool} {m : Nat} (hm : m < 2147483648) : expField (pack n m) = m / 8388608 := by
  unfold expField
  rw [pack_toNat hm]
  cases n
  · simp; omega
  · simp; omega

theorem fracField_pack {n : Bool} {m : Nat} (hm : m < 2147483648) : fracField (pack n m) = m % 8388608 := by
  unfold fracField
  rw [pack_toNat hm]
  cases n
  · simp
  · simp; omega

/-- Every Value is its sign and the 31 bits below it. -/
theorem pack_eta (v : Value) : v = pack (sign v) (v.toNat % 2147483648) := by
  apply BitVec.eq_of_toNat_eq
  rw [pack_toNat (Nat.mod_lt _ (by decide))]
  unfold sign
  have := v.isLt
  by_cases h : 2147483648 ≤ v.toNat <;> simp [h] <;> omega

/-- The magnitude of the 31 bits `m` in units of 2^−149; infinities continue the scale. -/
def unitsOf (m : Nat) : Nat :=
  if m / 8388608 = 0 then m % 8388608 else (8388608 + m % 8388608) * 2 ^ (m / 8388608 - 1)

theorem units_pack {n : Bool} {m : Nat} (hm : m < 2147483648) : units (pack n m) = unitsOf m := by
  unfold units unitsOf
  rw [expField_pack hm, fracField_pack hm]

theorem signedUnits_pack {n : Bool} {m : Nat} (hm : m < 2147483648) :
    signedUnits (pack n m) = if n then -(unitsOf m : Int) else (unitsOf m : Int) := by
  unfold signedUnits
  rw [sign_pack hm, units_pack hm]

theorem isFinite_pack {n : Bool} {m : Nat} (hm : m < 2147483648) : isFinite (pack n m) = true ↔ m < infMagnitude := by
  unfold isFinite infMagnitude
  rw [expField_pack hm]
  simp; omega

theorem isInf_pack {n : Bool} {m : Nat} (hm : m < 2147483648) : isInf (pack n m) = true ↔ m = infMagnitude := by
  unfold isInf infMagnitude
  rw [expField_pack hm, fracField_pack hm]
  simp; omega

theorem isNaN_pack {n : Bool} {m : Nat} (hm : m < 2147483648) : isNaN (pack n m) = true ↔ infMagnitude < m := by
  unfold isNaN infMagnitude
  rw [expField_pack hm, fracField_pack hm]
  simp; omega

theorem isZero_pack {n : Bool} {m : Nat} (hm : m < 2147483648) : isZero (pack n m) = true ↔ m = 0 := by
  unfold isZero
  rw [expField_pack hm, fracField_pack hm]
  simp; omega

/-- A finite Value is packed from bits below an infinity's. -/
theorem exists_pack_of_finite {v : Value} (h : isFinite v = true) :
    ∃ m, m < infMagnitude ∧ v = pack (sign v) m := by
  refine ⟨_, ?_, pack_eta v⟩
  rw [pack_eta v] at h
  exact (isFinite_pack (Nat.mod_lt _ (by decide))).mp h

theorem infMagnitude_lt : infMagnitude < 2147483648 := by decide

/-! ## The scale of magnitudes -/

/-- The `q`-th step of weight `2 ^ s` on the scale. -/
theorem unitsOf_step {s q : Nat} (h1 : s = 0 ∨ 8388608 ≤ q) (h2 : q ≤ 16777216) :
    unitsOf (s * 8388608 + q) = q * 2 ^ s := by
  unfold unitsOf
  by_cases ha : q < 8388608
  · have hs : s = 0 := by omega
    subst hs
    rw [if_pos (by omega)]
    simp; omega
  · by_cases hb : q < 16777216
    · have e1 : (s * 8388608 + q) / 8388608 = s + 1 := by omega
      have e2 : (s * 8388608 + q) % 8388608 = q - 8388608 := by omega
      rw [e1, e2, if_neg (by omega)]
      have : 8388608 + (q - 8388608) = q := by omega
      rw [this]; simp
    · have hq : q = 16777216 := by omega
      subst hq
      have e1 : (s * 8388608 + 16777216) / 8388608 = s + 2 := by omega
      have e2 : (s * 8388608 + 16777216) % 8388608 = 0 := by omega
      rw [e1, e2, if_neg (by omega)]
      have : s + 2 - 1 = s + 1 := by omega
      rw [this, pow_succ]; ring

theorem unitsOf_lt_succ (m : Nat) : unitsOf m < unitsOf (m + 1) := by
  by_cases h : m < 8388608
  · have e1 := unitsOf_step (s := 0) (q := m) (.inl rfl) (by omega)
    have e2 := unitsOf_step (s := 0) (q := m + 1) (.inl rfl) (by omega)
    simp at e1 e2
    omega
  · obtain ⟨s, q, hm, hq1, hq2⟩ : ∃ s q, m = s * 8388608 + q ∧ 8388608 ≤ q ∧ q < 16777216 :=
      ⟨m / 8388608 - 1, m % 8388608 + 8388608, by omega, by omega, by omega⟩
    subst hm
    rw [unitsOf_step (.inr hq1) (by omega), Nat.add_assoc,
      unitsOf_step (.inr (by omega)) (by omega)]
    exact Nat.mul_lt_mul_of_pos_right (Nat.lt_succ_self q) (by positivity)

theorem unitsOf_strictMono : StrictMono unitsOf := strictMono_nat_of_lt_succ unitsOf_lt_succ

/-! ## Rounding -/

/-- Where `roundUnits` puts `num / den`: between two neighbours `q` and `q + 1` of the scale, the lower one kept exactly when it
is nearer, or as near and even. -/
theorem roundUnits_cases (num : Nat) {den : Nat} (hd : 0 < den) :
    ∃ s q r, (s = 0 ∨ 8388608 ≤ q) ∧ q < 16777216 ∧ num = q * 2 ^ s * den + r ∧ r < 2 ^ s * den ∧
      ((2 * r < 2 ^ s * den ∨ 2 * r = 2 ^ s * den ∧ q % 2 = 0) ∧ roundUnits num den = min (s * 8388608 + q) infMagnitude ∨
        (2 ^ s * den < 2 * r ∨ 2 * r = 2 ^ s * den ∧ q % 2 = 1) ∧
          roundUnits num den = min (s * 8388608 + (q + 1)) infMagnitude) := by
  set s := Nat.log2 (num / den) - 23 with hs
  have hp : 0 < 2 ^ s := by positivity
  have hdp : 0 < 2 ^ s * den := by positivity
  have hdm := Nat.div_add_mod num (2 ^ s * den)
  have hq : num / (2 ^ s * den) = num / den / 2 ^ s := by rw [Nat.mul_comm, Nat.div_div_eq_div_mul]
  refine ⟨s, num / (2 ^ s * den), num % (2 ^ s * den), ?_, ?_, ?_, Nat.mod_lt _ hdp, ?_⟩
  · by_cases h : s = 0
    · exact .inl h
    · right
      rw [hq]
      have hne : num / den ≠ 0 := by intro h0; rw [h0] at hs; simp at hs; exact h hs
      have := Nat.log2_self_le hne
      rw [Nat.le_div_iff_mul_le hp]
      have e : Nat.log2 (num / den) = 23 + s := by omega
      rw [e, pow_add] at this
      exact this
  · rw [hq, Nat.div_lt_iff_lt_mul hp]
    have h := Nat.lt_log2_self (n := num / den)
    have : 2 ^ (Nat.log2 (num / den) + 1) ≤ 2 ^ (24 + s) := Nat.pow_le_pow_right (by decide) (by omega)
    rw [Nat.pow_add 2 24 s] at this
    exact lt_of_lt_of_le h this
  · rw [Nat.mul_assoc, Nat.mul_comm (num / (2 ^ s * den))]; exact hdm.symm
  · unfold roundUnits
    simp only [← hs, Nat.mul_comm den (2 ^ s)]
    generalize 2 ^ s * den = d at *
    generalize num / d = q at *
    generalize num % d = r at *
    by_cases h1 : d < 2 * r
    · right; simp [h1]
    · by_cases h2 : 2 * r = d
      · rcases Nat.mod_two_eq_zero_or_one q with h | h <;> simp [h, h2]
      · left; simp [h1, h2]; omega

/-- No finite magnitude is nearer to `num / den` than the rounded one, and one as near means that the rounded one is even
(45_arith.md R164 (b)). -/
theorem roundUnits_nearest (num : Nat) {den : Nat} (hd : 0 < den) (hf : roundUnits num den < infMagnitude) (m : Nat) :
    ((num : Int) - unitsOf (roundUnits num den) * den).natAbs ≤ ((num : Int) - unitsOf m * den).natAbs ∧
      (((num : Int) - unitsOf (roundUnits num den) * den).natAbs = ((num : Int) - unitsOf m * den).natAbs →
        unitsOf m ≠ unitsOf (roundUnits num den) → roundUnits num den % 2 = 0) := by
  obtain ⟨s, q, r, h1, h2, h3, h4, h5⟩ := roundUnits_cases num hd
  have e0 := unitsOf_step h1 (Nat.le_of_lt h2)
  have e1 := unitsOf_step (s := s) (q := q + 1) (h1.imp id Nat.le_succ_of_le) h2
  have hB : (q + 1) * 2 ^ s * den = q * 2 ^ s * den + 2 ^ s * den := by ring
  have c2 : (unitsOf m : Int) * den = ((unitsOf m * den : Nat) : Int) := by push_cast; rfl
  generalize hI : infMagnitude = I at hf h5
  obtain ⟨b, hb⟩ : ∃ b, b = s * 8388608 := ⟨_, rfl⟩
  have hbe : b % 2 = 0 := by clear h5 hf; omega
  rw [← hb] at h5 e0 e1
  clear hI hb h1 h2
  have lo : m ≤ b + q → unitsOf m * den ≤ q * 2 ^ s * den := by
    intro h; rw [← e0]; exact Nat.mul_le_mul_right _ (unitsOf_strictMono.monotone h)
  have hi : ¬m ≤ b + q → (q + 1) * 2 ^ s * den ≤ unitsOf m * den := by
    intro h; rw [← e1]
    exact Nat.mul_le_mul_right _ (unitsOf_strictMono.monotone (by omega))
  have inj : ∀ k, unitsOf m * den = k * den → unitsOf m = k := fun k h => Nat.eq_of_mul_eq_mul_right hd h
  rcases h5 with ⟨h5, e⟩ | ⟨h5, e⟩
  · have e' : roundUnits num den = b + q := by omega
    rw [e', e0]
    have inj := inj (q * 2 ^ s)
    have c1 : ((q * 2 ^ s : Nat) : Int) * den = ((q * 2 ^ s * den : Nat) : Int) := by push_cast; rfl
    rw [c1, c2]
    clear e0 e1 c1 c2 e e' hf
    generalize q * 2 ^ s * den = A at *
    generalize 2 ^ s * den = d at *
    generalize unitsOf m * den = C at *
    by_cases hm : m ≤ b + q
    · have := lo hm
      refine ⟨by omega, fun h hne => absurd (inj (by omega)) hne⟩
    · have := hi hm
      refine ⟨by omega, fun h hne => by omega⟩
  · have e' : roundUnits num den = b + (q + 1) := by omega
    rw [e', e1]
    have inj := inj ((q + 1) * 2 ^ s)
    have c1 : (((q + 1) * 2 ^ s : Nat) : Int) * den = (((q + 1) * 2 ^ s * den : Nat) : Int) := by push_cast; rfl
    rw [c1, c2, hB]
    rw [hB] at hi inj
    clear e0 e1 c1 c2 e e' hf hB
    generalize q * 2 ^ s * den = A at *
    generalize 2 ^ s * den = d at *
    generalize unitsOf m * den = C at *
    by_cases hm : m ≤ b + q
    · have := lo hm
      refine ⟨by omega, fun h hne => by omega⟩
    · have := hi hm
      refine ⟨by omega, fun h hne => absurd (inj (by omega)) hne⟩

/-- Rounding overflows exactly from half a last place beyond the largest finite magnitude on. -/
theorem roundUnits_lt_iff (num : Nat) {den : Nat} (hd : 0 < den) :
    roundUnits num den < infMagnitude ↔ num < overflowAt * den := by
  obtain ⟨s, q, r, h1, h2, h3, h4, h5⟩ := roundUnits_cases num hd
  have hinf : infMagnitude = 2139095040 := rfl
  generalize hD : 2 ^ 252 * den = D
  have hover : overflowAt * den = 33554431 * D := by rw [← hD, ← Nat.mul_assoc]; rfl
  have hp : 0 < D := by rw [← hD]; positivity
  rw [hover]
  clear hover
  have hmul : q * 2 ^ s * den = q * (2 ^ s * den) := Nat.mul_assoc _ _ _
  rw [hmul] at h3
  clear hmul
  rcases Nat.lt_trichotomy s 253 with hs | hs | hs
  · have hle : 2 ^ s * den ≤ D := by
      rw [← hD]; exact Nat.mul_le_mul_right _ (Nat.pow_le_pow_right (by decide) (by omega))
    have h6 : (q + 1) * (2 ^ s * den) ≤ 16777216 * D := Nat.mul_le_mul (by omega) hle
    rw [Nat.succ_mul] at h6
    clear hD hd hle
    generalize q * (2 ^ s * den) = A at *
    generalize 2 ^ s * den = d at *
    generalize roundUnits num den = R at *
    generalize infMagnitude = I at *
    constructor <;> intro _ <;> omega
  · subst hs
    have h9 : 2 ^ 253 * den = 2 * D := by rw [← hD, ← Nat.mul_assoc]; rfl
    rw [h9] at h3 h4 h5
    clear hD hd h9 h1
    have hq : q = 16777215 ∨ q ≤ 16777214 := by clear h3 h4 h5 hinf; omega
    have h7 : q * (2 * D) = 2 * (q * D) := by ring
    rw [h7] at h3
    generalize roundUnits num den = R at *
    generalize infMagnitude = I at *
    rcases hq with rfl | hq
    · constructor <;> intro _ <;> omega
    · have : q * D ≤ 16777214 * D := Nat.mul_le_mul_right _ hq
      clear h7
      generalize q * D = A at *
      constructor <;> intro _ <;> omega
  · have hle : 4 * D ≤ 2 ^ s * den := by
      rw [← hD, ← Nat.mul_assoc, show 4 * 2 ^ 252 = 2 ^ 254 from rfl]
      exact Nat.mul_le_mul_right _ (Nat.pow_le_pow_right (by decide) (by omega))
    have h6 : 8388608 * (4 * D) ≤ q * (2 ^ s * den) :=
      Nat.mul_le_mul (h1.resolve_left (Nat.ne_of_gt (Nat.lt_of_le_of_lt (Nat.zero_le _) hs))) hle
    clear hD hd hle
    generalize q * (2 ^ s * den) = A at *
    generalize 2 ^ s * den = d at *
    generalize roundUnits num den = R at *
    generalize infMagnitude = I at *
    constructor <;> intro _ <;> omega

theorem roundUnits_le (num den : Nat) : roundUnits num den ≤ infMagnitude := by
  unfold roundUnits
  exact Nat.min_le_right _ _

/-- The packed rounding of a signed numerator is the nearest Value, ties to even. -/
theorem nearestEven_of_round (n : Int) {den : Nat} (hd : 0 < den) {b : Bool} (hb : n ≠ 0 → b = decide (n < 0)) :
    NearestEven n den (pack b (roundUnits n.natAbs den)) := by
  have hR := roundUnits_le n.natAbs den
  have hlt := roundUnits_lt_iff n.natAbs hd
  have hm : roundUnits n.natAbs den < 2147483648 := Nat.lt_of_le_of_lt hR infMagnitude_lt
  -- the distance to a Value is at least the distance of the magnitudes, and is that distance for the rounded one
  have far : ∀ (c : Bool) (m : Nat), ((n.natAbs : Int) - unitsOf m * den).natAbs ≤
      (n - (if c then -(unitsOf m : Int) else (unitsOf m : Int)) * den).natAbs := by
    intro c m
    have : 0 ≤ (unitsOf m : Int) * den := by positivity
    cases c <;> simp only [if_true, if_false, Bool.false_eq_true, Int.neg_mul] <;> omega
  have own : ∀ m : Nat, (n = 0 → unitsOf m = 0) → ((n.natAbs : Int) - unitsOf m * den).natAbs =
      (n - (if b then -(unitsOf m : Int) else (unitsOf m : Int)) * den).natAbs := by
    intro m h0
    by_cases hn : n = 0
    · simp [hn, h0 hn]
    · rw [hb hn]
      by_cases hneg : n < 0 <;> simp only [hneg, decide_true, decide_false, if_true, if_false, Bool.false_eq_true, Int.neg_mul] <;> omega
  have zero : n = 0 → unitsOf (roundUnits n.natAbs den) = 0 := by
    rintro rfl
    simp [roundUnits, unitsOf]
  constructor
  · intro h
    rw [isInf_pack hm]
    omega
  · intro h
    rw [isFinite_pack hm]
    exact hlt.mpr h
  · intro hf c hc
    rw [isFinite_pack hm] at hf
    obtain ⟨m, hm', e⟩ := exists_pack_of_finite hc
    have hm2 := Nat.lt_trans hm' infMagnitude_lt
    rw [e, signedUnits_pack hm, signedUnits_pack hm2, ← own _ zero]
    exact le_trans (roundUnits_nearest _ hd hf m).1 (far _ _)
  · intro hf c hc heq hne
    rw [isFinite_pack hm] at hf
    obtain ⟨m, hm', e⟩ := exists_pack_of_finite hc
    have hm2 := Nat.lt_trans hm' infMagnitude_lt
    rw [e, signedUnits_pack hm, signedUnits_pack hm2] at heq hne
    rw [← own _ zero] at heq
    have h := roundUnits_nearest n.natAbs hd hf m
    have hf2 := far (sign c) m
    have par : roundUnits n.natAbs den % 2 = 0 := by
      by_cases hu : unitsOf m = unitsOf (roundUnits n.natAbs den)
      · exfalso
        rw [hu] at heq hne
        clear hf hf2 h hlt hR far own hm hm2 hm'
        generalize roundUnits n.natAbs den = R at *
        have h0 : (0 : Int) ≤ (unitsOf R : Int) * den := by positivity
        have hz : (unitsOf R : Int) ≠ 0 := by
          intro h0; rw [h0] at hne; simp at hne
        have hpos : 0 < (unitsOf R : Int) * den := by
          have : 0 < (unitsOf R : Int) := by omega
          positivity
        have hn : n ≠ 0 := fun h => hz (by rw [zero h]; rfl)
        have hb := hb hn
        by_cases hneg : n < 0
        · simp only [hneg, decide_true] at hb
          subst hb
          cases hc' : sign c
          · simp only [hc', if_false, Bool.false_eq_true] at heq
            omega
          · simp [hc'] at hne
        · simp only [hneg, decide_false] at hb
          subst hb
          cases hc' : sign c
          · simp [hc'] at hne
          · simp only [hc', if_true, Int.neg_mul] at heq
            omega
      · exact h.2 (le_antisymm h.1 (by rw [heq]; exact hf2)) hu
    exact pack_even hm par
  · intro hn
    rw [sign_pack hm]
    exact hb hn

/-! ## The classes of Values, and the primitives on them -/

theorem class_of (v : Value) : ∃ m, m < 2147483648 ∧ v = pack (sign v) m := ⟨_, Nat.mod_lt _ (by decide), pack_eta v⟩


theorem notNaN_of_finite {v : Value} (h : isFinite v = true) : isNaN v = false := by
  simp [isFinite, isNaN] at *; simp [h]

theorem notInf_of_finite {v : Value} (h : isFinite v = true) : isInf v = false := by
  simp [isFinite, isInf] at *; simp [h]

theorem isZero_iff_units {v : Value} : isZero v = true ↔ units v = 0 := by
  simp [isZero, units]
  split <;> simp [*]

theorem neg_pack {b : Bool} {m : Nat} (hm : m < 2147483648) : neg (pack b m) = pack (!b) m := by
  apply BitVec.eq_of_toNat_eq
  unfold neg
  rw [BitVec.toNat_ofNat, pack_toNat hm, pack_toNat hm]
  cases b <;> simp <;> omega

theorem sign_neg (v : Value) : sign (neg v) = !sign v := by
  obtain ⟨m, hm, e⟩ := class_of v
  rw [e, neg_pack hm, sign_pack hm, sign_pack hm]

theorem isFinite_neg (v : Value) : isFinite (neg v) = isFinite v := by
  obtain ⟨m, hm, e⟩ := class_of v
  rw [Bool.eq_iff_iff, e, neg_pack hm, isFinite_pack hm, isFinite_pack hm]

theorem isInf_neg (v : Value) : isInf (neg v) = isInf v := by
  obtain ⟨m, hm, e⟩ := class_of v
  rw [Bool.eq_iff_iff, e, neg_pack hm, isInf_pack hm, isInf_pack hm]

theorem isNaN_neg (v : Value) : isNaN (neg v) = isNaN v := by
  obtain ⟨m, hm, e⟩ := class_of v
  rw [Bool.eq_iff_iff, e, neg_pack hm, isNaN_pack hm, isNaN_pack hm]

theorem signedUnits_neg (v : Value) : signedUnits (neg v) = -signedUnits v := by
  obtain ⟨m, hm, e⟩ := class_of v
  rw [e, neg_pack hm, signedUnits_pack hm, signedUnits_pack hm]
  cases sign v <;> simp

theorem signedUnits_natAbs (v : Value) : (signedUnits v).natAbs = units v := by
  unfold signedUnits; split <;> simp

theorem roundUnits_lt (num den : Nat) : roundUnits num den < 2147483648 := Nat.lt_of_le_of_lt (roundUnits_le _ _) infMagnitude_lt

theorem zero_eq_round (b : Bool) : zero b = pack b (roundUnits 0 1) := rfl

theorem add_finite {a b : Value} (ha : isFinite a = true) (hb : isFinite b = true) :
  ∃ r, add a b = some r ∧ NearestEven (signedUnits a + signedUnits b) 1 r ∧
      (signedUnits a + signedUnits b = 0 → sign r = (sign a && sign b)) := by
  unfold add
  simp only [notNaN_of_finite ha, notNaN_of_finite hb, notInf_of_finite ha, notInf_of_finite hb, Bool.or_self, Bool.false_eq_true, if_false]
  by_cases h : signedUnits a + signedUnits b = 0
  · rw [if_pos h]
    refine ⟨_, rfl, ?_, fun _ => sign_pack (by decide)⟩
    rw [h]
    exact nearestEven_of_round 0 (by decide) (fun h => absurd rfl h)
  · rw [if_neg h]
    refine ⟨_, rfl, nearestEven_of_round _ (by decide) (fun _ => rfl), fun h' => absurd h' h⟩

theorem notNaN_pack_round (b : Bool) (n d : Nat) : isNaN (pack b (roundUnits n d)) = false := by
  rw [Bool.eq_false_iff, ne_eq, isNaN_pack (roundUnits_lt _ _)]
  exact Nat.not_lt.mpr (roundUnits_le _ _)

theorem finite_of {v : Value} (h1 : isNaN v = false) (h2 : isInf v = false) : isFinite v = true := by
  simp only [isNaN, isInf, isFinite, Bool.and_eq_false_iff, decide_eq_true_eq, decide_eq_false_iff_not] at *
  rintro h; simp [h] at *; exact h2 h1

theorem notInf_of_isZero {v : Value} (h : isZero v = true) : isInf v = false := by
  simp only [isZero, isInf, Bool.and_eq_true, Bool.and_eq_false_iff, decide_eq_true_eq, decide_eq_false_iff_not] at *
  left; omega

theorem notNaN_of_isInf {v : Value} (h : isInf v = true) : isNaN v = false := by
  simp only [isNaN, isInf, Bool.and_eq_true, Bool.and_eq_false_iff, decide_eq_true_eq, decide_eq_false_iff_not] at *
  right; simp [h.2]

theorem notNaN_inf (b : Bool) : isNaN (inf b) = false := by cases b <;> decide

theorem notNaN_zero (b : Bool) : isNaN (zero b) = false := by cases b <;> decide

theorem add_none (a b : Value) : (add a b = none ↔ isNaN a = true ∨ isNaN b = true ∨
      (isInf a = true ∧ isInf b = true ∧ sign a ≠ sign b)) := by
  unfold add
  cases h1 : isNaN a <;> cases h2 : isNaN b <;> cases h3 : isInf a <;> cases h4 : isInf b <;> cases sign a <;> cases sign b <;> simp <;> split <;> simp

theorem add_notNaN {a b r : Value} (h : add a b = some r) : isNaN r = false := by
  unfold add at h
  cases h1 : isNaN a <;> cases h2 : isNaN b <;> simp [h1, h2] at h
  split at h
  · split at h
    · cases h
    · cases h; exact h1
  · split at h
    · cases h; exact h2
    · split at h
      · cases h; exact notNaN_zero _
      · cases h; exact notNaN_pack_round _ _ _

theorem ofInt_natCast (a : Nat) : ofInt a = ofNat a := by
  unfold ofInt ofNat
  by_cases h : a = 0
  · subst h; rw [Nat.zero_mul]; rfl
  · rw [if_neg (by omega)]; unfold roundSigned; rw [Int.natAbs_mul, Int.natAbs_natCast, Int.natAbs_natCast, decide_eq_false (Int.not_lt.mpr (Int.mul_nonneg (Int.natCast_nonneg _) (Int.natCast_nonneg _)))]

theorem freeNaN_isNaN (n : Nat) : isNaN (Config.freeNaN n) = true := by
  have := (Config.freeNaNPayload n).isLt
  have e : Config.freeNaN n = pack (Config.freeNaNSign n) (2139095041 + (Config.freeNaNPayload n).val) := by
    unfold Config.freeNaN pack; congr 1; omega
  rw [e, isNaN_pack (by omega)]
  unfold infMagnitude; omega

end Sys2Proof.F32
end

