-- ==== Sys2Proof/Laws/MemoryLaws.lean ====
section
/-! SUPPORT. The laws of the canonical memory list (20_memory.md R43, R47): the form is kept, a read after a write, and equality
of memories that read alike. -/

namespace Sys2Proof.Machine.Memory

/-- The tail of a canonical list is canonical, and lies above its head. -/
theorem wf_cons {c : Nat × Value} {m : Memory} : Memory.wf (c :: m) ↔
    (∀ d ∈ m, c.1 < d.1) ∧ c.2 ≠ Memory.unlisted c.1 ∧ Memory.wf m := by
  simp only [Memory.wf, List.pairwise_cons, List.mem_cons, forall_eq_or_imp]
  tauto

theorem wf_nil : Memory.wf [] := ⟨List.Pairwise.nil, by simp⟩

/-- An address below every listed one reads as unlisted. -/
theorem read_of_lt {m : Memory} {a : Nat} (h : ∀ d ∈ m, a < d.1) : m.read a = Memory.unlisted a := by
  induction m with
  | nil => rfl
  | cons c m ih =>
    obtain ⟨b, v⟩ := c
    have h1 : a < b := h (b, v) (by simp)
    unfold Memory.read
    rw [if_neg (by omega)]
    exact ih (fun d hd => h d (by simp [hd]))

/-- A write lists no address but the one written and those listed before. -/
theorem mem_write {m : Memory} {a : Nat} {v : Value} {c : Nat × Value} (h : c ∈ m.write a v) :
    c.1 = a ∨ c ∈ m := by
  induction m with
  | nil =>
    unfold Memory.write at h
    split at h
    · cases h
    · simp only [List.mem_singleton] at h; exact .inl (by rw [h])
  | cons d m ih =>
    obtain ⟨b, w⟩ := d
    unfold Memory.write at h
    split at h
    · split at h
      · exact .inr h
      · rcases List.mem_cons.1 h with rfl | h
        · exact .inl rfl
        · exact .inr h
    · split at h
      · split at h
        · exact .inr (List.mem_cons_of_mem _ h)
        · rcases List.mem_cons.1 h with rfl | h
          · exact .inl rfl
          · exact .inr (List.mem_cons_of_mem _ h)
      · rcases List.mem_cons.1 h with rfl | h
        · exact .inr (List.mem_cons_self ..)
        · rcases ih h with h | h
          · exact .inl h
          · exact .inr (List.mem_cons_of_mem _ h)

/-- A write keeps the canonical form. -/
theorem write_wf {m : Memory} (h : m.wf) (a : Nat) (v : Value) : (m.write a v).wf := by
  induction m with
  | nil =>
    unfold Memory.write
    split
    · exact wf_nil
    · rename_i hv
      exact wf_cons.2 ⟨by simp, hv, wf_nil⟩
  | cons d m ih =>
    obtain ⟨b, w⟩ := d
    obtain ⟨h1, h2, h3⟩ := wf_cons.1 h
    unfold Memory.write
    split
    · rename_i hab
      split
      · exact h
      · rename_i hv
        refine wf_cons.2 ⟨?_, hv, h⟩
        intro e he
        rcases List.mem_cons.1 he with rfl | he
        · exact hab
        · exact Nat.lt_trans hab (h1 e he)
    · split
      · rename_i hab
        subst hab
        split
        · exact h3
        · rename_i hv
          exact wf_cons.2 ⟨h1, hv, h3⟩
      · refine wf_cons.2 ⟨?_, h2, ih h3⟩
        intro e he
        rcases mem_write he with he | he
        · show b < e.1
          omega
        · exact h1 e he

/-- What any address reads as after a write. -/
theorem read_write {m : Memory} (h : m.wf) (a : Nat) (v : Value) (b : Nat) :
    (m.write a v).read b = if b = a then v else m.read b := by
  induction m with
  | nil =>
    unfold Memory.write
    split
    · rename_i hv
      split
      · subst_vars; rfl
      · rfl
    · unfold Memory.read
      by_cases e : b = a
      · subst e; simp
      · rw [if_neg (fun h => e h.symm), if_neg e]
        rfl
  | cons d m ih =>
    obtain ⟨c, w⟩ := d
    obtain ⟨h1, h2, h3⟩ := wf_cons.1 h
    unfold Memory.write
    by_cases hac : a < c
    · rw [if_pos hac]
      have hun : Memory.read ((c, w) :: m) a = Memory.unlisted a := by
        refine read_of_lt ?_
        intro e he
        rcases List.mem_cons.1 he with rfl | he
        · exact hac
        · exact Nat.lt_trans hac (h1 e he)
      split
      · rename_i hv
        split
        · subst_vars; exact hun
        · rfl
      · by_cases e : b = a
        · subst e; simp [Memory.read]
        · rw [if_neg e]
          conv_lhs => unfold Memory.read
          rw [if_neg (fun h => e h.symm)]
    · rw [if_neg hac]
      by_cases hac2 : a = c
      · subst hac2
        rw [if_pos rfl]
        split
        · rename_i hv
          by_cases e : b = a
          · subst e
            rw [if_pos rfl, hv]
            exact read_of_lt h1
          · rw [if_neg e]
            conv_rhs => unfold Memory.read
            rw [if_neg (fun h => e h.symm)]
        · by_cases e : b = a
          · subst e; simp [Memory.read]
          · rw [if_neg e]
            unfold Memory.read
            rw [if_neg (fun h => e h.symm), if_neg (fun h => e h.symm)]
      · rw [if_neg hac2]
        conv_lhs => unfold Memory.read
        rw [ih h3]
        by_cases e : c = b
        · subst e
          rw [if_pos rfl, if_neg (fun h => hac2 h.symm)]
          simp [Memory.read]
        · rw [if_neg e]
          conv_rhs => unfold Memory.read
          rw [if_neg e]

/-- A listed address reads as its cell. -/
theorem read_of_mem {m : Memory} (h : m.wf) {c : Nat × Value} (hc : c ∈ m) : m.read c.1 = c.2 := by
  induction m with
  | nil => cases hc
  | cons d m ih =>
    obtain ⟨h1, h2, h3⟩ := wf_cons.1 h
    obtain ⟨b, w⟩ := d
    unfold Memory.read
    rcases List.mem_cons.1 hc with rfl | hc
    · simp
    · have := h1 c hc
      rw [if_neg (by simp only at this; omega)]
      exact ih h3 hc

/-- An address that is not listed reads as unlisted. -/
theorem read_of_notMem {m : Memory} {a : Nat} (h : ∀ c ∈ m, c.1 ≠ a) : m.read a = Memory.unlisted a := by
  induction m with
  | nil => rfl
  | cons d m ih =>
    obtain ⟨b, w⟩ := d
    unfold Memory.read
    rw [if_neg (h (b, w) (by simp))]
    exact ih (fun c hc => h c (by simp [hc]))

/-- The cells of a canonical memory are the addresses that do not read as unlisted. -/
theorem mem_iff_read {m : Memory} (h : m.wf) {c : Nat × Value} :
    c ∈ m ↔ m.read c.1 = c.2 ∧ c.2 ≠ Memory.unlisted c.1 := by
  constructor
  · exact fun hc => ⟨read_of_mem h hc, h.2 c hc⟩
  · rintro ⟨h1, h2⟩
    by_contra hc
    apply h2
    rw [← h1]
    by_cases hl : ∃ d ∈ m, d.1 = c.1
    · obtain ⟨d, hd, e⟩ := hl
      have h3 := read_of_mem h hd
      rw [e, h1] at h3
      exact absurd (Prod.ext e h3.symm ▸ hd) hc
    · exact read_of_notMem (fun d hd e => hl ⟨d, hd, e⟩)

end Sys2Proof.Machine.Memory
end

