-- ==== Sys2Proof/Laws/PerInstr.lean ====
section
/-! SUPPORT. The family of statements made per instruction: the encoding of a legal instruction carries its opcode number, its
fields in their places and nothing in the reserved bits (30_encoding.md R61, R64, R66). -/

namespace Sys2Proof.Laws.EncodeFields

/-- What the encoding of `i` holds in each field, for any NARCH the field widths allow. -/
def Statement (i : Instr) : Prop :=
  ∀ narch, narch ≤ 32 → i.wf narch = true →
    fieldOpc (encode i) = i.opcode.number ∧ fieldResv (encode i) = 0 ∧
      fieldRd (encode i) = i.dst.getD 0 ∧ fieldRs1 (encode i) = i.srcJ.getD 0 ∧ fieldRs2 (encode i) = i.srcK.getD 0 ∧
      sext32 (fieldImm (encode i)) = i.imm

theorem of_packFields {i : Instr} {rd rs1 rs2 imm : Nat} (he : encode i = packFields i.opcode.number rd rs1 rs2 imm)
    (h1 : rd < 32) (h2 : rs1 < 32) (h3 : rs2 < 32) (h4 : imm < 4294967296) (d : i.dst.getD 0 = rd) (j : i.srcJ.getD 0 = rs1)
    (k : i.srcK.getD 0 = rs2) (m : sext32 imm = i.imm) :
    fieldOpc (encode i) = i.opcode.number ∧ fieldResv (encode i) = 0 ∧
      fieldRd (encode i) = i.dst.getD 0 ∧ fieldRs1 (encode i) = i.srcJ.getD 0 ∧ fieldRs2 (encode i) = i.srcK.getD 0 ∧
      sext32 (fieldImm (encode i)) = i.imm := by
  have h0 : i.opcode.number < 16 := by cases i <;> simp [Instr.opcode, Opcode.number]
  obtain ⟨f0, f1, f2, f3, f4, f5⟩ := packFields_fields h0 h1 h2 h3 h4
  rw [he, f0, f1, f2, f3, f4, f5, d, j, k, m]
  exact ⟨rfl, rfl, rfl, rfl, rfl, rfl⟩

theorem add (rd rs1 rs2 : RegNum) : Statement (.add rd rs1 rs2) := by
  intro narch hn h
  simp [Instr.wf] at h
  exact of_packFields rfl (h.1.1.trans_le hn) (h.1.2.trans_le hn) (h.2.trans_le hn) (by omega) rfl rfl rfl rfl

theorem sub (rd rs1 rs2 : RegNum) : Statement (.sub rd rs1 rs2) := by
  intro narch hn h
  simp [Instr.wf] at h
  exact of_packFields rfl (h.1.1.trans_le hn) (h.1.2.trans_le hn) (h.2.trans_le hn) (by omega) rfl rfl rfl rfl

theorem mul (rd rs1 rs2 : RegNum) : Statement (.mul rd rs1 rs2) := by
  intro narch hn h
  simp [Instr.wf] at h
  exact of_packFields rfl (h.1.1.trans_le hn) (h.1.2.trans_le hn) (h.2.trans_le hn) (by omega) rfl rfl rfl rfl

theorem div (rd rs1 rs2 : RegNum) : Statement (.div rd rs1 rs2) := by
  intro narch hn h
  simp [Instr.wf] at h
  exact of_packFields rfl (h.1.1.trans_le hn) (h.1.2.trans_le hn) (h.2.trans_le hn) (by omega) rfl rfl rfl rfl

theorem ld (rd rs1 : RegNum) (imm : Int) : Statement (.ld rd rs1 imm) := by
  intro narch hn h
  simp [Instr.wf] at h
  exact of_packFields rfl (h.1.1.trans_le hn) (h.1.2.trans_le hn) (by omega) (immField_lt imm) rfl rfl rfl (sext32_immField h.2)

theorem sd (rs1 rs2 : RegNum) (imm : Int) : Statement (.sd rs1 rs2 imm) := by
  intro narch hn h
  simp [Instr.wf] at h
  exact of_packFields rfl (by omega) (h.1.1.trans_le hn) (h.1.2.trans_le hn) (immField_lt imm) rfl rfl rfl (sext32_immField h.2)

theorem beqz (rs1 : RegNum) (imm : Int) : Statement (.beqz rs1 imm) := by
  intro narch hn h
  simp [Instr.wf] at h
  exact of_packFields rfl (by omega) (h.1.1.trans_le hn) (by omega) (immField_lt imm) rfl rfl rfl (sext32_immField h.1.2)

end Sys2Proof.Laws.EncodeFields
end

