-- ==== Sys2Proof/Laws/RenamingLaws.lean ====
section
/-! SUPPORT. Each operation on a state with other physical registers and another rename map (10_state.md R22, R23,
44_cycle_engine.md R150). -/

namespace Sys2Proof.Machine

open State

/-- A state with other physical registers and another rename map. -/
abbrev State.swap (s : State) (p : List Value) (m : List (Option Nat)) : State := { s with p := p, renameMap := m }

theorem issue_swap (i : Instr) (s : State) (p m) : ∃ p' m', issueInstr i (State.swap s p m) = State.swap (issueInstr i s) p' m' := by
  have h0 : (State.swap s p m).slotAt (State.swap s p m).tail = s.slotAt s.tail := rfl
  have h1 : (State.swap s p m).freeStation i.cls = s.freeStation i.cls := rfl
  unfold issueInstr
  rw [h0, h1]
  cases s.slotAt s.tail with
  | some _ => exact ⟨p, m, rfl⟩
  | none =>
    cases s.freeStation i.cls with
    | none => exact ⟨p, m, rfl⟩
    | some sid =>
      cases hf : s.freeList with
      | nil => simp only; exact ⟨p, m, rfl⟩
      | cons n rest => simp only; exact ⟨_, _, rfl⟩

theorem cancel_swap (k : Nat) (l : List (Nat × Slot)) : ∀ (s : State) (p m), ∃ m', l.foldl (fun t js => t.cancel k js) (State.swap s p m) = State.swap (l.foldl (fun t js => t.cancel k js) s) p m' := by
  induction l with
  | nil => intro s p m; exact ⟨m, rfl⟩
  | cons a l ih =>
    intro s p m
    exact ih (s.cancel k a) p _

theorem flush_swap (s : State) (k c imm) (p m) : ∃ m', (State.swap s p m).flushAndRedirect k c imm = State.swap (s.flushAndRedirect k c imm) p m' := by
  obtain ⟨m', h⟩ := cancel_swap k (s.victims k c) s p m
  refine ⟨m', ?_⟩
  unfold State.flushAndRedirect
  have : (State.swap s p m).victims k c = s.victims k c := rfl
  simp only [this, h]

theorem finish_swap (s : State) (sid k sl imm v taken) (p m) : ∃ p' m', (State.swap s p m).finishWrite sid k sl imm v taken = State.swap (s.finishWrite sid k sl imm v taken) p' m' := by
  unfold State.finishWrite
  cases taken with
  | false => exact ⟨_, _, rfl⟩
  | true =>
    have : ((State.swap s p m).recordResult k sl v).broadcast sl.renamedReg v = State.swap ((s.recordResult k sl v).broadcast sl.renamedReg v) (p.set sl.renamedReg v) m := rfl
    simp only [this, if_true]
    obtain ⟨m', h⟩ := flush_swap ((s.recordResult k sl v).broadcast sl.renamedReg v) k sl.issueCycle imm (p.set sl.renamedReg v) m
    rw [h]
    exact ⟨_, _, rfl⟩

theorem rule_swap (op : Opcode) (st : Station) (s : State) (p m) : 
   (∃ v taken u, ruleOf op st s = .done v taken u ∧ ruleOf op st (State.swap s p m) = .done v taken (State.swap u p m)) ∨
   (∃ a, ruleOf op st s = .badAddress a ∧ ruleOf op st (State.swap s p m) = .badAddress a) := by
  cases op <;> simp only [ruleOf]
  · exact .inl ⟨_, _, _, rfl, rfl⟩
  · exact .inl ⟨_, _, _, rfl, rfl⟩
  · exact .inl ⟨_, _, _, rfl, rfl⟩
  · exact .inl ⟨_, _, _, rfl, rfl⟩
  · unfold ruleLd; split
    · rename_i h; simp only [h]; exact .inr ⟨_, rfl, rfl⟩
    · rename_i h; simp only [h]; exact .inl ⟨_, _, _, rfl, rfl⟩
  · unfold ruleSd; split
    · rename_i h; simp only [h]; exact .inr ⟨_, rfl, rfl⟩
    · rename_i h; simp only [h]; exact .inl ⟨_, _, _, rfl, rfl⟩
  · unfold ruleBeqz; split
    · exact .inl ⟨_, _, _, rfl, rfl⟩
    · exact .inl ⟨_, _, _, rfl, rfl⟩

theorem write_swap (op : Opcode) (sid : Nat) (s : State) (p m) : ∃ p' m', writeBack (ruleOf op) sid (State.swap s p m) = State.swap (writeBack (ruleOf op) sid s) p' m' := by
  unfold writeBack
  have h1 : (State.swap s p m).stationAt sid = s.stationAt sid := rfl
  rw [h1]
  cases s.stationAt sid with
  | none => exact ⟨p, m, rfl⟩
  | some st =>
    have h2 : (State.swap s p m).owner st.dest = s.owner st.dest := rfl
    simp only [h2]
    cases s.owner st.dest with
    | none => exact ⟨p, m, rfl⟩
    | some ks =>
      obtain ⟨k, sl⟩ := ks
      dsimp only
      split
      · exact ⟨p, m, rfl⟩
      · rcases rule_swap op st s p m with ⟨v, taken, u, e1, e2⟩ | ⟨a, e1, e2⟩ <;> rw [e1, e2]
        · exact finish_swap u sid k sl st.imm v taken p m
        · exact ⟨p, m, rfl⟩

theorem results_swap (l : List Nat) : ∀ (s t : State) (p m), writeResults l s = .next t → ∃ p' m', writeResults l (State.swap s p m) = .next (State.swap t p' m') := by
  induction l with
  | nil => intro s t p m e; cases e; exact ⟨p, m, rfl⟩
  | cons a l ih =>
    intro s t p m e
    unfold writeResults at e ⊢
    have h0 : (State.swap s p m).faultRec = s.faultRec := rfl
    have h1 : (State.swap s p m).stationAt a = s.stationAt a := rfl
    rw [h0, h1]
    split at e
    · rw [if_pos ‹_›]; cases e; exact ⟨p, m, rfl⟩
    · rw [if_neg ‹_›]
      cases hst : s.stationAt a with
      | none => rw [hst] at e; exact ih s t p m e
      | some st =>
        rw [hst] at e
        simp only at e ⊢
        rw [exec_write _ (sid := a) rfl, andThen_next] at e ⊢
        obtain ⟨p', m', h⟩ := write_swap st.instr.opcode a (s.setBus (some a)) p m
        have h' : writeBack (ruleOf st.instr.opcode) a ((State.swap s p m).setBus (some a)) = _ := h
        rw [h']
        exact ih _ t p' m' e

theorem stations_swap (l : List Nat) : ∀ (s t : State) (p m), executeStations l s = .next t → executeStations l (State.swap s p m) = .next (State.swap t p m) := by
  induction l with
  | nil => intro s t p m e; cases e; rfl
  | cons a l ih =>
    intro s t p m e
    unfold executeStations at e ⊢
    obtain ⟨u, h1, h2⟩ := andThen_eq_next e
    have : executeStation a (State.swap s p m) = .next (State.swap u p m) := by
      unfold executeStation at h1 ⊢
      have g1 : (State.swap s p m).stationAt a = s.stationAt a := rfl
      rw [g1]
      split at h1
      · cases h1; rfl
      · rename_i st hst
        split at h1
        · rename_i hr
          simp only [hr]
          split at h1
          · rename_i h0; simp only [h0]; cases h1; rfl
          · rename_i h0
            simp only [h0]
            have g2 : (State.swap s p m).owner st.dest = s.owner st.dest := rfl
            rw [g2]
            split at h1
            · cases h1
            · rename_i ho; cases h1; rfl
        · rename_i hr; simp only [hr]; cases h1; rfl
    rw [this, andThen_next]
    exact ih u t p m h2

end Sys2Proof.Machine
end

