-- ==== Sys2Proof/Laws/ResetLaws.lean ====
section
/-! SUPPORT. What a legal instruction is, what decoding a program gives, and the state a reset leaves. -/

namespace Sys2Proof

theorem wf_iff {narch : Nat} (i : Instr) : i.wf narch = true ↔ registersInRange narch i = true ∧ targetTooLow i = false ∧ immInRange i.imm = true := by
  cases i <;> simp [Instr.wf, registersInRange, targetTooLow, Instr.dst, Instr.srcJ, Instr.srcK, Instr.imm, and_assoc] <;> tauto

theorem encode_pack (i : Instr) : encode i = packFields i.opcode.number (i.dst.getD 0) (i.srcJ.getD 0) (i.srcK.getD 0) (immField i.imm) := by
  cases i <;> rfl

theorem decode_wf {n : Nat} {w : InstrWord} {i : Instr} (h : decode n w = .ok i) : i.wf n = true := by
  obtain ⟨op, h1, h2, h3, h4, h5, h6⟩ := decode_ok h
  rw [wf_iff]
  refine ⟨h5, h6, ?_⟩
  rw [h4]
  cases op <;> simp only [recordOf, Instr.imm] <;> first | decide | exact sext32_inRange (fieldImm_lt _)

namespace Machine

open State

theorem decodeAll_ok {n k : Nat} {l : List InstrWord} {prog : List Instr} (h : decodeAll n k l = .ok prog) : prog.length = l.length ∧ ∀ i ∈ prog, i.wf n = true := by
  induction l generalizing k prog with
  | nil => cases h; simp
  | cons w l ih =>
    unfold decodeAll at h
    split at h
    · cases h
    · split at h
      · cases h
      · rename_i i hi _ is his
        cases h
        have := ih his
        refine ⟨by simp [this.1], ?_⟩
        intro j hj
        rcases List.mem_cons.1 hj with rfl | hj
        · exact decode_wf hi
        · exact this.2 j hj

theorem decodeAll_of_legal (narch : Nat) : ∀ (words : List InstrWord) (k : Nat),
   (∀ (j : Nat) (w : InstrWord), words[j]? = some w → ∃ i, decode narch w = .ok i) →
   ∃ prog, decodeAll narch k words = .ok prog ∧ prog.length = words.length ∧
          (∀ (j : Nat) (w : InstrWord) (i : Instr), words[j]? = some w → prog[j]? = some i → decode narch w = .ok i) := by
  intro words
  induction words with
  | nil => intro k _; exact ⟨[], rfl, rfl, by simp⟩
  | cons a l ih =>
    intro k h
    obtain ⟨i, hi⟩ := h 0 a rfl
    obtain ⟨prog, h1, h2, h3⟩ := ih (k + 1) (fun j w hj => h (j + 1) w (by simpa using hj))
    refine ⟨i :: prog, ?_, by simp [h2], ?_⟩
    · simp [decodeAll, hi, h1]
    · intro j w i' hj hp
      cases j with
      | zero => simp at hj hp; rw [← hj, ← hp]; exact hi
      | succ j => exact h3 j w i' (by simpa using hj) (by simpa using hp)

theorem decodeAll_first (narch : Nat) : ∀ (words : List InstrWord) (k j : Nat) (w : InstrWord) (e : DecodeError),
   words[j]? = some w → decode narch w = .error e →
   (∀ (j' : Nat) (w' : InstrWord), j' < j → words[j']? = some w' → ∃ i, decode narch w' = .ok i) →
   decodeAll narch k words = .error { code := .badWord e, position := some (k + j) } := by
  intro words
  induction words with
  | nil => intro k j w e h; simp at h
  | cons a l ih =>
    intro k j w e hj he hb
    cases j with
    | zero => simp at hj; subst hj; simp [decodeAll, he]
    | succ j =>
      obtain ⟨i, hi⟩ := hb 0 a (by omega) rfl
      have := ih (k + 1) j w e (by simpa using hj) he (fun j' w' h1 h2 => hb (j' + 1) w' (by omega) (by simpa using h2))
      simp [decodeAll, hi, this]
      omega

theorem decodeAll_bad (narch : Nat) {w : InstrWord} {e : DecodeError} (hd : decode narch w = .error e) : ∀ (words : List InstrWord) (k : Nat), w ∈ words →
   ∃ err, decodeAll narch k words = .error err := by
  intro words
  induction words with
  | nil => intro k h; cases h
  | cons a l ih =>
    intro k h
    unfold decodeAll
    cases h' : decode narch a with
    | error e => exact ⟨_, rfl⟩
    | ok i =>
      have : w ∈ l := by
        rcases List.mem_cons.1 h with rfl | h
        · rw [hd] at h'; cases h'
        · exact h
      obtain ⟨err, he⟩ := ih (k+1) this
      simp only [he]; exact ⟨_, rfl⟩

theorem resetWith_slotAt (c prog p d k) : (State.resetWith c prog p d).slotAt k = none := by
  simp only [State.slotAt, State.resetWith, List.getElem?_replicate]
  split <;> simp_all

theorem resetWith_stationAt (c prog p d k) : (State.resetWith c prog p d).stationAt k = none := by
  unfold State.stationAt
  split
  · rename_i e h
    exact freeStations_cls c e (List.mem_of_getElem? h)
  · rfl

theorem resetWith_inv {c : Config} {prog p d} (hc : c.wf = true) (hl : prog.length ≤ 2147483647) (hp : ∀ i ∈ prog, i.wf c.narch = true) (hpl : p.length = c.nphys) :
    (State.resetWith c prog p d).Inv ∧ (State.resetWith c prog p d).Ring ∧ (State.resetWith c prog p d).WaitsOk ∧ (State.resetWith c prog p d).MemOk ∧ (State.resetWith c prog p d).CommitBound := by
  have h1 := resetWith_slotAt c prog p d
  have h2 := resetWith_stationAt c prog p d
  have hn := Config.nrob_pos hc
  refine ⟨⟨⟨⟨hc, hl, hp, ?_, ?_, ?_, hpl, ?_, ?_, rfl, hn, hn, ?_, le_refl 1⟩, ?_, ?_, ?_, ?_, ?_, ?_⟩, rfl, ?_, ?_⟩, ⟨0, Nat.zero_le _, ?_, ?_, ?_⟩, ?_, ?_, ?_⟩
  · simp [State.resetWith]
  · simp [State.resetWith]
  · simp [State.resetWith]
  · simp [State.resetWith]
  · simp [State.resetWith]
  · simp [State.resetWith]
  · intro k sl h; rw [h1] at h; cases h
  · intro k sl h; rw [h2] at h; cases h
  · unfold State.NamesOnce
    have : (State.resetWith c prog p d).ownedNames = [] := by
      rw [List.eq_nil_iff_forall_not_mem]
      intro n hn
      obtain ⟨k, sl, h, -⟩ := mem_ownedNames.1 hn
      rw [h1] at h; cases h
    rw [this, List.append_nil]
    exact List.Perm.refl _
  · intro k sl h; rw [h2] at h; cases h
  · intro a b sa sb h; rw [h2] at h; cases h
  · intro r n h
    simp [State.resetWith, List.getElem?_replicate] at h
  · intro k sl h; rw [h1] at h; cases h
  · simp [State.resetWith]
  · simp [State.resetWith]
  · intro j hj
    simp [State.ringSlot, h1]
  · intro i j a b h h'; omega
  · intro sid st q h; rw [h2] at h; cases h
  · refine ⟨⟨List.Pairwise.nil, ?_⟩, ?_⟩ <;> intro c h <;> cases h
  · refine ⟨le_refl _, fun _ => le_refl _, ?_⟩
    intro h; cases h

end Machine

end Sys2Proof
end

