-- ==== Sys2Proof/Laws/RingLaws.lean ====
section
/-! SUPPORT. What each operation does to the ring of busy slots (10_state.md R31). -/

namespace Sys2Proof.Machine

namespace State

variable {s t : State}

theorem ring_index_inj {n h a b : Nat} (ha : a < n) (hb : b < n) (e : (h + a) % n = (h + b) % n) : a = b := by
  have h1 : h + a ≡ h + b [MOD n] := e
  have h2 := Nat.ModEq.add_left_cancel' h h1
  unfold Nat.ModEq at h2
  rwa [Nat.mod_eq_of_lt ha, Nat.mod_eq_of_lt hb] at h2

/-- Every slot has a place in the ring. -/
theorem ring_index_exists {n h k : Nat} (hh : h < n) (hk : k < n) : ∃ j, j < n ∧ (h + j) % n = k := by
  by_cases hc : h ≤ k
  · exact ⟨k - h, by omega, by rw [Nat.add_sub_cancel' hc]; exact Nat.mod_eq_of_lt hk⟩
  · refine ⟨k + n - h, by omega, ?_⟩
    rw [show h + (k + n - h) = k + n by omega, Nat.add_mod_right]
    exact Nat.mod_eq_of_lt hk

/-- An operation that keeps the pointers and every slot's occupancy and issue cycle keeps the ring. -/
theorem Ring.of_slots (h : s.Ring) (hc : t.cfg = s.cfg) (hh : t.head = s.head) (ht : t.tail = s.tail)
    (hs : ∀ k, (t.slotAt k).map Slot.issueCycle = (s.slotAt k).map Slot.issueCycle) : t.Ring := by
  obtain ⟨n, h1, h2, h3, h4⟩ := h
  have hr : ∀ j, (t.ringSlot j).map Slot.issueCycle = (s.ringSlot j).map Slot.issueCycle := by
    intro j
    unfold State.ringSlot
    rw [hc, hh]
    exact hs _
  have hsome : ∀ j, (t.ringSlot j).isSome = (s.ringSlot j).isSome := by
    intro j
    have := congrArg Option.isSome (hr j)
    simpa using this
  refine ⟨n, by rw [hc]; exact h1, by rw [ht, hh, hc]; exact h2, ?_, ?_⟩
  · intro j hj
    rw [hsome]
    exact h3 j (by rw [← hc]; exact hj)
  · intro i j a b hij hj ha hb
    have ea := hr i
    have eb := hr j
    rw [ha] at ea
    rw [hb] at eb
    obtain ⟨a', ha', hia⟩ := Option.map_eq_some_iff.1 ea.symm
    obtain ⟨b', hb', hib⟩ := Option.map_eq_some_iff.1 eb.symm
    rw [← hia, ← hib]
    exact h4 i j a' b' hij hj ha' hb'

theorem Ring.of_rob (h : s.Ring) (hc : t.cfg = s.cfg) (hh : t.head = s.head) (ht : t.tail = s.tail) (hr : t.rob = s.rob) :
    t.Ring :=
  h.of_slots hc hh ht (fun k => by rw [slotAt_of_rob_eq hr])

/-- Replacing the contents of one busy slot without its issue cycle. -/
theorem Ring.of_set (h : s.Ring) (hc : t.cfg = s.cfg) (hh : t.head = s.head) (ht : t.tail = s.tail) {k : Nat}
    {sl sl' : Slot} (hk : s.slotAt k = some sl) (hr : t.rob = s.rob.set k (some sl')) (hi : sl'.issueCycle = sl.issueCycle) :
    t.Ring := by
  refine h.of_slots hc hh ht ?_
  intro j
  rw [slotAt_of_rob_set hr (slotAt_lt hk)]
  split
  · rename_i e
    rw [e, hk]
    simp [hi]
  · rfl

/-- An issue extends the ring by one slot at the tail. -/
theorem Ring.issued (h : s.Ring) (hn : 0 < s.cfg.nrob) (hl : s.rob.length = s.cfg.nrob)
    (hfree : s.slotAt s.tail = none) (hold : ∀ k sl, s.slotAt k = some sl → sl.issueCycle < s.currentCycle)
    (i : Instr) (sid n : Nat) (rest : List Nat) : (s.issued i sid n rest).Ring := by
  obtain ⟨m, h1, h2, h3, h4⟩ := h
  have hm : m < s.cfg.nrob := by
    by_contra hc
    have : m = s.cfg.nrob := by omega
    have h0 := (h3 0 hn).2 (by omega)
    unfold State.ringSlot at h0
    rw [this, Nat.add_mod_right] at h2
    rw [Nat.add_zero, ← h2, hfree] at h0
    cases h0
  have htl : s.tail < s.rob.length := by rw [hl, h2]; exact Nat.mod_lt _ hn
  have hslot : ∀ j, j < s.cfg.nrob → (s.issued i sid n rest).ringSlot j =
      if j = m then some (s.issuedSlot i n) else s.ringSlot j := by
    intro j hj
    show (s.issued i sid n rest).slotAt ((s.head + j) % s.cfg.nrob) = _
    rw [slotAt_of_rob_set (t := s.issued i sid n rest) rfl htl]
    by_cases e : j = m
    · rw [if_pos e, e, if_pos h2.symm]
    · rw [if_neg e, if_neg]
      · rfl
      · intro e'
        rw [h2] at e'
        exact e (ring_index_inj hj hm e')
  refine ⟨m + 1, hm, ?_, ?_, ?_⟩
  · show (s.tail + 1) % s.cfg.nrob = (s.head + (m + 1)) % s.cfg.nrob
    rw [h2, Nat.mod_add_mod, Nat.add_assoc]
  · intro j hj
    rw [hslot j hj]
    by_cases e : j = m
    · simp [e]
    · rw [if_neg e, h3 j hj]
      omega
  · intro a b x y hab hb hx hy
    have hb' : b < s.cfg.nrob := by omega
    rw [hslot a (by omega), if_neg (by omega)] at hx
    rw [hslot b hb'] at hy
    by_cases e : b = m
    · rw [if_pos e] at hy
      cases hy
      exact hold _ _ hx
    · rw [if_neg e] at hy
      exact h4 a b x y hab (by omega) hx hy

/-- A commit takes the head slot off the ring. -/
theorem Ring.retired (h : s.Ring) (hn : 0 < s.cfg.nrob) (hl : s.rob.length = s.cfg.nrob) (hhead : s.head < s.cfg.nrob)
    {sl : Slot} (hk : s.slotAt s.head = some sl) : (s.retired sl).Ring := by
  obtain ⟨m, h1, h2, h3, h4⟩ := h
  have hm : 0 < m := by
    refine (h3 0 hn).1 ?_
    unfold State.ringSlot
    rw [Nat.add_zero, Nat.mod_eq_of_lt hhead, hk]
    rfl
  have hslot : ∀ j, j < s.cfg.nrob → (s.retired sl).ringSlot j = if j + 1 = s.cfg.nrob then none else s.ringSlot (j + 1) := by
    intro j hj
    show (s.retired sl).slotAt (((s.head + 1) % s.cfg.nrob + j) % s.cfg.nrob) = _
    rw [Nat.mod_add_mod, Nat.add_assoc, Nat.add_comm 1 j,
      slotAt_of_rob_set (t := s.retired sl) rfl (by rw [hl]; exact hhead)]
    by_cases e : j + 1 = s.cfg.nrob
    · rw [if_pos e, e, Nat.add_mod_right, Nat.mod_eq_of_lt hhead, if_pos rfl]
    · rw [if_neg e, if_neg]
      · rfl
      · intro e'
        have : (s.head + (j + 1)) % s.cfg.nrob = (s.head + 0) % s.cfg.nrob := by
          rw [e', Nat.add_zero, Nat.mod_eq_of_lt hhead]
        have := ring_index_inj (by omega) hn this
        omega
  refine ⟨m - 1, ?_, ?_, ?_, ?_⟩
  · show m - 1 ≤ s.cfg.nrob
    omega
  · show s.tail = ((s.head + 1) % s.cfg.nrob + (m - 1)) % s.cfg.nrob
    rw [h2, Nat.mod_add_mod]
    congr 1
    omega
  · intro j hj
    have hj' : j < s.cfg.nrob := hj
    rw [hslot j hj']
    by_cases e : j + 1 = s.cfg.nrob
    · rw [if_pos e]
      simp only [Option.isSome_none, Bool.false_eq_true, false_iff]
      omega
    · rw [if_neg e, h3 (j + 1) (by omega)]
      omega
  · intro a b x y hab hb hx hy
    rw [hslot a (by omega), if_neg (by omega)] at hx
    rw [hslot b (by omega), if_neg (by omega)] at hy
    exact h4 (a + 1) (b + 1) x y (by omega) (by omega) hx hy

/-- A taken branch in slot `k` cuts the ring after its own slot. -/
theorem Ring.flushAndRedirect (h : s.Ring) (hl : s.rob.length = s.cfg.nrob) (hhead : s.head < s.cfg.nrob)
    {k : Nat} {sl : Slot} (hk : s.slotAt k = some sl) (imm : Int) : (s.flushAndRedirect k sl.issueCycle imm).Ring := by
  obtain ⟨m, h1, h2, h3, h4⟩ := h
  obtain ⟨b, hb, hbk⟩ := ring_index_exists hhead (show k < s.cfg.nrob by rw [← hl]; exact slotAt_lt hk)
  have hbs : s.ringSlot b = some sl := by
    unfold State.ringSlot
    rw [hbk]
    exact hk
  have hbm : b < m := (h3 b hb).1 (by rw [hbs]; rfl)
  obtain ⟨f1, f2, f3, f5, f6, f7, -⟩ := flushAndRedirect_frame k sl.issueCycle imm s
  have hslot : ∀ j, j < s.cfg.nrob → (s.flushAndRedirect k sl.issueCycle imm).ringSlot j =
      if j ≤ b then s.ringSlot j else none := by
    intro j hj
    unfold State.ringSlot
    rw [f1, f7]
    show ((s.victims k sl.issueCycle).foldl (fun t js => t.cancel k js) s).slotAt _ = _
    rw [cancelAll_slotAt k _ (victims_nodup k _) (fun _ hjs => (mem_victims.1 hjs).1)]
    by_cases e : j ≤ b
    · rw [if_pos e, if_neg]
      intro hv
      obtain ⟨⟨k', x⟩, hx, e'⟩ := List.mem_map.1 hv
      obtain ⟨g1, g2, g3⟩ := mem_victims.1 hx
      simp only at e'
      subst e'
      rcases Nat.lt_or_ge j b with hlt | hge
      · have := h4 j b x sl hlt hbm g1 hbs
        omega
      · have : j = b := by omega
        exact g2 (by rw [this, hbk])
    · rw [if_neg e]
      split
      · rfl
      · rename_i hv
        cases hx : s.slotAt ((s.head + j) % s.cfg.nrob) with
        | none => rfl
        | some x =>
          exfalso
          apply hv
          have hjm : j < m := (h3 j hj).1 (by unfold State.ringSlot; rw [hx]; rfl)
          have hlt := h4 b j sl x (by omega) hjm hbs hx
          refine List.mem_map.2 ⟨(_, x), mem_victims.2 ⟨hx, ?_, by omega⟩, rfl⟩
          intro e'
          rw [← hbk] at e'
          exact e (by rw [ring_index_inj hj hb e'])
  refine ⟨b + 1, ?_, ?_, ?_, ?_⟩
  · rw [f1]
    omega
  · rw [f1, f7]
    show (k + 1) % s.cfg.nrob = _
    rw [← hbk, Nat.mod_add_mod, Nat.add_assoc]
  · intro j hj
    rw [f1] at hj
    rw [hslot j hj]
    by_cases e : j ≤ b
    · rw [if_pos e, h3 j hj]
      omega
    · rw [if_neg e]
      simp only [Option.isSome_none, Bool.false_eq_true, false_iff]
      omega
  · intro a c x y hac hc hx hy
    rw [hslot a (by omega), if_pos (by omega)] at hx
    rw [hslot c (by omega), if_pos (by omega)] at hy
    exact h4 a c x y hac (by omega) hx hy

/-- A candidate's write-result keeps the ring. -/
theorem Ring.finishWrite (h : s.Ring) (hc : s.Consistent) (sid : Nat) {k : Nat} {sl : Slot} (hk : s.slotAt k = some sl)
    (imm : Int) (v : Value) (taken : Bool) : (s.finishWrite sid k sl imm v taken).Ring := by
  have hp : ((s.recordResult k sl v).broadcast sl.renamedReg v).Ring := h.of_set rfl rfl rfl hk rfl rfl
  have hps := published_slotAt v hk k
  rw [if_pos rfl] at hps
  cases taken with
  | false => exact hp
  | true =>
    exact Ring.of_rob (s := ((s.recordResult k sl v).broadcast sl.renamedReg v).flushAndRedirect k sl.issueCycle imm)
      (hp.flushAndRedirect (by simpa using hc.shape.robLen) hc.shape.headLt hps imm) rfl rfl rfl rfl

theorem Ring.writeBack (h : s.Ring) (hc : s.Consistent) {rule : OpcodeRule} (hr : rule.Framed) (sid : Nat) :
    (Sys2Proof.Machine.writeBack rule sid s).Ring := by
  rcases writeBack_cases rule sid s with ⟨-, e⟩ | ⟨st, k, i, -, -, e⟩ | ⟨st, k, sl, a, -, -, -, -, e⟩ |
    ⟨st, k, sl, v, taken, s', hst, ho, -, hd, e⟩ <;> rw [e]
  · exact h
  · exact h
  · exact h
  · have hf := hr st s v taken s' hd
    have e' := hf.same
    have h' : s'.Ring := h.of_rob (congrArg State.cfg e' :) (congrArg State.head e' :) (congrArg State.tail e' :)
      (congrArg State.rob e' :)
    have hc' := hc.of_same (sameCore_of_ruleFrame hf hc.shape.pcLe)
    refine h'.finishWrite hc' sid ?_ st.imm v taken
    rw [slotAt_of_rob_eq (s := s) (congrArg State.rob e' :)]
    exact (owner_some ho).1

theorem Ring.executeStation (h : s.Ring) (sid : Nat) (e : executeStation sid s = .next t) : t.Ring := by
  rcases executeStation_cases sid s with h1 | ⟨st, -, -, h1⟩ | ⟨st, -, -, -, -, h1⟩ | ⟨st, k, sl, -, -, -, ho, h1⟩ <;>
    rw [h1] at e <;> cases e
  · exact h
  · exact h.of_rob rfl rfl rfl rfl
  · exact h.of_set rfl rfl rfl (owner_some ho).1 rfl rfl

theorem Ring.issueInstr (h : s.Ring) (hc : s.Consistent)
    (hold : ∀ k sl, s.slotAt k = some sl → sl.issueCycle < s.currentCycle) (i : Instr) :
    (Sys2Proof.Machine.issueInstr i s).Ring := by
  rcases issueInstr_cases i s with ⟨why, e⟩ | ⟨sid, n, rest, hf, -, -, e⟩ <;> rw [e]
  · exact h.of_rob rfl rfl rfl rfl
  · exact h.issued (Config.nrob_pos hc.shape.cfgWf) hc.shape.robLen hf hold i sid n rest

theorem Ring.commitPhase (h : s.Ring) (hc : s.Consistent) : (Sys2Proof.Machine.commitPhase s).Ring := by
  rcases commitPhase_cases s with ⟨e, -⟩ | ⟨sl, hk, -, e⟩ <;> rw [e]
  · exact h
  · exact h.retired (Config.nrob_pos hc.shape.cfgWf) hc.shape.robLen hc.shape.headLt hk

theorem Ring.endTick (h : s.Ring) : s.endTick.Ring := by
  rcases endTick_cases s with ⟨-, -, e⟩ | ⟨-, e⟩ <;> rw [e] <;> exact h.of_rob rfl rfl rfl rfl

end State

end Sys2Proof.Machine
end

