-- ==== Sys2Proof/Laws/TickLaws.lean ====
section
/-! SUPPORT. What holds between the phases of a tick that starts in a state meeting the invariant. -/

namespace Sys2Proof.Machine

open State

/-- A candidate's write-result creates no slot. -/
theorem writeBack_slots {rule : OpcodeRule} (hr : rule.Framed) (sid : Nat) {s : State} (h : s.Consistent) (c : Nat)
  (hs : ∀ k sl, s.slotAt k = some sl → sl.issueCycle < c) : ∀ k sl, (writeBack rule sid s).slotAt k = some sl → sl.issueCycle < c := by
  rcases writeBack_cases rule sid s with ⟨-, e⟩ | ⟨st, k, i, -, -, e⟩ | ⟨st, k, sl, a, -, -, -, -, e⟩ |
    ⟨st, k, sl, v, taken, s', hst, ho, -, hd, e⟩ <;> rw [e]
  · exact hs
  · exact hs
  · exact hs
  · have hf := hr st s v taken s' hd
    have h' := h.of_same (sameCore_of_ruleFrame hf h.shape.pcLe)
    obtain ⟨hk, hn⟩ := owner_some ho
    have hk' : s'.slotAt k = some sl := by rw [slotAt_of_rob_eq (by rw [hf.same])]; exact hk
    have hst' : s'.stationAt sid = some st := by rw [stationAt_of_rs_eq (by rw [hf.same])]; exact hst
    have hs' : ∀ k sl, s'.slotAt k = some sl → sl.issueCycle < c := by
      intro j x hj; rw [slotAt_of_rob_eq (s := s) (by rw [hf.same])] at hj; exact hs j x hj
    have hp := published_slotAt (s := s') v hk'
    have hS := h'.published v hst' hk' hn
    intro j x hj
    unfold State.finishWrite at hj
    have pub : ∀ j x, ((s'.recordResult k sl v).broadcast sl.renamedReg v).slotAt j = some x → x.issueCycle < c := by
      intro j x hj
      rw [hp] at hj
      split at hj
      · obtain rfl := Option.some.inj hj
        exact hs k sl hk
      · exact hs' _ _ hj
    cases taken with
    | false => exact pub j x hj
    | true =>
      have h2 := hS.victims_ok k sl.issueCycle
      have h3 := cancelAll_slotAt k _ h2.1 h2.2 j
      replace hj : (List.foldl (fun t js => t.cancel k js) ((s'.recordResult k sl v).broadcast sl.renamedReg v) (((s'.recordResult k sl v).broadcast sl.renamedReg v).victims k sl.issueCycle)).slotAt j = some x := hj
      rw [h3] at hj
      split at hj
      · cases hj
      · exact pub j x hj

namespace State

variable {s : State}

/-- The write-result phase keeps consistency, and every slot it leaves was issued before. -/
theorem Inv.afterWriteResults (h : s.Inv) {s1 : State}
    (e : writeResults s.candidates (s.logEvent (.cycleStart s.currentCycle)) = .next s1) :
    s1.Consistent ∧ ∀ k sl, s1.slotAt k = some sl → sl.issueCycle < s.currentCycle := by
  refine writeResults_keeps (P := fun u => u.Consistent ∧ ∀ k sl, u.slotAt k = some sl → sl.issueCycle < s.currentCycle)
    ?_ ?_ _ ⟨((h.consistent.soundBut none).logEvent _).consistent, h.issuedBefore⟩ e
  · exact fun u b hu => ⟨((hu.1.soundBut none).setBus b).consistent, hu.2⟩
  · exact fun op sid u hu _ =>
      ⟨hu.1.writeBack (ruleOf_framed op) sid, writeBack_slots (ruleOf_framed op) sid hu.1 _ hu.2⟩

/-- The visit of a station keeps the issue cycles. -/
theorem executeStation_slots {t : State} (sid c : Nat) (e : executeStation sid s = .next t)
    (h : ∀ k sl, s.slotAt k = some sl → sl.issueCycle < c) : ∀ k sl, t.slotAt k = some sl → sl.issueCycle < c := by
  rcases executeStation_cases sid s with e' | ⟨st, -, -, e'⟩ | ⟨st, -, -, -, -, e'⟩ | ⟨st, k, sl, -, -, -, ho, e'⟩ <;>
    rw [e'] at e <;> cases e
  · exact h
  · exact h
  · obtain ⟨hk, -⟩ := owner_some ho
    intro j x hj
    rw [executed_slotAt sid st hk] at hj
    split at hj
    · obtain rfl := Option.some.inj hj; exact h k sl hk
    · exact h j x hj

/-- The execute phase of a consistent state, with what the issue phase needs. -/
theorem Consistent.afterExecute {s1 s2 : State} (h : s1.Consistent) (e : Sys2Proof.Machine.executePhase s1 = .next s2) {c : Nat}
    (hold : ∀ k sl, s1.slotAt k = some sl → sl.issueCycle < c) :
    s2.Consistent ∧ ∀ k sl, s2.slotAt k = some sl → sl.issueCycle < c := by
  obtain ⟨u, e', hc⟩ := h.executePhase
  rw [e] at e'
  cases e'
  exact ⟨hc, executeStations_keeps (P := fun u => ∀ k sl, u.slotAt k = some sl → sl.issueCycle < c)
    (fun sid _ _ h e => executeStation_slots sid c e h) _ hold e⟩

end State

end Sys2Proof.Machine
end

