-- ==== Sys2Proof/Laws/WaitLaws.lean ====
section
/-! SUPPORT. What each operation does to the names stations wait for (42_write_result.md R125 (c)). -/

namespace Sys2Proof.Machine

namespace State

variable {s t : State}

/-- Stations keep what they wait for or wait for less, and slots keep what a wait needs. -/
theorem WaitsOk.of_parts (h : s.WaitsOk)
    (hst : ∀ sid st q, t.stationAt sid = some st → (st.qj = some q ∨ st.qk = some q) →
      ∃ st', s.stationAt sid = some st' ∧ (st'.qj = some q ∨ st'.qk = some q) ∧ st'.dest = st.dest)
    (hsl : ∀ sid st q k sl, t.stationAt sid = some st → (st.qj = some q ∨ st.qk = some q) → s.slotAt k = some sl →
      sl.renamedReg = q → sl.ready = false → sl.publicReg ≠ none →
      (∀ k' sl', s.slotAt k' = some sl' → sl'.renamedReg = st.dest → sl.issueCycle < sl'.issueCycle) →
      ∃ k2 sl2, t.slotAt k2 = some sl2 ∧ sl2.renamedReg = sl.renamedReg ∧ sl2.ready = false ∧
        sl2.publicReg = sl.publicReg ∧ sl2.issueCycle = sl.issueCycle)
    (hold : ∀ sid st k sl, t.stationAt sid = some st → t.slotAt k = some sl → sl.renamedReg = st.dest →
      ∃ k' sl', s.slotAt k' = some sl' ∧ sl'.renamedReg = sl.renamedReg ∧ sl'.issueCycle = sl.issueCycle) : t.WaitsOk := by
  intro sid st q hs hq
  obtain ⟨st', h1, h2, h3⟩ := hst sid st q hs hq
  obtain ⟨k, sl, g1, g2, g3, g4, g5⟩ := h sid st' q h1 h2
  rw [h3] at g5
  obtain ⟨k2, sl2, e1, e2, e3, e4, e5⟩ := hsl sid st q k sl hs hq g1 g2 g3 g4 g5
  refine ⟨k2, sl2, e1, e2.trans g2, e3, by rw [e4]; exact g4, ?_⟩
  intro k' sl' hk' hd
  obtain ⟨j, x, hj, hx1, hx2⟩ := hold sid st k' sl' hs hk' hd
  have := g5 j x hj (hx1.trans hd)
  omega

theorem WaitsOk.of_eq (h : s.WaitsOk) (h1 : t.rob = s.rob) (h2 : t.rs = s.rs) : t.WaitsOk := by
  refine h.of_parts ?_ ?_ ?_
  · intro sid st q hs hq; rw [stationAt_of_rs_eq h2] at hs; exact ⟨st, hs, hq, rfl⟩
  · intro sid st q k sl _ _ hk _ hr _ _; rw [← slotAt_of_rob_eq h1] at hk; exact ⟨k, sl, hk, rfl, hr, rfl, rfl⟩
  · intro sid st k sl _ hk _; rw [slotAt_of_rob_eq h1] at hk; exact ⟨k, sl, hk, rfl, rfl⟩

theorem deliver_waits {q n : Nat} {v : Value} {st : Station} (h : (deliver n v st).qj = some q ∨ (deliver n v st).qk = some q) :
    q ≠ n ∧ (st.qj = some q ∨ st.qk = some q) := by
  unfold deliver at h
  rcases h with h | h <;> dsimp only at h <;> split at h
  · cases h
  · refine ⟨?_, .inl h⟩; rintro rfl; contradiction
  · cases h
  · refine ⟨?_, .inr h⟩; rintro rfl; contradiction

theorem WaitsOk.published (h : s.WaitsOk) {k : Nat} {sl : Slot} (v : Value) (hk : s.slotAt k = some sl) :
    ((s.recordResult k sl v).broadcast sl.renamedReg v).WaitsOk := by
  refine h.of_parts ?_ ?_ ?_
  · intro sid st q hs hq
    rw [published_stationAt] at hs
    obtain ⟨w, hw, rfl⟩ := Option.map_eq_some_iff.1 hs
    exact ⟨w, hw, (deliver_waits hq).2, rfl⟩
  · intro sid st q j x hs hq hj hn hr hp _
    rw [published_stationAt] at hs
    obtain ⟨w, hw, rfl⟩ := Option.map_eq_some_iff.1 hs
    have hne := (deliver_waits hq).1
    refine ⟨j, x, ?_, rfl, hr, rfl, rfl⟩
    rw [published_slotAt v hk, if_neg, hj]
    rintro rfl
    rw [hk] at hj; cases hj
    exact hne hn.symm
  · intro sid st j x hs hj hd
    rw [published_slotAt v hk] at hj
    split at hj
    · obtain rfl := Option.some.inj hj; exact ⟨k, sl, hk, rfl, rfl⟩
    · exact ⟨j, x, hj, rfl, rfl⟩

theorem WaitsOk.flushAndRedirect {ex : Option Nat} (h : s.WaitsOk) (hs : s.SoundBut ex) {k : Nat} {sl : Slot} (hk : s.slotAt k = some sl) (imm : Int) {sid} (hex : ex = some sid) :
    ((s.flushAndRedirect k sl.issueCycle imm).clearStation sid).WaitsOk := by
  have h2 := hs.victims_ok k sl.issueCycle
  have e1 : ∀ j, ((s.flushAndRedirect k sl.issueCycle imm).clearStation sid).slotAt j = if j ∈ (s.victims k sl.issueCycle).map Prod.fst then none else s.slotAt j :=
    fun j => cancelAll_slotAt k _ h2.1 h2.2 j
  have e2 : ∀ j st, ((s.flushAndRedirect k sl.issueCycle imm).clearStation sid).stationAt j = some st → j ≠ sid ∧ s.stationAt j = some st ∧ st.dest ∉ (s.victims k sl.issueCycle).map (fun js => js.2.renamedReg) := by
    intro j st hj
    by_cases hl : sid < (s.flushAndRedirect k sl.issueCycle imm).rs.length
    · rw [stationAt_of_setBody (s := s.flushAndRedirect k sl.issueCycle imm) rfl hl] at hj
      split at hj
      · cases hj
      · refine ⟨‹_›, ?_⟩
        have := cancelAll_stationAt k (s.victims k sl.issueCycle) s j
        have hj' : (List.foldl (fun t js => t.cancel k js) s (s.victims k sl.issueCycle)).stationAt j = some st := hj
        rw [this, Option.filter_eq_some_iff] at hj'
        simpa using hj'
    · have e3 : ((s.flushAndRedirect k sl.issueCycle imm).clearStation sid).rs = (s.flushAndRedirect k sl.issueCycle imm).rs := by
        unfold State.clearStation setBody
        exact List.modify_eq_self (by omega)
      have hj2 := hj
      rw [stationAt_of_rs_eq e3] at hj
      have := cancelAll_stationAt k (s.victims k sl.issueCycle) s j
      have hj' : (List.foldl (fun t js => t.cancel k js) s (s.victims k sl.issueCycle)).stationAt j = some st := hj
      rw [this, Option.filter_eq_some_iff] at hj'
      have hlt := stationAt_lt hj
      exact ⟨by omega, by simpa using hj'⟩
  refine h.of_parts ?_ ?_ ?_
  · intro a st q ha hq
    exact ⟨st, (e2 a st ha).2.1, hq, rfl⟩
  · intro a st q j x ha hq hj hn hr hp hlt
    obtain ⟨n1, n2, n3⟩ := e2 a st ha
    refine ⟨j, x, ?_, rfl, hr, rfl, rfl⟩
    rw [e1, if_neg, hj]
    intro hv
    obtain ⟨⟨j', x'⟩, hv2, hjj⟩ := List.mem_map.1 hv
    obtain rfl : j' = j := hjj
    obtain ⟨v1, v2, v3⟩ := mem_victims.1 hv2
    obtain rfl : x = x' := by rw [hj] at v1; cases v1; rfl
    obtain ⟨b, y, hb, hyd, -⟩ := hs.links a st (by rw [hex]; simpa using n1) n2
    have := hlt b y hb hyd
    by_cases hbk : b = k
    · subst hbk; rw [hk] at hb; cases hb; omega
    · apply n3
      rw [List.mem_map]
      exact ⟨(b, y), mem_victims.2 ⟨hb, hbk, by omega⟩, hyd⟩
  · intro a st j x ha hj hd
    rw [e1] at hj
    split at hj
    · cases hj
    · exact ⟨j, x, hj, rfl, rfl⟩

theorem WaitsOk.clearStation (h : s.WaitsOk) (sid) : (s.clearStation sid).WaitsOk := by
  refine h.of_parts ?_ ?_ ?_
  · intro a st q ha hq
    refine ⟨st, ?_, hq, rfl⟩
    unfold State.clearStation State.stationAt at ha
    dsimp only at ha
    rw [getElem?_setBody] at ha
    unfold State.stationAt
    cases e : s.rs[a]? <;> simp [e] at ha ⊢
    split at ha
    · cases ha
    · exact ha
  · intro a st q j x ha hq hj hn hr hp hlt; exact ⟨j, x, hj, rfl, hr, rfl, rfl⟩
  · intro a st j x ha hj hd; exact ⟨j, x, hj, rfl, rfl⟩

theorem WaitsOk.writeBack (h : s.WaitsOk) (hc : s.Consistent) {rule : OpcodeRule} (hr : rule.Framed) (sid : Nat) :
    (Sys2Proof.Machine.writeBack rule sid s).WaitsOk := by
  rcases writeBack_cases rule sid s with ⟨-, e⟩ | ⟨st, k, i, -, -, e⟩ | ⟨st, k, sl, a, -, -, -, -, e⟩ |
    ⟨st, k, sl, v, taken, s', hst, ho, -, hd, e⟩ <;> rw [e]
  · exact h
  · exact h.of_eq rfl rfl
  · exact h.of_eq rfl rfl
  · have hf := hr st s v taken s' hd
    have hw : s'.WaitsOk := h.of_eq (by rw [hf.same]) (by rw [hf.same])
    have hS := hc.of_same (sameCore_of_ruleFrame hf hc.shape.pcLe)
    obtain ⟨hk, hn⟩ := owner_some ho
    have hk' : s'.slotAt k = some sl := by rw [slotAt_of_rob_eq (by rw [hf.same])]; exact hk
    have hst' : s'.stationAt sid = some st := by rw [stationAt_of_rs_eq (by rw [hf.same])]; exact hst
    have hp := hw.published v hk'
    have hB := hS.published v hst' hk' hn
    unfold State.finishWrite
    cases taken with
    | false => exact hp.clearStation sid
    | true =>
      have hk2 : ((s'.recordResult k sl v).broadcast sl.renamedReg v).slotAt k = some { sl with result := v, ready := true, state := .resultWritten, writeCycle := s'.currentCycle } := by
        rw [published_slotAt v hk', if_pos rfl]
      exact hp.flushAndRedirect hB hk2 st.imm rfl

theorem WaitsOk.executeStation (h : s.WaitsOk) (sid : Nat) (e : executeStation sid s = .next t) : t.WaitsOk := by
  rcases executeStation_cases sid s with e' | ⟨st, -, -, e'⟩ | ⟨st, -, -, -, -, e'⟩ | ⟨st, k, sl, hst, -, -, ho, e'⟩ <;>
    rw [e'] at e <;> cases e
  · exact h
  · exact h.of_eq rfl rfl
  · obtain ⟨hk, hn⟩ := owner_some ho
    refine h.of_parts ?_ ?_ ?_
    · intro a w q ha hq
      rw [executed_stationAt hst] at ha
      split at ha
      · cases ha; subst a; exact ⟨st, hst, hq, rfl⟩
      · exact ⟨w, ha, hq, rfl⟩
    · intro a w q j x ha hq hj hn hr hp hlt
      have := executed_slotAt sid st hk j
      split at this
      · subst j; rw [hk] at hj; cases hj; exact ⟨_, _, this, rfl, hr, rfl, rfl⟩
      · exact ⟨j, x, this.trans hj, rfl, hr, rfl, rfl⟩
    · intro a w j x ha hj hd
      rw [executed_slotAt sid st hk] at hj
      split at hj
      · cases hj; exact ⟨k, sl, hk, rfl, rfl⟩
      · exact ⟨j, x, hj, rfl, rfl⟩

theorem WaitsOk.issueInstr (h : s.WaitsOk) (hc : s.Consistent)
    (hold : ∀ k sl, s.slotAt k = some sl → sl.issueCycle < s.currentCycle) (i : Instr) :
    (Sys2Proof.Machine.issueInstr i s).WaitsOk := by
  rcases issueInstr_cases i s with ⟨why, e⟩ | ⟨sid, n, rest, ht, hf, hn, e⟩ <;> rw [e]
  · exact h.of_eq rfl rfl
  · have htl : s.tail < s.rob.length := by rw [hc.shape.robLen]; exact hc.shape.tailLt
    have es := slotAt_of_rob_set (s := s) (t := s.issued i sid n rest) rfl htl
    have est := stationAt_of_setBody (s := s) (t := s.issued i sid n rest) rfl (freeStation_some hf).1
    have hno := (hc.soundBut none).free_not_owned (n := n) (by rw [hn]; exact List.mem_cons_self)
    have keep : ∀ k sl, s.slotAt k = some sl → (s.issued i sid n rest).slotAt k = some sl := by
      intro k sl hk
      rw [es, if_neg, hk]
      rintro rfl; rw [ht] at hk; cases hk
    intro a w q ha hq
    rw [est] at ha
    split at ha
    · cases ha
      have hw : ∃ k sl, s.slotAt k = some sl ∧ sl.renamedReg = q ∧ sl.ready = false ∧ sl.publicReg ≠ none := by
        rcases hq with hq | hq <;> exact operand_waits hq
      obtain ⟨k, sl, h1, h2, h3, h4⟩ := hw
      refine ⟨k, sl, keep k sl h1, h2, h3, h4, ?_⟩
      intro k' sl' hk' hd
      rw [es] at hk'
      split at hk'
      · cases hk'; exact hold k sl h1
      · exact absurd (mem_ownedNames.2 ⟨k', sl', hk', hd⟩) hno
    · obtain ⟨k, sl, h1, h2, h3, h4, h5⟩ := h a w q ha hq
      refine ⟨k, sl, keep k sl h1, h2, h3, h4, ?_⟩
      intro k' sl' hk' hd
      rw [es] at hk'
      split at hk'
      · cases hk'
        exfalso
        obtain ⟨b, y, hb, hyd, -⟩ := hc.links a w ha
        exact hno (mem_ownedNames.2 ⟨b, y, hb, hyd.trans hd.symm⟩)
      · exact h5 k' sl' hk' hd

theorem WaitsOk.commitPhase (h : s.WaitsOk) : (Sys2Proof.Machine.commitPhase s).WaitsOk := by
  rcases commitPhase_cases s with ⟨e, -⟩ | ⟨sl, hk, hr, e⟩ <;> rw [e]
  · exact h
  · have es := retired_slotAt hk
    refine h.of_parts ?_ ?_ ?_
    · intro a st q ha hq; rw [retired_stationAt] at ha; exact ⟨st, ha, hq, rfl⟩
    · intro a st q j x ha hq hj hn hr' hp hlt
      refine ⟨j, x, ?_, rfl, hr', rfl, rfl⟩
      rw [es, if_neg, hj]
      rintro rfl; rw [hk] at hj; cases hj; rw [hr] at hr'; cases hr'
    · intro a st j x ha hj hd
      rw [es] at hj; split at hj
      · cases hj
      · exact ⟨j, x, hj, rfl, rfl⟩

end State

end Sys2Proof.Machine
end

