-- ==== Sys2Proof/Tests/Slice0.lean ====
section
/-! SUPPORT. Tests on fixed values, their expected results from spec/95_test_vectors.md or worked out by hand from the rules, and
for every obligation with hypotheses a state and operands that meet them all. -/

namespace Sys2Proof.Tests

open Sys2Proof Sys2Proof.Machine

/-! ## Well-formedness: one ill-formed term for each check -/

theorem test_wf_rejects_rd : (Instr.add 32 0 0).wf 32 = false := by decide
theorem test_wf_rejects_rs1 : (Instr.sub 0 32 0).wf 32 = false := by decide
theorem test_wf_rejects_rs2 : (Instr.mul 0 0 8).wf 8 = false := by decide
theorem test_wf_rejects_div_register : (Instr.div 8 0 0).wf 8 = false := by decide
theorem test_wf_rejects_wide_offset : (Instr.ld 0 0 2147483648).wf 32 = false := by decide
theorem test_wf_rejects_low_offset : (Instr.sd 0 0 (-2147483649)).wf 32 = false := by decide
theorem test_wf_rejects_target_zero : (Instr.beqz 0 0).wf 32 = false := by decide
theorem test_wf_accepts_extremes : (Instr.ld 31 31 (-2147483648)).wf 32 = true ∧ (Instr.beqz 0 2147483647).wf 32 = true := by
  decide

/-! ## Decoding: words written from 30_encoding.md R61, R64 (vectors V-ENC and V-LERR) -/

theorem test_decode_add : decode 32 0x000000000007FFF1#64 = .ok (.add 31 31 31) := by decide
theorem test_decode_sub : decode 32 0x0000000000004A52#64 = .ok (.sub 5 5 1) := by decide
theorem test_decode_mul : decode 32 0x0000000000008243#64 = .ok (.mul 4 1 2) := by decide
theorem test_decode_div : decode 32 0x0000000000008264#64 = .ok (.div 6 1 2) := by decide
theorem test_decode_ld : decode 32 0x8000000000000015#64 = .ok (.ld 1 0 (-2147483648)) := by decide
theorem test_decode_sd : decode 32 0x0000000400008006#64 = .ok (.sd 0 2 4) := by decide
theorem test_decode_beqz : decode 32 0x7FFFFFFF00000007#64 = .ok (.beqz 0 2147483647) := by decide
theorem test_decode_bad_opcode_zero : decode 32 0x0000000000080000#64 = .error .badOpcode := by decide
theorem test_decode_bad_opcode_eight : decode 32 0x0000000000000008#64 = .error .badOpcode := by decide
theorem test_decode_reserved_first : decode 32 0x000000050008C411#64 = .error .reservedBits := by decide
theorem test_decode_unused_imm : decode 32 0x000000050000C411#64 = .error .unusedField := by decide
theorem test_decode_unused_rd : decode 32 0x0000000400008016#64 = .error .unusedField := by decide
theorem test_decode_bad_register : decode 8 0x000000000000C491#64 = .error .badRegister := by decide
theorem test_decode_bad_target : decode 32 0xFFFFFFFF00000007#64 = .error .badTarget := by decide
theorem test_encode_ld : encode (.ld 1 0 (-1)) = 0xFFFFFFFF00000015#64 := by decide
theorem test_decodeTableWord_add : decodeTableWord 64 0x000000000000C411 = some (.add 1 2 3) := by decide

/-! ## Binary32 (vectors V-ADD, V-SUB, V-MUL, V-DIV, V-EA) -/

theorem test_add_rounds : F32.add 0x3DCCCCCD#32 0x3E4CCCCD#32 = some 0x3E99999A#32 := by decide
theorem test_add_tie_up : F32.add 0x4B800000#32 0x40400000#32 = some 0x4B800002#32 := by decide
theorem test_add_tie_down : F32.add 0x4B800000#32 0x3F800000#32 = some 0x4B800000#32 := by decide
theorem test_add_overflows : F32.add 0x7F7FFFFF#32 0x7F7FFFFF#32 = some 0x7F800000#32 := by decide
theorem test_add_negative_zeros : F32.add 0x80000000#32 0x80000000#32 = some 0x80000000#32 := by decide
theorem test_sub_small : F32.sub 0x3F800000#32 0x322BCC77#32 = some 0x3F800000#32 := by decide
theorem test_sub_zeros : F32.sub 0x80000000#32 0x00000000#32 = some 0x80000000#32 := by decide
theorem test_mul_rounds : F32.mul 0x3F800001#32 0x3F800001#32 = some 0x3F800002#32 := by decide
theorem test_mul_underflows : F32.mul 0x00000001#32 0x3F000000#32 = some 0x00000000#32 := by decide
theorem test_mul_subnormal : F32.mul 0x00800000#32 0x3F000000#32 = some 0x00400000#32 := by decide
theorem test_div_rounds : F32.div 0x40000000#32 0x40400000#32 = some 0x3F2AAAAB#32 := by decide
theorem test_div_by_negative_zero : F32.div 0x3F800000#32 0x80000000#32 = some 0xFF800000#32 := by decide
theorem test_div_zero_by_zero : F32.div 0x00000000#32 0x00000000#32 = none := by decide
theorem test_ofInt : F32.ofInt (-2) = 0xC0000000#32 ∧ F32.ofNat 13 = 0x41500000#32 := by decide
theorem test_effAddr_truncates : effAddr 1024 0xBFC00000#32 3 = .ok 2 := by decide
theorem test_effAddr_last : effAddr 1024 0x447FF99A#32 0 = .ok 1023 := by decide
theorem test_effAddr_no_wrap : effAddr 1024 0x4F32D05E#32 0 = .bad (some 3000000000) := by decide
theorem test_effAddr_below : effAddr 1024 0x00000000#32 (-1) = .bad (some (-1)) := by decide
theorem test_effAddr_infinite : effAddr 1024 0x7F800000#32 0 = .bad none := by decide
theorem test_equalsZero_negative : F32.equalsZero 0x80000000#32 = true := by decide
theorem test_equalsZero_subnormal : F32.equalsZero 0x00000001#32 = false := by decide

/-! ## Small states -/

/-- A small configuration: four registers, two names, two slots, one station of each class, eight addresses. -/
def tiny : Config :=
  { Config.cfgT with narch := 4, nphys := 2, nrob := 2, nArith := 1, nMuldiv := 1, nMem := 1, nBranch := 1, memSize := 8
                     cycleCap := 20, stuckCap := 1, runCeiling := 30 }

/-- The reset state for a program under the small configuration. -/
def start (prog : List Instr) : State := State.resetWith tiny prog [0#32, 0#32] 0

/-- The station of a class in the small configuration. -/
def sidOf (c : OpClass) : Nat :=
  match c with
  | .arith => 0
  | .muldiv => 1
  | .mem => 2
  | .branch => 3

/-- What the station of `i` holds in flight, with `c` cycles left. -/
def stOf (i : Instr) (vj vk : Value) (c : Nat) : Station :=
  { op := i.opcode, vj := vj, vk := vk, qj := none, qk := none, dest := 0, imm := i.imm, cyclesRemaining := c }

/-- The slot of `i` in flight, issued in cycle 1. -/
def slOf (i : Instr) (c : Nat) : Slot :=
  { instr := 0, renamedReg := 0, publicReg := i.dst, state := if c = 0 then .executed else .processing, ready := false
    result := F32.posZero, issueCycle := 1, execCycle := 0, writeCycle := 0, commitCycle := 0 }

/-- In cycle 9 the one instruction `i` of the program is in flight in slot 0 under the name 0. -/
def flight (i : Instr) (vj vk : Value) (c : Nat) : State :=
  { start [i] with
    pc := 1, status := [if c = 0 then .executed else .issued], currentCycle := 9, freeList := [1], tail := 1
    rob := [some (slOf i c), none]
    rs := setBody (freeStations tiny) (sidOf i.cls) (some (stOf i vj vk c)) }

/-- The same with the station on the result bus. -/
def bus (i : Instr) (vj vk : Value) : State := (flight i vj vk 0).setBus (some (sidOf i.cls))

/-- The state an outcome goes on in. -/
def after (o : Host.Outcome State Fault Refusal) : Option State :=
  match o with
  | .next s => some s
  | .fault _ => none
  | .refused _ => none

theorem next_of_after {o : Host.Outcome State Fault Refusal} (h : (after o).isSome = true) : ∃ t, o = .next t := by
  cases o with
  | next s => exact ⟨s, rfl⟩
  | fault _ => cases h
  | refused _ => cases h

/-- What slot 0 holds as result after an action, if it is ready. -/
def result0 (o : Host.Outcome State Fault Refusal) : Option Value :=
  (after o).bind (fun s => (s.slotAt 0).bind (fun sl => if sl.ready then some sl.result else none))

/-! ## One step of each instruction: its issue from reset, and its write-result -/

theorem test_add_issues : ((after (step (start [.add 1 2 3]))).bind (fun s => s.stationAt 0)) =
    some { op := .add, vj := 0x40000000#32, vk := 0x40400000#32, qj := none, qk := none, dest := 0, imm := 0
           cyclesRemaining := 3 } := by decide
theorem test_add_writes : result0 (exec (.add 1 2 3) (bus (.add 1 2 3) 0x40000000#32 0x40400000#32)) = some 0x40A00000#32 := by
  decide
theorem test_sub_issues : ((after (step (start [.sub 1 1 1]))).map (fun s => s.freeList)) = some [1] := by decide
theorem test_sub_writes : result0 (exec (.sub 1 2 3) (bus (.sub 1 2 3) 0x40000000#32 0x40400000#32)) = some 0xBF800000#32 := by
  decide
theorem test_mul_issues : ((after (step (start [.mul 3 1 2]))).map (fun s => s.renameMap)) = some [none, none, none, some 0] := by
  decide
theorem test_mul_writes : result0 (exec (.mul 1 2 3) (bus (.mul 1 2 3) 0x40000000#32 0x40400000#32)) = some 0x40C00000#32 := by
  decide
theorem test_div_issues : ((after (step (start [.div 3 1 2]))).bind (fun s => s.stationAt 1)).map Station.cyclesRemaining =
    some 8 := by decide
theorem test_div_writes : result0 (exec (.div 1 2 3) (bus (.div 1 2 3) 0x40000000#32 0x40400000#32)) = some 0x3F2AAAAB#32 := by
  decide
theorem test_ld_issues : ((after (step (start [.ld 1 3 4]))).bind (fun s => s.stationAt 2)).map Station.imm = some 4 := by decide
theorem test_ld_writes : result0 (exec (.ld 1 3 4) (bus (.ld 1 3 4) 0x40400000#32 0#32)) = some 0x40E00000#32 := by decide
theorem test_sd_issues : ((after (step (start [.sd 0 2 4]))).map (fun s => s.renameMap)) = some [none, none, none, none] := by
  decide
theorem test_sd_writes : ((after (exec (.sd 0 2 4) (bus (.sd 0 2 4) 0#32 0x40000000#32))).map (fun s => s.mem)) =
    some [(4, 0x40000000#32)] := by decide
theorem test_beqz_issues : ((after (step (start [.beqz 0 1]))).map (fun s => (s.pc, s.tail))) = some (1, 1) := by decide
theorem test_beqz_taken : ((after (exec (.beqz 0 1) (bus (.beqz 0 1) 0x80000000#32 0#32))).map (fun s => (s.pc, s.tail))) =
    some (0, 1) := by decide

/-! ## What the small states are -/

theorem flight_slotAt (i : Instr) (vj vk : Value) (c k : Nat) :
    (flight i vj vk c).slotAt k = if k = 0 then some (slOf i c) else none := by
  match k with
  | 0 => rfl
  | 1 => rfl
  | k + 2 => rfl

theorem flight_stationAt (i : Instr) (vj vk : Value) (c j : Nat) :
    (flight i vj vk c).stationAt j = if j = sidOf i.cls then some (stOf i vj vk c) else none := by
  have hlt : sidOf i.cls < (freeStations tiny).length := by
    generalize i.cls = c; cases c <;> decide
  rw [State.stationAt_of_setBody (s := start [i]) rfl hlt]
  split
  · rfl
  · exact resetWith_stationAt _ _ _ _ _

/-- A well-formed instruction in flight makes a state that meets every invariant. -/
theorem flight_invariants {i : Instr} (hi : i.wf 4 = true) (vj vk : Value) {c : Nat} (hc : c ≤ tiny.lat i.opcode) :
    (flight i vj vk c).Inv ∧ (flight i vj vk c).Ring ∧ (flight i vj vk c).WaitsOk ∧ (flight i vj vk c).MemOk ∧
      (flight i vj vk c).CommitBound := by
  have h1 := flight_slotAt i vj vk c
  have h2 := flight_stationAt i vj vk c
  have s1 : ∀ {k sl}, (flight i vj vk c).slotAt k = some sl → k = 0 ∧ sl = slOf i c := by
    intro k sl h; rw [h1] at h; split at h
    · exact ⟨‹_›, (Option.some.inj h).symm⟩
    · cases h
  have s2 : ∀ {j st}, (flight i vj vk c).stationAt j = some st → j = sidOf i.cls ∧ st = stOf i vj vk c := by
    intro j st h; rw [h2] at h; split at h
    · exact ⟨‹_›, (Option.some.inj h).symm⟩
    · cases h
  refine ⟨⟨⟨⟨show tiny.wf = true by decide, Nat.le_of_ble_eq_true rfl, ?_, rfl, rfl, rfl, rfl, rfl, rfl, ?_,
    show 0 < 2 by decide, show 1 < 2 by decide, show 1 ≤ 2147483647 by decide, show 1 ≤ 9 by decide⟩,
    ?_, ?_, ?_, ?_, ?_, ?_⟩, rfl, ?_, fun h => Bool.noConfusion h.1⟩, ⟨1, show 1 ≤ 2 by decide, rfl, ?_, ?_⟩, ?_, ?_, ?_⟩
  · intro j hj; obtain rfl := List.mem_singleton.1 hj; exact hi
  · cases i <;> rfl
  · intro k sl h
    obtain ⟨-, rfl⟩ := s1 h
    refine ⟨show 0 < 1 by decide, ?_, show 1 ≤ 9 by decide, show 1 ≤ 1 by decide, ?_, fun _ => rfl, rfl⟩
    · intro r hr; exact Instr.dst_lt hi hr
    · simp only [slOf]; split <;> simp
  · intro j st h
    obtain ⟨rfl, rfl⟩ := s2 h
    refine ⟨?_, hc, fun _ => ⟨rfl, rfl⟩, fun h => absurd rfl h, fun h => absurd rfl h, Instr.imm_inRange hi, Instr.target_ok hi⟩
    cases i <;> rfl
  · show List.Perm ([1] ++ [0]) (List.range 2)
    decide
  · intro j st h
    obtain ⟨-, rfl⟩ := s2 h
    exact ⟨0, slOf i c, by rw [h1, if_pos rfl], rfl, rfl⟩
  · intro a b sa sb ha hb _
    exact (s2 ha).1.trans (s2 hb).1.symm
  · intro r n h
    have : (flight i vj vk c).renameMap = List.replicate 4 none := rfl
    rw [this, List.getElem?_replicate] at h
    split at h <;> simp at h
  · intro k sl h
    obtain ⟨-, rfl⟩ := s1 h
    show 1 < 9
    decide
  · intro j hj
    have hj : j < 2 := hj
    have e : (0 + j) % 2 = j := by omega
    show ((flight i vj vk c).slotAt ((0 + j) % 2)).isSome = true ↔ j < 1
    rw [e, h1]
    split <;> simp <;> omega
  · intro a b x y hab hb; omega
  · intro j st q h hq
    obtain ⟨-, rfl⟩ := s2 h
    simp [stOf] at hq
  · exact ⟨⟨List.Pairwise.nil, fun c h => by cases h⟩, fun c h => by cases h⟩
  · exact ⟨show 1 ≤ 9 by decide, fun _ => show 0 + 1 ≤ 9 by decide, fun h => by cases h⟩

/-- An instruction in flight and on the bus is in the situation the statements about results assume. -/
theorem bus_onBus (i : Instr) (vj vk : Value) : (bus i vj vk).OnBus (sidOf i.cls) (stOf i vj vk 0) 0 (slOf i 0) := by
  refine ⟨rfl, ?_, ?_, rfl, ?_, ?_⟩
  · exact (flight_stationAt i vj vk 0 _).trans (if_pos rfl)
  · exact flight_slotAt i vj vk 0 0
  · intro j x h _
    have := (flight_slotAt i vj vk 0 j).symm.trans h
    split at this
    · assumption
    · cases this
  · show 0 ≠ 9; decide

theorem start_invariants {prog : List Instr} (h : prog.length ≤ 2147483647) (hp : ∀ i ∈ prog, i.wf 4 = true) :
    (start prog).Inv ∧ (start prog).Ring ∧ (start prog).WaitsOk ∧ (start prog).MemOk ∧ (start prog).CommitBound :=
  resetWith_inv (by decide) h hp rfl

/-! ## Witnesses: for each obligation with hypotheses, what meets them -/

/-- ADD R1, R2, R3 in flight with its counter at 0. -/
def addDone : State := flight (.add 1 2 3) 0x40000000#32 0x40400000#32 0
/-- ADD R1, R2, R3 in flight with two cycles left. -/
def addRuns : State := flight (.add 1 2 3) 0x40000000#32 0x40400000#32 2
/-- SD R2, 7(R0) in flight with its counter at 0. -/
def sdDone : State := flight (.sd 0 2 7) 0#32 0x40000000#32 0
/-- LD R1, 8(R0), whose address does not exist, in flight with its counter at 0. -/
def ldBad : State := flight (.ld 1 0 8) 0#32 0#32 0
/-- The slot of a MUL that follows the ADD in flight. -/
def sl2 : Slot := { slOf (.mul 2 1 1) 4 with instr := 1, renamedReg := 1, issueCycle := 8 }
/-- The station of that MUL, which reads R1 twice and waits for the ADD. -/
def st2 : Station := { stOf (.mul 2 1 1) 0#32 0#32 4 with qj := some 0, qk := some 0, dest := 1 }
/-- The MUL waits for the ADD. -/
def addWaits : State :=
  { addRuns with
    prog := [.add 1 2 3, .mul 2 1 1], status := [.issued, .issued], reissue := [0, 0], pc := 2, freeList := [], tail := 0
    rob := [some (slOf (.add 1 2 3) 2), some sl2]
    rs := setBody addRuns.rs 1 (some st2) }

theorem flight_step (i : Instr) (vj vk : Value) (c : Nat) (h : (after (step (flight i vj vk c))).isSome = true) :
    ∃ t, step (flight i vj vk c) = .next t := next_of_after h

theorem witness_DecodeAndEncodeAgree : (32 : Nat) ≤ 32 ∧ (Instr.ld 31 0 (-2147483648)).wf 32 = true ∧
    (Instr.sd 31 31 2147483647).wf 32 = true ∧ (Instr.beqz 0 1).wf 32 = true ∧
    decode 32 0x8000000000000015#64 = .ok (.ld 1 0 (-2147483648)) := by decide

theorem witness_IllegalWordGetsItsFirstFailingCode : 0x0000000000000007#64 ∈ [0x000000000000C411#64, 0x0000000000000007#64] ∧
    decode State.reset.cfg.narch 0x0000000000000007#64 = .error .badTarget := by decide

theorem witness_LoadIsAllOrNothing_tooLong : 2147483647 < (List.replicate 2147483648 (0#64)).length := by
  rw [List.length_replicate]; decide

theorem witness_LoadIsAllOrNothing_badWord : [0x000000000000C411#64, 0x0000000000000007#64].length ≤ 2147483647 ∧
    [0x000000000000C411#64, 0x0000000000000007#64][1]? = some 0x0000000000000007#64 ∧
    decode 32 0x0000000000000007#64 = .error .badTarget ∧ decode 32 0x000000000000C411#64 = .ok (.add 1 2 3) := by decide

theorem witness_LoadIsAllOrNothing_legal : ∀ (j : Nat) (w : InstrWord), [0x000000000000C411#64][j]? = some w →
    ∃ i, decode State.reset.cfg.narch w = .ok i := by
  intro j w h
  obtain rfl := List.mem_singleton.1 (List.mem_of_getElem? h)
  exact ⟨.add 1 2 3, by decide⟩

theorem witness_ResetCommandGivesTheTable : addRuns.Shape :=
  (flight_invariants (i := .add 1 2 3) (by decide) _ _ (by decide)).1.consistent.shape

theorem witness_PowerOnStepCompletes : Config.cfgT.wf = true := by decide

theorem witness_RunToCompletionStopsAtTheFirstStop : ∃ t, runToCompletion { start [] with cfg := { tiny with runCeiling := 2 } } = .next t :=
  next_of_after (by decide)

theorem witness_SnapshotsShowTheState : addRuns.Shape ∧ (∃ e, addRuns.rs[0]? = some e ∧ e.body.isSome = true) ∧
    (∃ e, addRuns.rs[3]? = some e ∧ e.body = none) :=
  ⟨witness_ResetCommandGivesTheTable, ⟨_, rfl, rfl⟩, ⟨_, rfl, rfl⟩⟩

theorem witness_StoppedStepIsNoOp : { addRuns with complete := true }.complete = true ∧
    (addRuns.raiseFault .badAddress none none none).faultRec ≠ none := by decide

theorem witness_CycleCapStopsTheRun : ({ addRuns with currentCycle := 21 }.complete = false ∧
    { addRuns with currentCycle := 21 }.faultRec = none ∧ { addRuns with currentCycle := 21 }.cfg.cycleCap < 21 ∧ 21 ≤ tiny.cycleCap + 1) ∧
    ∃ t, step { addRuns with currentCycle := 21 } = .next t := ⟨by decide, next_of_after (by decide)⟩

theorem witness_StuckInstructionStopsTheRun : ({ addRuns with reissue := [2] }.complete = false ∧
    { addRuns with reissue := [2] }.faultRec = none ∧ addRuns.currentCycle ≤ addRuns.cfg.cycleCap ∧
    0 < addRuns.prog.length ∧ addRuns.status[0]? = some Status.issued ∧ [2][0]? = some 2 ∧ addRuns.cfg.stuckCap < 2) := by decide

theorem witness_TickRunsThePhasesInOrder :
    (addDone.complete = false ∧ addDone.faultRec = none ∧ addDone.currentCycle ≤ addDone.cfg.cycleCap ∧ addDone.stuckPosition = none) ∧
    ∃ s1, writeResultPhase { addDone with log := addDone.log ++ [.cycleStart addDone.currentCycle] } = .next s1 ∧
      s1.faultRec = none ∧ ∃ s2, executePhase s1 = .next s2 ∧ ∃ s3, issuePhase s2 = .next s3 := by
  refine ⟨by decide, ?_⟩
  have : ((after (writeResultPhase { addDone with log := addDone.log ++ [.cycleStart addDone.currentCycle] })).bind (fun s1 =>
      if s1.faultRec = none then (after (executePhase s1)).bind (fun s2 => after (issuePhase s2)) else none)).isSome = true := by
    decide
  obtain ⟨s1, e1⟩ : ∃ s1, writeResultPhase { addDone with log := addDone.log ++ [.cycleStart addDone.currentCycle] } = .next s1 :=
    next_of_after (by decide)
  rw [e1] at this
  refine ⟨s1, e1, ?_⟩
  change (if s1.faultRec = none then (after (executePhase s1)).bind (fun s2 => after (issuePhase s2)) else none).isSome = true at this
  split at this
  · refine ⟨‹_›, ?_⟩
    cases e2 : executePhase s1 with
    | next s2 => rw [e2] at this; exact ⟨s2, rfl, next_of_after this⟩
    | fault _ => rw [e2] at this; cases this
    | refused _ => rw [e2] at this; cases this
  · cases this

theorem witness_TickRunsThePhasesInOrder_fault : (ldBad.complete = false ∧ ldBad.faultRec = none ∧ ldBad.stuckPosition = none) ∧
    ((after (writeResultPhase { ldBad with log := ldBad.log ++ [.cycleStart ldBad.currentCycle] })).bind State.faultRec).isSome = true := by
  decide

theorem witness_EndOfTickCompletesOrAdvances : ((start []).prog.length ≤ (start []).pc ∧ ∀ k, (start []).slotAt k = none) ∧
    ¬(addRuns.prog.length ≤ addRuns.pc ∧ ∀ k, addRuns.slotAt k = none) :=
  ⟨⟨Nat.le_refl _, fun k => resetWith_slotAt _ _ _ _ k⟩, fun h => absurd (h.2 0) (by decide)⟩

theorem witness_EngineStateTransitions :
    ((after (step (start []))).map engineState = some .completeNormal ∧ engineState (start []) = .running ∧ (start []).timedOut = false) ∧
    ((after (step { addRuns with currentCycle := 21 })).map engineState = some .completeTimeout ∧ engineState addRuns = .running) ∧
    ((after (step ldBad)).map engineState = some .faulted ∧ engineState ldBad = .running) ∧
    engineState { addRuns with complete := true } ≠ .running := by decide

theorem witness_StepRunsTheInstructionAtPc : (start [.add 1 2 3]).currentCycle ≤ (start [.add 1 2 3]).cfg.cycleCap ∧
    (start [.add 1 2 3]).stuckPosition = none ∧
    ((after (writeResultPhase { start [.add 1 2 3] with log := [.cycleStart 1] })).bind (fun s1 =>
      if s1.faultRec = none then (after (executePhase s1)).bind (fun s2 => s2.prog[s2.pc]?) else none)) = some (.add 1 2 3) := by decide

theorem witness_FirstStepAfterLoadRunsWordZero : State.reset.cfg.wf = true ∧
    (∃ t, hostLoad State.reset [0x000000000000C411#64] = .ok t) ∧ decode State.reset.cfg.narch 0x000000000000C411#64 = .ok (.add 1 2 3) :=
  ⟨by decide, ⟨_, rfl⟩, by decide⟩

theorem witness_CandidateRunsItsStationsInstruction : addDone.faultRec = none ∧ addDone.stationAt 3 = none ∧
    addDone.stationAt 0 = some (stOf (.add 1 2 3) 0x40000000#32 0x40400000#32 0) ∧ (Instr.add 0 0 0).opcode = Opcode.add := by decide

theorem witness_CandidateRunsItsStationsInstruction_fault :
    (ldBad.raiseFault .badAddress (some 0) (some 0) (some 8)).faultRec ≠ none ∧ ldBad.candidates = [2] := by decide

theorem witness_IssueReadsTheInstructionAtPc : addRuns.prog.length ≤ addRuns.pc ∧ (start [.add 1 2 3]).pc < (start [.add 1 2 3]).prog.length := by
  decide

theorem witness_IssueStallsForTheFirstReason : addWaits.onBus = none ∧ addWaits.slotAt addWaits.tail ≠ none ∧
    (addRuns.slotAt addRuns.tail = none ∧ ∀ j, j < addRuns.rs.length → (addRuns.stationName j).cls = .arith → addRuns.stationAt j ≠ none) ∧
    ({ start [.add 1 2 3] with freeList := [] }.slotAt 0 = none ∧ ((start [.add 1 2 3]).stationName 0).cls = .arith ∧
      (start [.add 1 2 3]).stationAt 0 = none) := by decide

theorem witness_OperandComesFromTheYoungestWriter :
    (∀ k sl, addRuns.slotAt k = some sl → sl.publicReg ≠ some 2) ∧
    (addRuns.slotAt 0 = some (slOf (.add 1 2 3) 2) ∧ (slOf (.add 1 2 3) 2).publicReg = some 1 ∧ (slOf (.add 1 2 3) 2).ready = false ∧
      ∀ j x, addRuns.slotAt j = some x → x.publicReg = some 1 → j ≠ 0 → x.issueCycle < (slOf (.add 1 2 3) 2).issueCycle) ∧
    ({ addRuns with rob := [some { slOf (.add 1 2 3) 2 with ready := true }, none] }.slotAt 0).map Slot.ready = some true := by
  have h := flight_slotAt (.add 1 2 3) 0x40000000#32 0x40400000#32 2
  refine ⟨?_, ⟨by decide, by decide, by decide, ?_⟩, by decide⟩
  · intro k sl hk
    rw [addRuns, h] at hk
    split at hk
    · obtain rfl := Option.some.inj hk; decide
    · cases hk
  · intro j x hj _ hne
    rw [addRuns, h, if_neg hne] at hj
    cases hj

theorem witness_IssueOfARegisterWriter : ∀ f ∈ [(Opcode.add, 0), (.sub, 0), (.mul, 1), (.div, 1), (.ld, 2)],
    (start [.add 1 2 3]).onBus = none ∧ (start [.add 1 2 3]).slotAt (start [.add 1 2 3]).tail = none ∧ f.2 < (start [.add 1 2 3]).rs.length ∧
    ((start [.add 1 2 3]).stationName f.2).cls = f.1.cls ∧ (start [.add 1 2 3]).stationAt f.2 = none ∧
    (∀ j, j < f.2 → ((start [.add 1 2 3]).stationName j).cls = f.1.cls → (start [.add 1 2 3]).stationAt j ≠ none) ∧
    (start [.add 1 2 3]).freeList = [0, 1] := by decide

theorem witness_IssueOfAStoreOrBranch : ∀ f ∈ [(Opcode.sd, 2), (.beqz, 3)],
    (start [.sd 0 2 4]).onBus = none ∧ (start [.sd 0 2 4]).slotAt (start [.sd 0 2 4]).tail = none ∧ f.2 < (start [.sd 0 2 4]).rs.length ∧
    ((start [.sd 0 2 4]).stationName f.2).cls = f.1.cls ∧ (start [.sd 0 2 4]).stationAt f.2 = none ∧
    (∀ j, j < f.2 → ((start [.sd 0 2 4]).stationName j).cls = f.1.cls → (start [.sd 0 2 4]).stationAt j ≠ none) ∧
    (start [.sd 0 2 4]).freeList = [0, 1] := by decide

theorem witness_ReadyStationExecutesOneStep : ∀ c ∈ [0, 1, 2],
    (flight (.add 1 2 3) 0#32 0#32 c).stationAt 0 = some (stOf (.add 1 2 3) 0#32 0#32 c) ∧
    (flight (.add 1 2 3) 0#32 0#32 c).slotAt 0 = some (slOf (.add 1 2 3) c) ∧
    (slOf (.add 1 2 3) c).renamedReg = (stOf (.add 1 2 3) 0#32 0#32 c).dest ∧
    (∀ j x, (flight (.add 1 2 3) 0#32 0#32 c).slotAt j = some x → x.renamedReg = 0 → j = 0) := by
  intro c _
  refine ⟨flight_stationAt (.add 1 2 3) _ _ c 0, flight_slotAt (.add 1 2 3) _ _ c 0, rfl, fun j x h _ => ?_⟩
  rw [flight_slotAt] at h
  split at h
  · assumption
  · cases h

theorem witness_WaitingStationCountsOneBubble : (addWaits.stationAt 1).map Station.qj = some (some 0) ∧
    ((addWaits.stationAt 1).map (fun st => { st with qj := none })).map Station.qk = some (some 0) := by decide

theorem witness_ExecutePhaseCountsEveryStationOnce : addRuns.Consistent ∧
    (addRuns.stationAt 0).map Station.cyclesRemaining = some 2 ∧ addRuns.stationAt 1 = none :=
  ⟨(flight_invariants (i := .add 1 2 3) (by decide) _ _ (by decide)).1.consistent, by decide, by decide⟩

theorem witness_ExecutePhaseCountsEveryStationOnce_finishes :
    (flight (.add 1 2 3) 0x40000000#32 0x40400000#32 1).Consistent ∧
    (flight (.add 1 2 3) 0x40000000#32 0x40400000#32 1).FinishesExecute 0 0 0 ∧
    ¬∃ sid k, addRuns.FinishesExecute sid k 0 := by
  refine ⟨(flight_invariants (i := .add 1 2 3) (by decide) _ _ (by decide)).1.consistent,
    ⟨_, _, rfl, rfl, rfl, rfl, rfl, rfl, rfl⟩, ?_⟩
  rintro ⟨sid, k, st, sl, h, -, -, h1, -⟩
  have hs : sid < 4 := State.stationAt_lt h
  have : ∀ j, j < 4 → (addRuns.stationAt j).map Station.cyclesRemaining ≠ some 1 := by decide
  exact this sid hs (by rw [h, ← h1]; rfl)

theorem witness_CandidatesAreTheDoneStationsOldestFirst : addDone.Consistent ∧ addDone.candidates = [0] :=
  ⟨(flight_invariants (i := .add 1 2 3) (by decide) _ _ (by decide)).1.consistent, by decide⟩

theorem witness_ResultOfAddAndSub : (bus (.add 1 2 3) 0x7F800000#32 0xFF800000#32).OnBus 0 (stOf (.add 1 2 3) 0x7F800000#32 0xFF800000#32 0) 0
    (slOf (.add 1 2 3) 0) ∧ F32.add 0x7F800000#32 0xFF800000#32 = none ∧ F32.sub 0x7F800000#32 0xFF800000#32 = some 0x7F800000#32 :=
  ⟨bus_onBus _ _ _, by decide, by decide⟩

theorem witness_ResultOfMulAndDiv : (bus (.div 1 2 3) 0#32 0#32).OnBus 1 (stOf (.div 1 2 3) 0#32 0#32 0) 0 (slOf (.div 1 2 3) 0) ∧
    F32.div 0#32 0#32 = none ∧ F32.mul 0#32 0#32 = some 0#32 := ⟨bus_onBus _ _ _, by decide, by decide⟩

theorem witness_ResultOfLoad : (bus (.ld 1 0 7) 0#32 0#32).OnBus 2 (stOf (.ld 1 0 7) 0#32 0#32 0) 0 (slOf (.ld 1 0 7) 0) ∧
    effAddr tiny.memSize 0#32 7 = .ok 7 := ⟨bus_onBus _ _ _, by decide⟩

theorem witness_ResultOfStore : (bus (.sd 0 2 7) 0#32 0x40000000#32).OnBus 2 (stOf (.sd 0 2 7) 0#32 0x40000000#32 0) 0 (slOf (.sd 0 2 7) 0) ∧
    (bus (.sd 0 2 7) 0#32 0x40000000#32).mem.wf ∧ effAddr tiny.memSize 0#32 7 = .ok 7 :=
  ⟨bus_onBus _ _ _, ⟨List.Pairwise.nil, fun c h => by cases h⟩, by decide⟩

theorem witness_BranchNotTaken : (bus (.beqz 1 1) 0x3F800000#32 0#32).OnBus 3 (stOf (.beqz 1 1) 0x3F800000#32 0#32 0) 0 (slOf (.beqz 1 1) 0) ∧
    F32.equalsZero 0x3F800000#32 = false := ⟨bus_onBus _ _ _, by decide⟩

theorem witness_BranchTakenFlushesAndRedirects :
    (bus (.beqz 1 1) 0x80000000#32 0#32).OnBus 3 (stOf (.beqz 1 1) 0x80000000#32 0#32 0) 0 (slOf (.beqz 1 1) 0) ∧
    F32.equalsZero 0x80000000#32 = true ∧ (1 : Int) ≤ 1 := ⟨bus_onBus _ _ _, by decide, by decide⟩

theorem witness_BadAddressIsRecordedAndNothingElse :
    (bus (.ld 1 0 8) 0#32 0#32).OnBus 2 (stOf (.ld 1 0 8) 0#32 0#32 0) 0 (slOf (.ld 1 0 8) 0) ∧ effAddr tiny.memSize 0#32 8 = .bad (some 8) ∧
    (bus (.sd 0 1 (-1)) 0#32 0#32).OnBus 2 (stOf (.sd 0 1 (-1)) 0#32 0#32 0) 0 (slOf (.sd 0 1 (-1)) 0) ∧
    effAddr tiny.memSize 0#32 (-1) = .bad (some (-1)) ∧ effAddr tiny.memSize 0x7F800000#32 0 = .bad none :=
  ⟨bus_onBus _ _ _, by decide, bus_onBus _ _ _, by decide, by decide⟩

theorem witness_InvariantFaultIsRecordedAndNothingElse :
    ({ bus (.add 1 2 3) 0#32 0#32 with rob := [none, none] }.stationAt 0 = some (stOf (.add 1 2 3) 0#32 0#32 0) ∧
      ∀ k sl, { bus (.add 1 2 3) 0#32 0#32 with rob := [none, none] }.slotAt k = some sl → sl.renamedReg ≠ 0) ∧
    ({ bus (.add 1 2 3) 0#32 0#32 with rob := [some { slOf (.add 1 2 3) 0 with writeCycle := 9 }, none] }.slotAt 0).map Slot.writeCycle =
      some (bus (.add 1 2 3) 0#32 0#32).currentCycle := by
  refine ⟨⟨by decide, ?_⟩, by decide⟩
  intro k sl h
  match k with
  | 0 => cases h
  | 1 => cases h
  | k + 2 => cases h

theorem witness_NoDoneStationSurvivesWriteResult :
    ((after (writeResultPhase addDone)).map State.faultRec) = some none ∧ addDone.candidates = [0] := by decide

theorem witness_CommitRetiresTheHead : (start []).slotAt 0 = none ∧ addRuns.slotAt addRuns.head = some (slOf (.add 1 2 3) 2) ∧
    (slOf (.add 1 2 3) 2).ready = false ∧
    ((after (writeResultPhase addDone)).bind (fun s => s.slotAt s.head)).map Slot.ready = some true := by decide

theorem witness_EffectiveAddressOrFault : F32.isNaN 0x7FC00000#32 = true ∧ F32.isInf 0x7F800000#32 = true ∧
    F32.isFinite 0xBF000000#32 = true ∧ F32.truncInt 0xBF000000#32 + 0 = 0 ∧ F32.truncInt 0xBF800000#32 + 0 < 0 ∧
    F32.truncInt 0x44800000#32 + 0 = 1024 := by decide

theorem witness_SumsAndDifferencesAreRoundedToNearestEven : F32.isFinite 0x00000000#32 = true ∧ F32.isFinite 0x80000000#32 = true ∧
    F32.isFinite 0x7F7FFFFF#32 = true := by decide

theorem witness_ProductsAndQuotientsAreRoundedToNearestEven : F32.isFinite 0x7F7FFFFF#32 = true ∧ F32.isFinite 0x00000001#32 = true ∧
    F32.isZero 0x00000001#32 = false := by decide

theorem witness_NanExactlyForInvalidOperations : F32.add 0x40000000#32 0x40400000#32 = some 0x40A00000#32 := by decide

theorem witness_DivisionByZeroGivesAnInfinity : F32.isFinite 0x3F800000#32 = true ∧ F32.isZero 0x3F800000#32 = false ∧
    F32.isZero 0x80000000#32 = true ∧ F32.isInf 0xFF800000#32 = true := by decide

theorem witness_SmallIntegersConvertExactly : (-16777216 : Int).natAbs ≤ 2 ^ 24 ∧ (16777216 : Int).natAbs ≤ 2 ^ 24 := by decide

/-- 10_state.md R32, by hand: 2^24 + 1 and 2^24 + 3 lie midway between two Values; the even ones are 2^24 and 2^24 + 4. -/
theorem test_integers_round_to_even : F32.ofInt 16777217 = 0x4B800000#32 ∧ F32.ofInt 16777219 = 0x4B800002#32 ∧
    F32.ofInt (-16777219) = 0xCB800002#32 := by decide

theorem witness_SumsAndProductsWithInfinities :
    (F32.isInf 0x7F800000#32 = true ∧ F32.isNaN 0x7F800000#32 = false ∧ F32.sign 0x7F800000#32 ≠ F32.sign 0xFF800000#32) ∧
    F32.isFinite 0x3F800000#32 = true ∧ F32.isInf 0xFF800000#32 = true ∧
    F32.isNaN 0x3F800000#32 = false ∧ F32.isZero 0x3F800000#32 = false := by decide

theorem witness_MemoryReadsWhatWasWritten : Memory.wf [(3, 0x40000000#32), (7, 0#32)] ∧ ¬Memory.wf [(3, 0x40400000#32)] := by decide

theorem witness_EveryStepKeepsTheMemoryInItsSpace : sdDone.MemOk ∧ ∃ t, step sdDone = .next t :=
  ⟨(flight_invariants (i := .sd 0 2 7) (by decide) _ _ (by decide)).2.2.2.1, flight_step _ _ _ _ (by decide)⟩

theorem witness_OnlyStoresChangeMemory : sdDone.Inv ∧ sdDone.MemOk ∧ ∃ t, step sdDone = .next t ∧ t.mem.read 7 ≠ sdDone.mem.read 7 := by
  refine ⟨(flight_invariants (i := .sd 0 2 7) (by decide) _ _ (by decide)).1, witness_EveryStepKeepsTheMemoryInItsSpace.1, ?_⟩
  obtain ⟨t, e⟩ := witness_EveryStepKeepsTheMemoryInItsSpace.2
  have : (after (step sdDone)).map (fun t => decide (t.mem.read 7 ≠ sdDone.mem.read 7)) = some true := by decide
  rw [e] at this
  exact ⟨t, e, by simpa [after] using this⟩

theorem witness_HostCommandsMeetTheInvariants : addRuns.Shape ∧ State.reset.cfg.wf = true ∧
    ∃ t, hostLoad State.reset [0x000000000000C411#64] = .ok t :=
  ⟨witness_ResetCommandGivesTheTable, by decide, ⟨_, rfl⟩⟩

theorem witness_EveryStepKeepsTheInvariant : addDone.Inv ∧ ∃ t, step addDone = .next t :=
  ⟨(flight_invariants (i := .add 1 2 3) (by decide) _ _ (by decide)).1, flight_step _ _ _ _ (by decide)⟩

theorem witness_StepNeverStopsNorRaisesInvariant : ldBad.Inv ∧ ((after (step ldBad)).bind State.faultRec).map FaultRecord.code = some .badAddress :=
  ⟨(flight_invariants (i := .ld 1 0 8) (by decide) _ _ (by decide)).1, by decide⟩

theorem witness_EveryStepKeepsTheRing : addDone.Inv ∧ addDone.Ring ∧ ∃ t, step addDone = .next t :=
  ⟨witness_EveryStepKeepsTheInvariant.1, (flight_invariants (i := .add 1 2 3) (by decide) _ _ (by decide)).2.1,
    witness_EveryStepKeepsTheInvariant.2⟩

theorem addWaits_slotAt {k : Nat} {sl : Slot} (h : addWaits.slotAt k = some sl) :
    k = 0 ∧ sl = slOf (.add 1 2 3) 2 ∨ k = 1 ∧ sl = sl2 := by
  match k with
  | 0 => exact .inl ⟨rfl, (Option.some.inj h).symm⟩
  | 1 => exact .inr ⟨rfl, (Option.some.inj h).symm⟩
  | k + 2 => cases h

theorem addWaits_stationAt {j : Nat} {st : Station} (h : addWaits.stationAt j = some st) :
    j = 0 ∧ st = stOf (.add 1 2 3) 0x40000000#32 0x40400000#32 2 ∨ j = 1 ∧ st = st2 := by
  match j with
  | 0 => exact .inl ⟨rfl, (Option.some.inj h).symm⟩
  | 1 => exact .inr ⟨rfl, (Option.some.inj h).symm⟩
  | 2 => cases h
  | 3 => cases h
  | j + 4 => cases h

theorem witness_EveryStepKeepsTheWaitsLive : addWaits.Inv ∧ addWaits.WaitsOk ∧ (∃ st, addWaits.stationAt 1 = some st ∧ st.qj = some 0) ∧
    ∃ t, step addWaits = .next t := by
  refine ⟨⟨⟨⟨by decide, by decide, by decide, by decide, by decide, by decide, by decide, by decide, by decide, by decide,
    by decide, by decide, by decide, by decide⟩, ?_, ?_, ?_, ?_, ?_, ?_⟩, by decide, ?_, by decide⟩, ?_, ⟨_, rfl, rfl⟩, next_of_after (by decide)⟩
  · intro k sl h
    rcases addWaits_slotAt h with ⟨-, rfl⟩ | ⟨-, rfl⟩
    · exact ⟨by decide, by decide, by decide, by decide, by decide, by decide, by decide⟩
    · exact ⟨by decide, by decide, by decide, by decide, by decide, by decide, by decide⟩
  · intro j st h
    rcases addWaits_stationAt h with ⟨rfl, rfl⟩ | ⟨rfl, rfl⟩
    · exact ⟨by decide, by decide, by decide, by decide, by decide, by decide, by decide⟩
    · exact ⟨by decide, by decide, by decide, by decide, by decide, by decide, by decide⟩
  · show List.Perm _ _
    decide
  · intro j st h
    rcases addWaits_stationAt h with ⟨-, rfl⟩ | ⟨-, rfl⟩
    · exact ⟨0, slOf (.add 1 2 3) 2, rfl, rfl, rfl⟩
    · exact ⟨1, sl2, rfl, rfl, rfl⟩
  · intro a b sa sb ha hb h
    rcases addWaits_stationAt ha with ⟨rfl, rfl⟩ | ⟨rfl, rfl⟩ <;> rcases addWaits_stationAt hb with ⟨rfl, rfl⟩ | ⟨rfl, rfl⟩
    · rfl
    · exact absurd h (by decide)
    · exact absurd h (by decide)
    · rfl
  · intro r n h
    have : addWaits.renameMap = List.replicate 4 none := rfl
    rw [this, List.getElem?_replicate] at h
    split at h <;> simp at h
  · intro k sl h
    rcases addWaits_slotAt h with ⟨-, rfl⟩ | ⟨-, rfl⟩ <;> decide
  · intro j st q h hq
    rcases addWaits_stationAt h with ⟨-, rfl⟩ | ⟨-, rfl⟩
    · exact absurd hq (by simp [stOf])
    · obtain rfl : 0 = q := by simpa [st2] using hq
      refine ⟨0, slOf (.add 1 2 3) 2, rfl, rfl, rfl, by decide, ?_⟩
      intro k' sl' h' hd
      rcases addWaits_slotAt h' with ⟨-, rfl⟩ | ⟨-, rfl⟩
      · exact absurd hd (by decide)
      · decide

theorem witness_CommitsNeverExceedCycles : addDone.CommitBound ∧ ∃ t, step addDone = .next t :=
  ⟨(flight_invariants (i := .add 1 2 3) (by decide) _ _ (by decide)).2.2.2.2, witness_EveryStepKeepsTheInvariant.2⟩

theorem witness_PublicRegistersChangeOnlyAtCommit : ∃ t, step addDone = .next t ∧ t.x ≠ addDone.x := by
  obtain ⟨t, e⟩ := witness_EveryStepKeepsTheInvariant.2
  have : (after (step addDone)).map (fun t => decide (t.x ≠ addDone.x)) = some true := by decide
  rw [e] at this
  exact ⟨t, e, by simpa [after] using this⟩

theorem witness_StepKeepsProgramAndExtendsLog : addDone.onBus = none ∧ ∃ t, step addDone = .next t :=
  ⟨by decide, witness_EveryStepKeepsTheInvariant.2⟩

theorem witness_PhysicalRegistersAndRenameMapSteerNothing : ∃ t, step addDone = .next t := witness_EveryStepKeepsTheInvariant.2

theorem witness_LoneInstructionTakesItsLatency : ∀ i ∈ [Instr.add 1 2 3, .sub 1 2 3, .mul 1 2 3, .div 1 2 3, .ld 1 2 5],
    (start [i]).Inv ∧ (start [i]).Ring ∧
    (F32.add ((start [i]).readX 2) ((start [i]).readX 3) = some 0x40A00000#32 ∧
      F32.sub ((start [i]).readX 2) ((start [i]).readX 3) = some 0xBF800000#32 ∧
      F32.mul ((start [i]).readX 2) ((start [i]).readX 3) = some 0x40C00000#32 ∧
      F32.div ((start [i]).readX 2) ((start [i]).readX 3) = some 0x3F2AAAAB#32 ∧
      effAddr tiny.memSize ((start [i]).readX 2) 5 = .ok 7 ∧ (start [i]).mem.read 7 = 0x40E00000#32) ∧
    (∀ k, (start [i]).slotAt k = none) ∧ (start [i]).pc + 1 = (start [i]).prog.length ∧ (start [i]).prog[(start [i]).pc]? = some i ∧
    (∀ n ∈ (start [i]).reissue, n < tiny.stuckCap) ∧ (start [i]).currentCycle + tiny.lat i.opcode + 1 ≤ tiny.cycleCap := by
  intro i hi
  have h := start_invariants (prog := [i]) (Nat.le_of_ble_eq_true rfl) (by
    intro j hj
    obtain rfl := List.mem_singleton.1 hj
    revert j; decide)
  refine ⟨h.1, h.2.1, ?_, fun k => resetWith_slotAt _ _ _ _ k, rfl, rfl, ?_, ?_⟩
  · clear h; revert i; decide
  · clear h; revert i; decide
  · clear h; revert i; decide

end Sys2Proof.Tests
end

section
/-! The binary32 primitives with an infinite operand, where they are no invalid operation (45_arith.md R164, 46_muldiv.md R165;
IEEE 754, log 11). -/

namespace Sys2Proof.F32

/-! ## Infinities and their signs -/

theorem isInf_inf (b : Bool) : isInf (inf b) = true := (isInf_pack infMagnitude_lt).2 rfl

theorem sign_inf (b : Bool) : sign (inf b) = b := sign_pack infMagnitude_lt

theorem notZero_of_isInf {v : Value} (h : isInf v = true) : isZero v = false := by
  rw [← Bool.not_eq_true]
  intro hz
  exact absurd h (by simp [notInf_of_isZero hz])

/-! ## Each primitive, one infinite operand at a time -/

theorem sub_eq_add_neg {a b : Value} (hb : isNaN b = false) : sub a b = add a (neg b) := by
  simp [sub, hb]

/-- Two infinities of opposite signs are the invalid sum; the last premise shuts them out. -/
theorem add_eq_left_of_isInf {a b : Value} (ha : isInf a = true) (hb : isNaN b = false)
    (hs : isInf b = true → sign b = sign a) : add a b = some a := by
  have hna := notNaN_of_isInf ha
  cases hib : isInf b with
  | true => simp [add, hna, hb, ha, hs hib]
  | false => simp [add, hna, hb, ha, hib]

theorem add_eq_right_of_isInf {a b : Value} (ha : isFinite a = true) (hb : isInf b = true) : add a b = some b := by
  simp [add, notNaN_of_finite ha, notInf_of_finite ha, notNaN_of_isInf hb, hb]

/-- The sum with `neg b`: an infinite `b` of the other sign is an infinite `neg b` of the sign of `a`. -/
theorem sub_eq_left_of_isInf {a b : Value} (ha : isInf a = true) (hb : isNaN b = false)
    (hs : isInf b = true → sign b ≠ sign a) : sub a b = some a := by
  rw [sub_eq_add_neg hb]
  refine add_eq_left_of_isInf ha (by rw [isNaN_neg, hb]) fun h => ?_
  rw [sign_neg, Bool.not_eq]
  exact hs (by rwa [isInf_neg] at h)

theorem sub_eq_neg_of_isInf {a b : Value} (ha : isFinite a = true) (hb : isInf b = true) : sub a b = some (neg b) := by
  rw [sub_eq_add_neg (notNaN_of_isInf hb)]
  exact add_eq_right_of_isInf ha (by rw [isInf_neg, hb])

/-- An infinity times a zero is the invalid product; no operand here is a zero. -/
theorem mul_eq_inf {a b : Value} (hi : isInf a = true ∨ isInf b = true) (hna : isNaN a = false) (hnb : isNaN b = false)
    (hza : isZero a = false) (hzb : isZero b = false) : mul a b = some (inf (sign a != sign b)) := by
  simp [mul, hna, hnb, hi, hza, hzb]

end Sys2Proof.F32

open Sys2Proof

/-- Settles O59: the equations above, with the sign of the infinity read off; a product takes the infinite operand on either side. -/
theorem sumsAndProductsWithInfinities : Obligations.SumsAndProductsWithInfinities := by
  intro a b
  refine ⟨fun ha hb => ⟨F32.add_eq_left_of_isInf ha hb, F32.sub_eq_left_of_isInf ha hb⟩, fun ha hb => ?_, fun h => ?_⟩
  · exact ⟨F32.add_eq_right_of_isInf ha hb, F32.neg b, F32.sub_eq_neg_of_isInf ha hb, by rw [F32.isInf_neg, hb], F32.sign_neg b⟩
  · have hmul : F32.mul a b = some (F32.inf (F32.sign a != F32.sign b)) := by
      obtain ⟨ha, hnb, hzb⟩ | ⟨hb, hna, hza⟩ := h
      · exact F32.mul_eq_inf (.inl ha) (F32.notNaN_of_isInf ha) hnb (F32.notZero_of_isInf ha) hzb
      · exact F32.mul_eq_inf (.inr hb) hna (F32.notNaN_of_isInf hb) hza (F32.notZero_of_isInf hb)
    exact ⟨_, hmul, F32.isInf_inf _, F32.sign_inf _⟩
end

section
/-! What one tick keeps of the state's invariants (10_state.md R21 to R23, R31, R36, 44_cycle_engine.md R150): each phase's own law from
Laws/, run through the phases in the order `step_inversion` gives. -/

namespace Sys2Proof.Machine

namespace State

variable {s t : State}

/-! ## The end of a tick -/

@[simp] theorem endTick_x (s : State) : s.endTick.x = s.x := by unfold State.endTick; split <;> rfl
@[simp] theorem endTick_rob (s : State) : s.endTick.rob = s.rob := by unfold State.endTick; split <;> rfl
@[simp] theorem endTick_head (s : State) : s.endTick.head = s.head := by unfold State.endTick; split <;> rfl
@[simp] theorem endTick_committedCount (s : State) : s.endTick.committedCount = s.committedCount := by
  unfold State.endTick; split <;> rfl
@[simp] theorem endTick_faultRec (s : State) : s.endTick.faultRec = s.faultRec := by unfold State.endTick; split <;> rfl
@[simp] theorem endTick_onBus (s : State) : s.endTick.onBus = s.onBus := by unfold State.endTick; split <;> rfl

theorem endTick_logGrows (s : State) : s.log <+: s.endTick.log := by
  rcases endTick_cases s with ⟨-, -, e⟩ | ⟨-, e⟩ <;> rw [e]
  exact List.prefix_append _ _

/-- After the end of a tick every slot belongs to an earlier tick: the cycle number advances, or the ROB is empty
(44_cycle_engine.md R147, R148). -/
theorem Consistent.endTick_issuedBefore (h : s.Consistent) {k : Nat} {sl : Slot} (hk : s.endTick.slotAt k = some sl) :
    sl.issueCycle < s.endTick.currentCycle := by
  rw [slotAt_of_rob_eq s.endTick_rob] at hk
  rcases endTick_cases s with ⟨-, hempty, -⟩ | ⟨-, e⟩
  · rw [robEmpty_slotAt hempty] at hk; cases hk
  · rw [e]; exact Nat.lt_succ_of_le (h.slotsOk k sl hk).issuedBy

/-! ## The issue phase and the loops of the other phases -/

theorem Consistent.issuePhase (h : s.Consistent) (hb : s.onBus = none) (e : issuePhase s = .next t) : t.Consistent := by
  rcases issuePhase_cases hb e with ⟨-, rfl⟩ | ⟨i, hi, rfl⟩
  · exact h
  · exact h.issueInstr hi

theorem Ring.writeResults (h : s.Ring) (hc : s.Consistent) {l : List Nat} (e : writeResults l s = .next t) : t.Ring := by
  have both : t.Consistent ∧ t.Ring := by
    refine writeResults_keeps (P := fun u => u.Consistent ∧ u.Ring) ?_ ?_ l ⟨hc, h⟩ e
    · exact fun u b hu => ⟨((hu.1.soundBut none).setBus b).consistent, hu.2.of_rob rfl rfl rfl rfl⟩
    · exact fun op sid u hu _ => ⟨hu.1.writeBack (ruleOf_framed op) sid, hu.2.writeBack hu.1 (ruleOf_framed op) sid⟩
  exact both.2

theorem Ring.executePhase (h : s.Ring) (e : executePhase s = .next t) : t.Ring :=
  executeStations_keeps (P := State.Ring) (fun sid _ _ hr e => hr.executeStation sid e) _ h e

theorem Ring.issuePhase (h : s.Ring) (hc : s.Consistent)
    (hold : ∀ k sl, s.slotAt k = some sl → sl.issueCycle < s.currentCycle) (hb : s.onBus = none)
    (e : issuePhase s = .next t) : t.Ring := by
  rcases issuePhase_cases hb e with ⟨-, rfl⟩ | ⟨i, -, rfl⟩
  · exact h
  · exact h.issueInstr hc hold i

/-! ## The two invariants, over a step -/

/-- One tick keeps the invariant: the phases keep the state consistent in turn, and the end of the tick puts every slot's issue in
an earlier tick. -/
theorem Inv.step (h : s.Inv) (e : step s = .next t) : t.Inv := by
  rcases step_inversion e with ⟨-, rfl⟩ | ⟨-, hf, why, i, -, rfl⟩ | ⟨hcomplete, -, -, -, s1, e1, f1, b1, hend⟩
  · exact h
  · exact ⟨(((h.consistent.soundBut none).logEvent _).timeout why i).consistent, h.busFree, h.issuedBefore, by simp [hf]⟩
  · obtain ⟨c1, old1⟩ := h.afterWriteResults e1
    rcases hend with ⟨-, rfl⟩ | ⟨hf, s2, s3, e2, f2, e3, f3, -, f4, rfl⟩
    · exact ⟨c1, b1, fun k sl hk => f1.currentCycle ▸ old1 k sl hk, by simp [f1.complete, hcomplete]⟩
    · have c4 := ((c1.afterExecute e2 old1).1.issuePhase (f2.onBus.trans b1) e3).commitPhase
      refine ⟨(c4.soundBut none).endTick.consistent, ?_, fun k sl hk => c4.endTick_issuedBefore hk, ?_⟩
      · rw [endTick_onBus, f4.onBus, f3.onBus, f2.onBus, b1]
      · rw [endTick_faultRec, f4.faultRec, f3.faultRec, f2.faultRec, hf]; simp

/-- One tick keeps the ring; the issue at the tail needs the invariant, under which every other slot is of an earlier tick. -/
theorem Ring.step (h : s.Ring) (hi : s.Inv) (e : step s = .next t) : t.Ring := by
  rcases step_inversion e with ⟨-, rfl⟩ | ⟨-, -, why, i, -, rfl⟩ | ⟨-, -, -, -, s1, e1, f1, b1, hend⟩
  · exact h
  · exact h.of_rob rfl rfl rfl rfl
  · obtain ⟨c1, old1⟩ := hi.afterWriteResults e1
    have hlogged : (s.logEvent (.cycleStart s.currentCycle)).Consistent := ((hi.consistent.soundBut none).logEvent _).consistent
    have r1 : s1.Ring := Ring.writeResults (h.of_rob (t := s.logEvent _) rfl rfl rfl rfl) hlogged e1
    rcases hend with ⟨-, rfl⟩ | ⟨-, s2, s3, e2, f2, e3, -, -, -, rfl⟩
    · exact r1
    · obtain ⟨c2, old2⟩ := c1.afterExecute e2 old1
      have b2 : s2.onBus = none := f2.onBus.trans b1
      have cycle2 : s2.currentCycle = s.currentCycle := f2.currentCycle.trans f1.currentCycle
      have r3 := (r1.executePhase e2).issuePhase c2 (by rwa [cycle2]) b2 e3
      exact (r3.commitPhase (c2.issuePhase b2 e3)).endTick

/-! ## The public registers -/

/-- A commit writes at most one public register, the slot's, and logs it (43_commit.md R131 to R134). -/
theorem commitPhase_x (s : State) : (commitPhase s).x = s.x ∨
    ∃ r v i, (commitPhase s).x = s.x.set r v ∧ (commitPhase s).committedCount = s.committedCount + 1 ∧
      (commitPhase s).head = (s.head + 1) % s.cfg.nrob ∧
      Event.commit s.currentCycle s.head i (some r) v ∈ (commitPhase s).log := by
  rcases commitPhase_cases s with ⟨e, -⟩ | ⟨sl, -, -, e⟩ <;> rw [e]
  · exact .inl rfl
  · cases hr : sl.publicReg with
    | none => exact .inl (by simp [State.retired, hr])
    | some r => exact .inr ⟨r, sl.result, sl.instr, by simp [State.retired, hr], rfl, rfl, by simp [hr]⟩

end State

/-! ## Other physical registers and another rename map, phase by phase -/

section

variable (s t : State) (p : List Value) (m : List (Option Nat))

/-- An instruction's action at either of its two points. -/
theorem exec_swap (i : Instr) (e : exec i s = .next t) :
    ∃ p' m', exec i (State.swap s p m) = .next (State.swap t p' m') := by
  cases hb : s.onBus with
  | none =>
    rw [State.exec_issue i hb] at e
    cases e
    obtain ⟨p', m', h⟩ := issue_swap i s p m
    exact ⟨p', m', by rw [State.exec_issue i (s := State.swap s p m) hb, h]⟩
  | some sid =>
    rw [State.exec_write i hb] at e
    cases e
    obtain ⟨p', m', h⟩ := write_swap i.opcode sid s p m
    exact ⟨p', m', by rw [State.exec_write i (s := State.swap s p m) hb, h]⟩

theorem issuePhase_swap (e : issuePhase s = .next t) :
    ∃ p' m', issuePhase (State.swap s p m) = .next (State.swap t p' m') := by
  unfold issuePhase at e ⊢
  dsimp only
  cases hi : s.prog[s.pc]? with
  | none => rw [hi] at e; cases e; exact ⟨p, m, rfl⟩
  | some i => rw [hi] at e; exact exec_swap s t p m i e

theorem commitPhase_swap :
    ∃ m', commitPhase (State.swap s p m) = State.swap (commitPhase s) p m' := by
  have hslot : (State.swap s p m).slotAt (State.swap s p m).head = s.slotAt s.head := rfl
  unfold commitPhase
  rw [hslot]
  cases s.slotAt s.head with
  | none => exact ⟨m, rfl⟩
  | some sl =>
    cases hr : sl.ready with
    | false => exact ⟨m, by simp [hr]⟩
    | true => exact ⟨(State.swap s p m).unrenamed sl.publicReg sl.renamedReg, by simp only [hr, if_true]; rfl⟩

theorem endTick_swap : (State.swap s p m).endTick = State.swap s.endTick p m := by
  have hempty : (State.swap s p m).robEmpty = s.robEmpty := rfl
  unfold State.endTick
  rw [hempty]
  dsimp only
  split <;> rfl

theorem afterWriteResult_swap (e : afterWriteResult s = .next t) :
    ∃ p' m', afterWriteResult (State.swap s p m) = .next (State.swap t p' m') := by
  unfold afterWriteResult
  rcases State.afterWriteResult_cases e with ⟨hf, rfl⟩ | ⟨hf, s2, s3, e2, e3, rfl⟩
  · exact ⟨p, m, by simp [hf]⟩
  · obtain ⟨p3, m3, h3⟩ := issuePhase_swap s2 s3 p m e3
    obtain ⟨m4, h4⟩ := commitPhase_swap s3 p3 m3
    have h2 : executePhase (State.swap s p m) = .next (State.swap s2 p m) := stations_swap _ s s2 p m e2
    exact ⟨p3, m4, by simp [hf, h2, h3, h4, endTick_swap]⟩

theorem writeResultPhase_swap (e : writeResultPhase s = .next t) :
    ∃ p' m', writeResultPhase (State.swap s p m) = .next (State.swap t p' m') :=
  results_swap s.candidates s t p m e

/-- A tick tests neither in its guards: the stop, the cycle cap and the stuck guard answer as before the swap. -/
theorem step_swap (e : step s = .next t) :
    ∃ p' m', step (State.swap s p m) = .next (State.swap t p' m') := by
  have hstopped : (State.swap s p m).stopped = s.stopped := rfl
  have hlog : (State.swap s p m).logEvent (.cycleStart s.currentCycle) =
      State.swap (s.logEvent (.cycleStart s.currentCycle)) p m := rfl
  have hstuck : (State.swap (s.logEvent (.cycleStart s.currentCycle)) p m).stuckPosition =
      (s.logEvent (.cycleStart s.currentCycle)).stuckPosition := rfl
  unfold step tick at e ⊢
  dsimp only at e ⊢
  rw [hstopped, hlog, hstuck]
  split at e
  · rw [if_pos ‹_›]; cases e; exact ⟨p, m, rfl⟩
  · rw [if_neg ‹_›]
    dsimp only
    split at e
    · rw [if_pos ‹_›]; cases e; exact ⟨p, m, rfl⟩
    · rw [if_neg ‹_›]
      cases hi : (s.logEvent (.cycleStart s.currentCycle)).stuckPosition with
      | some i => rw [hi] at e; cases e; exact ⟨p, m, rfl⟩
      | none =>
        rw [hi] at e
        obtain ⟨s1, e1, e2⟩ := andThen_eq_next e
        obtain ⟨p1, m1, h1⟩ := writeResultPhase_swap _ s1 p m e1
        obtain ⟨p', m', h2⟩ := afterWriteResult_swap s1 t p1 m1 e2
        exact ⟨p', m', by simp only [h1, andThen_next, h2]⟩

end

end Sys2Proof.Machine

open Sys2Proof Sys2Proof.Machine

/-- Settles O49: each phase keeps the state consistent, and the end of the tick makes every slot an earlier tick's. -/
theorem everyStepKeepsTheInvariant : Obligations.EveryStepKeepsTheInvariant :=
  fun _ _ h e => h.step e

/-- Settles O51: each phase keeps the ring; the issue phase needs that every slot there was issued in an earlier tick. -/
theorem everyStepKeepsTheRing : Obligations.EveryStepKeepsTheRing :=
  fun _ _ hi h e => h.step hi e

/-- Settles O56: each phase run on the swapped state answers the swapped answer. -/
theorem physicalRegistersAndRenameMapSteerNothing : Obligations.PhysicalRegistersAndRenameMapSteerNothing :=
  step_swap

/-- Settles O54: only the commit phase writes a public register, and no other phase moves the count, the head or the cycle. -/
theorem publicRegistersChangeOnlyAtCommit : Obligations.PublicRegistersChangeOnlyAtCommit := by
  intro s t e
  rcases State.step_inversion e with ⟨-, rfl⟩ | ⟨-, -, why, i, -, rfl⟩ | ⟨-, -, -, -, s1, -, f1, -, hend⟩
  · exact .inl rfl
  · exact .inl rfl
  · rcases hend with ⟨-, rfl⟩ | ⟨-, s2, s3, -, f2, -, f3, -, -, rfl⟩
    · exact .inl f1.x
    · have hx : s3.x = s.x := f3.x.trans (f2.x.trans f1.x)
      have hhead : s3.head = s.head := f3.head.trans (f2.head.trans f1.head)
      have hcfg : s3.cfg = s.cfg := f3.cfg.trans (f2.cfg.trans f1.cfg)
      have hcount : s3.committedCount = s.committedCount :=
        f3.committedCount.trans (f2.committedCount.trans f1.committedCount)
      have hcycle : s3.currentCycle = s.currentCycle := f3.currentCycle.trans (f2.currentCycle.trans f1.currentCycle)
      have hcommit := State.commitPhase_x s3
      rw [hx, hhead, hcfg, hcount, hcycle] at hcommit
      rcases hcommit with h | ⟨r, v, i, h1, h2, h3, h4⟩
      · exact .inl (by rw [State.endTick_x, h])
      · exact .inr ⟨r, v, i, by simpa using h1, by simpa using h2, by simpa using h3,
          (State.endTick_logGrows _).subset h4⟩
end

section
/-! What a step does to the data memory (20_memory.md R40, R41, R43, R47): only the write-result phase writes it, by the stores that
are due, one write each; and what it leaves of the program, the configuration and the log (20_memory.md R53, 10_state.md R17). -/

namespace Sys2Proof.Machine

/-! ## Canonical memories -/

/-- The reads of a canonical memory determine its cells, and the rising addresses their order. -/
theorem Memory.eq_of_read_eq {m m' : Memory} (h : m.wf) (h' : m'.wf) (hread : ∀ a, m.read a = m'.read a) : m = m' := by
  have cells : ∀ c, c ∈ m ↔ c ∈ m' := fun c => by rw [Memory.mem_iff_read h, Memory.mem_iff_read h', hread]
  have irrefl : Std.Irrefl (fun c d : Nat × Value => c.1 < d.1) := ⟨fun c => Nat.lt_irrefl c.1⟩
  have antisymm : Std.Antisymm (fun c d : Nat × Value => c.1 < d.1) :=
    ⟨fun _ _ hcd hdc => absurd hcd (Nat.lt_asymm hdc)⟩
  exact h.1.eq_of_mem_iff h'.1 cells

/-! ## Station contents that wait for nothing -/

/-- A broadcast leaves the operands of a station that waits for nothing. -/
theorem deliver_of_resolved {st : Station} (hj : st.qj = none) (hk : st.qk = none) (q : Nat) (v : Value) :
    deliver q v st = st := by
  cases st
  subst hj hk
  rfl

namespace State

variable {s t : State}

@[simp] theorem endTick_mem (s : State) : s.endTick.mem = s.mem := by unfold State.endTick; split <;> rfl
@[simp] theorem endTick_cfg (s : State) : s.endTick.cfg = s.cfg := by unfold State.endTick; split <;> rfl
@[simp] theorem endTick_prog (s : State) : s.endTick.prog = s.prog := by unfold State.endTick; split <;> rfl

theorem endTick_currentCycle (s : State) :
    s.endTick.currentCycle = s.currentCycle ∨ s.endTick.currentCycle = s.currentCycle + 1 := by
  rcases endTick_cases s with ⟨-, -, e⟩ | ⟨-, e⟩ <;> rw [e]
  · exact .inl rfl
  · exact .inr rfl

/-! ## One candidate's write-result -/

/-- A candidate's write-result leaves the memory alone, or the candidate is an SD and its one write is done. -/
theorem writeBack_mem (op : Opcode) (sid : Nat) (s : State) :
    (writeBack (ruleOf op) sid s).mem = s.mem ∨
      ∃ st a, s.stationAt sid = some st ∧ op = .sd ∧ effAddr s.cfg.memSize st.vj st.imm = .ok a ∧
        (writeBack (ruleOf op) sid s).mem = s.mem.write a st.vk := by
  rcases writeBack_cases (ruleOf op) sid s with ⟨-, e⟩ | ⟨st, k, i, -, -, e⟩ | ⟨st, k, sl, a, -, -, -, -, e⟩ |
    ⟨st, k, sl, v, taken, s', hst, -, -, hrule, e⟩ <;> rw [e]
  · exact .inl rfl
  · exact .inl rfl
  · exact .inl rfl
  · obtain ⟨-, hmem, -⟩ := finishWrite_frame sid k sl st.imm v taken s'
    rw [hmem]
    rcases ruleOf_mem hrule with h | ⟨hop, a, ha, h⟩
    · exact .inl h
    · exact .inr ⟨st, a, hst, hop, ha, h⟩

/-- A candidate's write-result fills no station, and changes none that waits for nothing but to free it. -/
theorem writeBack_stationAt {rule : OpcodeRule} (hr : rule.Framed) {sid j : Nat} {w : Station}
    (h : (writeBack rule sid s).stationAt j = some w) :
    ∃ w', s.stationAt j = some w' ∧ (w'.qj = none → w'.qk = none → w = w') := by
  rcases writeBack_cases rule sid s with ⟨-, e⟩ | ⟨st, k, i, -, -, e⟩ | ⟨st, k, sl, a, -, -, -, -, e⟩ |
    ⟨st, k, sl, v, taken, s', -, -, -, hrule, e⟩ <;> rw [e] at h
  · exact ⟨w, h, fun _ _ => rfl⟩
  · exact ⟨w, h, fun _ _ => rfl⟩
  · exact ⟨w, h, fun _ _ => rfl⟩
  · obtain ⟨-, w', hw', rfl⟩ := finishWrite_station sid k sl st.imm v taken s' j h
    have hrs : s'.rs = s.rs := by rw [(hr st s v taken s' hrule).same]
    rw [stationAt_of_rs_eq hrs] at hw'
    exact ⟨w', hw', fun hj hk => deliver_of_resolved hj hk _ _⟩

theorem MemOk.of_eq (h : s.MemOk) (hmem : t.mem = s.mem) (hcfg : t.cfg = s.cfg) : t.MemOk := by
  unfold MemOk
  rwa [hmem, hcfg]

/-- A store writes a canonical memory at an address of the space (47_load_store.md R170). -/
theorem MemOk.writeBack (h : s.MemOk) (op : Opcode) (sid : Nat) : (Sys2Proof.Machine.writeBack (ruleOf op) sid s).MemOk := by
  have hcfg := (writeBack_frame (ruleOf_framed op) sid s).1.cfg
  rcases writeBack_mem op sid s with e | ⟨st, a, -, -, ha, e⟩
  · exact h.of_eq e hcfg
  · obtain ⟨hwf, hlisted⟩ := h
    unfold MemOk
    rw [e, hcfg]
    refine ⟨Memory.write_wf hwf a st.vk, fun c hc => ?_⟩
    rcases Memory.mem_write hc with rfl | hc
    · exact effAddr_ok ha
    · exact hlisted c hc

/-! ## The write-result phase -/

theorem MemOk.writeResults (h : s.MemOk) {l : List Nat} (e : writeResults l s = .next t) : t.MemOk :=
  writeResults_keeps (P := MemOk) (fun _ _ hu => hu) (fun op sid _ hu _ => hu.writeBack op sid) l h e

/-- A store to `a` is due in `s`, with the data operand `v` (42_write_result.md R110, 47_load_store.md R172). -/
def StoreDue (s : State) (a : Nat) (v : Value) : Prop :=
  ∃ sid st, s.stationAt sid = some st ∧ st.op = .sd ∧ st.cyclesRemaining = 0 ∧
    effAddr s.cfg.memSize st.vj st.imm = .ok a ∧ v = st.vk

/-- Between two candidates of a write-result phase that began in `s`: a candidate still busy is as it was, and every address reads
as it did or as a store that was due has written. -/
structure WritingFrom (s u : State) : Prop where
  cfg : u.cfg = s.cfg
  candidates : ∀ j w, u.stationAt j = some w → ∃ w', s.stationAt j = some w' ∧ (w'.cyclesRemaining = 0 → w = w')
  memWf : u.mem.wf
  reads : ∀ a, u.mem.read a = s.mem.read a ∨ s.StoreDue a (u.mem.read a)

theorem WritingFrom.refl (h : s.MemOk) : WritingFrom s s :=
  ⟨rfl, fun _ w hw => ⟨w, hw, fun _ => rfl⟩, h.1, fun _ => .inl rfl⟩

/-- A candidate waits for nothing, so a broadcast before its turn leaves it; a store is then the one its station held at the start. -/
theorem WritingFrom.writeBack {u : State} (h : WritingFrom s u) (hs : s.Consistent) {sid : Nat} {st : Station}
    (hsid : sid ∈ s.candidates) (hst : u.stationAt sid = some st) :
    WritingFrom s (Sys2Proof.Machine.writeBack (ruleOf st.op) sid u) := by
  have hcfg := (writeBack_frame (ruleOf_framed st.op) sid u).1.cfg.trans h.cfg
  have hcandidates : ∀ j w, (Sys2Proof.Machine.writeBack (ruleOf st.op) sid u).stationAt j = some w →
      ∃ w', s.stationAt j = some w' ∧ (w'.cyclesRemaining = 0 → w = w') := by
    intro j w hw
    obtain ⟨w1, hw1, hsame⟩ := writeBack_stationAt (ruleOf_framed st.op) hw
    obtain ⟨w', hw', heq⟩ := h.candidates j w1 hw1
    refine ⟨w', hw', fun hzero => ?_⟩
    obtain rfl := heq hzero
    obtain ⟨hj, hk⟩ := (hs.stationsOk j w1 hw').doneReady hzero
    exact hsame hj hk
  rcases writeBack_mem st.op sid u with e | ⟨st', a, hst', hop, ha, e⟩
  · exact ⟨hcfg, hcandidates, e ▸ h.memWf, fun b => by rw [e]; exact h.reads b⟩
  · obtain rfl : st = st' := Option.some.inj (hst.symm.trans hst')
    obtain ⟨st0, hst0, hzero⟩ := mem_candidates.1 hsid
    obtain ⟨st1, hst1, heq⟩ := h.candidates sid st hst
    obtain rfl : st0 = st1 := Option.some.inj (hst0.symm.trans hst1)
    obtain rfl := heq hzero
    refine ⟨hcfg, hcandidates, e ▸ Memory.write_wf h.memWf a st.vk, fun b => ?_⟩
    rw [e, Memory.read_write h.memWf]
    split
    · next hb => exact .inr ⟨sid, st, hst0, hop, hzero, by rw [hb, ← h.cfg, ha], rfl⟩
    · exact h.reads b

theorem WritingFrom.writeResults (hs : s.Consistent) (hm : s.MemOk) (e : writeResults s.candidates s = .next t) :
    WritingFrom s t :=
  writeResults_keeps_of (P := WritingFrom s) (fun _ _ h => ⟨h.cfg, h.candidates, h.memWf, h.reads⟩) s.candidates
    (fun _ _ _ h hsid hst _ _ => h.writeBack hs hsid hst) (WritingFrom.refl hm) e

/-! ## A step -/

/-- A step leaves the memory as it was, or as its write-result phase left it: no other phase writes it. -/
theorem step_mem (e : step s = .next t) :
    t.mem = s.mem ∨ ∃ s1, writeResults s.candidates (s.logEvent (.cycleStart s.currentCycle)) = .next s1 ∧ t.mem = s1.mem := by
  rcases step_inversion e with ⟨-, rfl⟩ | ⟨-, -, why, i, -, rfl⟩ | ⟨-, -, -, -, s1, e1, -, -, hend⟩
  · exact .inl rfl
  · exact .inl rfl
  · refine .inr ⟨s1, e1, ?_⟩
    rcases hend with ⟨-, rfl⟩ | ⟨-, s2, s3, -, f2, -, f3, -, f4, rfl⟩
    · rfl
    · rw [endTick_mem, f4.mem, f3.mem, f2.mem]

end State

end Sys2Proof.Machine

open Sys2Proof Sys2Proof.Machine

/-- Settles O44: the laws of one write, and that the reads of a canonical memory determine its list. -/
theorem memoryReadsWhatWasWritten : Obligations.MemoryReadsWhatWasWritten := by
  refine ⟨fun m a v h => ⟨Memory.write_wf h a v, ?_, fun b hb => ?_⟩, fun _ _ h h' => Memory.eq_of_read_eq h h'⟩
  · rw [Memory.read_write h, if_pos rfl]
  · rw [Memory.read_write h, if_neg hb]

/-- Settles O55: each phase's frame in turn; the end of the tick alone moves the cycle number. -/
theorem stepKeepsProgramAndExtendsLog : Obligations.StepKeepsProgramAndExtendsLog := by
  intro s t e
  rcases State.step_inversion e with ⟨-, rfl⟩ | ⟨-, -, why, i, -, rfl⟩ | ⟨-, -, -, -, s1, -, f1, b1, hend⟩
  · exact ⟨rfl, rfl, List.prefix_refl _, .inl rfl, id⟩
  · exact ⟨rfl, rfl, (List.prefix_append _ _).trans (List.prefix_append _ _), .inl rfl, id⟩
  · have hlog1 : s.log <+: s1.log := (List.prefix_append _ _).trans f1.logGrows
    rcases hend with ⟨-, rfl⟩ | ⟨-, s2, s3, -, f2, -, f3, -, f4, rfl⟩
    · exact ⟨f1.prog, f1.cfg, hlog1, .inl f1.currentCycle, fun _ => b1⟩
    · refine ⟨?_, ?_, ?_, ?_, fun _ => ?_⟩
      · rw [State.endTick_prog, f4.prog, f3.prog, f2.prog, f1.prog, State.logEvent_prog]
      · rw [State.endTick_cfg, f4.cfg, f3.cfg, f2.cfg, f1.cfg, State.logEvent_cfg]
      · exact (((hlog1.trans f2.logGrows).trans f3.logGrows).trans f4.logGrows).trans (State.endTick_logGrows _)
      · have h := State.endTick_currentCycle (commitPhase s3)
        rwa [f4.currentCycle, f3.currentCycle, f2.currentCycle, f1.currentCycle, State.logEvent_currentCycle] at h
      · rw [State.endTick_onBus, f4.onBus, f3.onBus, f2.onBus, b1]

/-- Settles O45: the write-result phase alone writes the memory, and its stores are in range. -/
theorem everyStepKeepsTheMemoryInItsSpace : Obligations.EveryStepKeepsTheMemoryInItsSpace := by
  intro s t h e
  obtain ⟨-, hcfg, -⟩ := stepKeepsProgramAndExtendsLog s t e
  rcases State.step_mem e with hmem | ⟨s1, e1, hmem⟩
  · exact h.of_eq hmem hcfg
  · have h1 : s1.MemOk := State.MemOk.writeResults (s := s.logEvent _) h e1
    exact h1.of_eq hmem (hcfg.trans (State.writeResults_frame _ e1).cfg.symm)

/-- Settles O46: the write-result phase alone writes the memory, by the stores due at its start. -/
theorem onlyStoresChangeMemory : Obligations.OnlyStoresChangeMemory := by
  intro s t a hinv hm e hchanged
  rcases State.step_mem e with hmem | ⟨s1, e1, hmem⟩
  · exact absurd (by rw [hmem]) hchanged
  · have hlogged : (s.logEvent (.cycleStart s.currentCycle)).Consistent := ((hinv.consistent.soundBut none).logEvent _).consistent
    have hw := State.WritingFrom.writeResults hlogged hm e1
    rw [hmem] at hchanged ⊢
    exact (hw.reads a).resolve_left hchanged
end

section
/-! Decoding and encoding as inverse maps between legal words and legal records (30_encoding.md R71), the five checks of R69 as
conditions on the fields of the word, and a load refused for one illegal word (60_exceptions.md R189). -/

namespace Sys2Proof

variable {narch : Nat} {i : Instr} {w : InstrWord} {op : Opcode}

/-! ## The fields of an encoded record -/

theorem Opcode.number_lt (op : Opcode) : op.number < 8 := by cases op <;> decide

/-- An operand a record does not use is encoded as 0, which fits the five bits of a register field as well. -/
theorem regField_lt (hn : narch ≤ 32) {o : Option RegNum} (h : o.all (fun r => decide (r < narch)) = true) : o.getD 0 < 32 := by
  cases o with
  | none => decide
  | some r => exact (of_decide_eq_true h).trans_le hn

theorem registersInRange_fields (hn : narch ≤ 32) (h : registersInRange narch i = true) :
    i.dst.getD 0 < 32 ∧ i.srcJ.getD 0 < 32 ∧ i.srcK.getD 0 < 32 := by
  simp only [registersInRange, Bool.and_eq_true] at h
  obtain ⟨⟨hd, hj⟩, hk⟩ := h
  exact ⟨regField_lt hn hd, regField_lt hn hj, regField_lt hn hk⟩

theorem encode_fields (hn : narch ≤ 32) (h : registersInRange narch i = true) :
    fieldOpc (encode i) = i.opcode.number ∧ fieldRd (encode i) = i.dst.getD 0 ∧ fieldRs1 (encode i) = i.srcJ.getD 0 ∧
      fieldRs2 (encode i) = i.srcK.getD 0 ∧ fieldResv (encode i) = 0 ∧ fieldImm (encode i) = immField i.imm := by
  obtain ⟨hd, hj, hk⟩ := registersInRange_fields hn h
  rw [encode_pack]
  exact packFields_fields (i.opcode.number_lt.trans (by decide)) hd hj hk (immField_lt i.imm)

/-- The immediate's field, as a number and as the residue of R71. -/
theorem ofNat_immField (imm : Int) : BitVec.ofNat 64 (immField imm) = BitVec.ofInt 64 (imm % 2 ^ 32) := by
  rw [← BitVec.ofInt_natCast, immField, Int.toNat_of_nonneg (Int.emod_nonneg imm (by decide))]
  norm_num

theorem encode_eq_or (hn : narch ≤ 32) (h : registersInRange narch i = true) :
    encode i = BitVec.ofNat 64 i.opcode.number ||| BitVec.ofNat 64 (i.dst.getD 0) <<< 4 |||
      BitVec.ofNat 64 (i.srcJ.getD 0) <<< 9 ||| BitVec.ofNat 64 (i.srcK.getD 0) <<< 14 |||
      BitVec.ofInt 64 (i.imm % 2 ^ 32) <<< 32 := by
  obtain ⟨hd, hj, hk⟩ := registersInRange_fields hn h
  rw [encode_pack, packFields_eq_or (i.opcode.number_lt.trans (by decide)) hd hj hk (immField_lt i.imm), ofNat_immField]

/-! ## Encode, then decode -/

/-- A word with the fields of a record holds 0 in the fields the opcode does not use, and makes that record. -/
theorem recordOf_of_fields (hd : fieldRd w = i.dst.getD 0) (hj : fieldRs1 w = i.srcJ.getD 0) (hk : fieldRs2 w = i.srcK.getD 0)
    (hm : fieldImm w = immField i.imm) (hr : immInRange i.imm = true) :
    unusedFieldSet i.opcode w = false ∧ recordOf i.opcode w = i := by
  have himm : sext32 (fieldImm w) = i.imm := by rw [hm, sext32_immField hr]
  cases i with
  | add | sub | mul | div => exact ⟨by simp [unusedFieldSet, Instr.opcode, hm, Instr.imm, immField],
      by simp [recordOf, Instr.opcode, hd, hj, hk, Instr.dst, Instr.srcJ, Instr.srcK]⟩
  | ld | sd | beqz => exact ⟨by simp [unusedFieldSet, Instr.opcode, hd, hk, Instr.dst, Instr.srcK],
      by simp [recordOf, Instr.opcode, hd, hj, hk, himm, Instr.dst, Instr.srcJ, Instr.srcK, Instr.imm]⟩

theorem decode_encode (hn : narch ≤ 32) (h : i.wf narch = true) : decode narch (encode i) = .ok i := by
  obtain ⟨hreg, htarget, himm⟩ := (wf_iff i).1 h
  obtain ⟨fopc, frd, frs1, frs2, fresv, fimm⟩ := encode_fields hn hreg
  obtain ⟨hunused, hrec⟩ := recordOf_of_fields frd frs1 frs2 fimm himm
  have hdec := decode_of_checks (narch := narch) (by rw [fopc, opcodeOfNumber_number]) fresv hunused
    (by rwa [hrec]) (by rwa [hrec])
  rwa [hrec] at hdec

/-! ## Decode, then encode -/

/-- The fields a record drops are 0 in the word, so encoding the record packs all the word's fields again. -/
theorem encode_recordOf (hopc : fieldOpc w = op.number) (hresv : fieldResv w = 0) (hunused : unusedFieldSet op w = false) :
    encode (recordOf op w) = w := by
  have himm := immField_sext32 (fieldImm_lt w)
  refine Eq.trans ?_ (packFields_of_fields hresv)
  rw [hopc]
  cases op with
  | add | sub | mul | div | ld | sd =>
    have hzero := by simpa [unusedFieldSet] using hunused
    simp [recordOf, encode, Opcode.number, himm, hzero]
  | beqz =>
    obtain ⟨hrd, hrs2⟩ := by simpa [unusedFieldSet] using hunused
    simp [recordOf, encode, Opcode.number, himm, hrd, hrs2]

theorem encode_of_decode (h : decode narch w = .ok i) : encode i = w := by
  obtain ⟨op, hop, hresv, hunused, rfl, -, -⟩ := decode_ok h
  exact encode_recordOf (opcodeOfNumber_some hop) hresv hunused

/-! ## The checks of R69 as conditions on the fields -/

/-- The one arm of the opcode table that answers none takes every number but the seven. -/
theorem opcodeOfNumber_eq_none {n : Nat} : opcodeOfNumber n = none ↔ n = 0 ∨ 8 ≤ n := by
  unfold opcodeOfNumber
  split
  case h_8 => grind
  all_goals simp

theorem unusedFieldSet_iff : unusedFieldSet op w = true ↔
    (op.number ≤ 4 ∧ fieldImm w ≠ 0) ∨ (op.number = 5 ∧ fieldRs2 w ≠ 0) ∨ (op.number = 6 ∧ fieldRd w ≠ 0) ∨
      (op.number = 7 ∧ (fieldRd w ≠ 0 ∨ fieldRs2 w ≠ 0)) := by
  cases op <;> simp [unusedFieldSet, Opcode.number]

theorem registersOutOfRange_iff : (!registersInRange narch (recordOf op w)) = true ↔
    (op.number ≤ 5 ∧ narch ≤ fieldRd w) ∨ narch ≤ fieldRs1 w ∨ ((op.number ≤ 4 ∨ op.number = 6) ∧ narch ≤ fieldRs2 w) := by
  rw [Bool.not_eq_true', ← Bool.not_eq_true]
  cases op with
  | add | sub | mul | div | ld | sd | beqz =>
    simp only [registersInRange, recordOf, Instr.dst, Instr.srcJ, Instr.srcK, Opcode.number, Option.all_some, Option.all_none,
      Bool.and_true, Bool.true_and, Bool.and_eq_true, decide_eq_true_eq, or_true, true_and]
    omega

theorem sext32_lt_one_iff {v : Nat} (h : v < 4294967296) : sext32 v < 1 ↔ v = 0 ∨ 2 ^ 31 ≤ v := by
  unfold sext32
  split <;> omega

theorem targetTooLow_iff : targetTooLow (recordOf op w) = true ↔ op.number = 7 ∧ (fieldImm w = 0 ∨ 2 ^ 31 ≤ fieldImm w) := by
  rw [← sext32_lt_one_iff (fieldImm_lt w)]
  cases op <;> simp [targetTooLow, recordOf, Opcode.number]

theorem decode_of_reservedOpcode (h : opcodeOfNumber (fieldOpc w) = none) : decode narch w = .error .badOpcode := by
  unfold decode
  rw [h]

/-- A word with an opcode: the remaining checks in their order. -/
theorem decode_of_opcode (h : opcodeOfNumber (fieldOpc w) = some op) :
    decode narch w =
      if fieldResv w ≠ 0 then .error .reservedBits
      else if unusedFieldSet op w then .error .unusedField
      else if !registersInRange narch (recordOf op w) then .error .badRegister
      else if targetTooLow (recordOf op w) then .error .badTarget
      else .ok (recordOf op w) := by
  unfold decode
  rw [h]

/-! ## A load with an illegal word -/

namespace Machine

theorem hostLoad_error_of_illegal {s : State} {words : List InstrWord} {e : DecodeError} (hw : w ∈ words)
    (he : decode s.cfg.narch w = .error e) : ∃ err, hostLoad s words = .error err := by
  obtain ⟨err, herr⟩ := decodeAll_bad s.cfg.narch he words 0 hw
  unfold hostLoad
  rw [herr]
  split
  · exact ⟨_, rfl⟩
  · exact ⟨err, rfl⟩

theorem stateAfterLoad_of_error {s : State} {words : List InstrWord} {err : LoadError} (h : hostLoad s words = .error err) :
    stateAfterLoad s words = s := by
  unfold stateAfterLoad
  rw [h]

end Machine

end Sys2Proof

open Sys2Proof Sys2Proof.Machine

/-- Settles O2: encoding keeps every field in its place, and a word that passes the checks has no bit outside its record's fields. -/
theorem decodeAndEncodeAgree : Obligations.DecodeAndEncodeAgree := by
  intro narch hn
  refine ⟨fun w => ?_, fun i h => ⟨decode_encode hn h, encode_eq_or hn ((wf_iff i).1 h).1⟩, fun w i h => ?_⟩
  · cases decode narch w with
    | ok i => exact .inl ⟨i, rfl⟩
    | error e => exact .inr ⟨e, rfl⟩
  · exact ⟨decode_wf h, (encode_of_decode h).symm⟩

/-- Settles O3: the opcode check first, then the other four as conditions on the fields, in the decoder's own order. -/
theorem illegalWordGetsItsFirstFailingCode : Obligations.IllegalWordGetsItsFirstFailingCode := by
  refine ⟨fun narch w opc rd rs1 rs2 resv imm ho hd hj hk hr hm => ?_, fun s words w e hw he => ?_⟩
  · obtain rfl : opc = fieldOpc w := ho
    obtain rfl : rd = fieldRd w := hd
    obtain rfl : rs1 = fieldRs1 w := hj
    obtain rfl : rs2 = fieldRs2 w := hk
    obtain rfl : resv = fieldResv w := hr
    obtain rfl : imm = fieldImm w := hm
    cases hop : opcodeOfNumber (fieldOpc w) with
    | none =>
      rw [if_pos (opcodeOfNumber_eq_none.1 hop)]
      exact decode_of_reservedOpcode hop
    | some op =>
      have hlegal : ¬(fieldOpc w = 0 ∨ 8 ≤ fieldOpc w) := fun h => by
        rw [opcodeOfNumber_eq_none.2 h] at hop
        cases hop
      rw [if_neg hlegal, decode_of_opcode hop, opcodeOfNumber_some hop]
      simp only [← unusedFieldSet_iff, ← registersOutOfRange_iff, ← targetTooLow_iff]
      split_ifs
      · rfl
      · rfl
      · rfl
      · rfl
      · exact ⟨_, rfl⟩
  · obtain ⟨err, herr⟩ := hostLoad_error_of_illegal hw he
    exact ⟨⟨err, herr⟩, stateAfterLoad_of_error herr⟩

/-- Settles O1: the decoder run on each of the seven words. -/
theorem exampleWordsDecode : Obligations.ExampleWordsDecode := by
  unfold Obligations.ExampleWordsDecode
  decide
end

section
/-! The issue phase and the issue of one instruction (40_rename_issue.md R81 to R96): which instruction the phase runs, the three
stalls, the producer of an operand, and the whole next state of an issue that does not stall. -/

namespace Sys2Proof.Machine.State

variable {s : State} {i : Instr}

/-! ## The issue phase (40_rename_issue.md R81) -/

theorem issuePhase_of_pastEnd (h : s.prog.length ≤ s.pc) : issuePhase s = .next s := by
  unfold issuePhase
  rw [List.getElem?_eq_none h]

theorem issuePhase_of_getElem? (h : s.prog[s.pc]? = some i) : issuePhase s = exec i s := by
  unfold issuePhase
  rw [h]

/-- After a write-result without a model fault the other phases follow in order, and then the end of the tick. -/
theorem afterWriteResult_of_phases {s2 s3 : State} (hf : s.faultRec = none) (he : executePhase s = .next s2)
    (hi : issuePhase s2 = .next s3) : afterWriteResult s = .next (commitPhase s3).endTick := by
  simp [afterWriteResult, hf, he, hi]

/-! ## The three stalls, in their order (40_rename_issue.md R82, R83) -/

theorem issueInstr_of_robFull (h : s.slotAt s.tail ≠ none) : issueInstr i s = s.stallIssue .robFull := by
  obtain ⟨sl, hsl⟩ := Option.ne_none_iff_exists'.1 h
  unfold issueInstr
  rw [hsl]

theorem issueInstr_of_noStation (ht : s.slotAt s.tail = none) (hs : s.freeStation i.cls = none) :
    issueInstr i s = s.stallIssue .noStation := by
  unfold issueInstr
  rw [ht, hs]

theorem issueInstr_of_noPhysReg (ht : s.slotAt s.tail = none) (hs : s.freeStation i.cls ≠ none) (hn : s.freeList = []) :
    issueInstr i s = s.stallIssue .noPhysReg := by
  obtain ⟨sid, hsid⟩ := Option.ne_none_iff_exists'.1 hs
  unfold issueInstr
  rw [ht, hsid, hn]

/-! ## Operand resolution (40_rename_issue.md R84, R85) -/

theorem resolve_of_noWriter {r : Nat} (h : youngestWriter r s.rob = none) : s.resolve r = { v := s.readX r, q := none } := by
  unfold resolve
  rw [h]

theorem resolve_of_writer {r : Nat} {sl : Slot} (h : youngestWriter r s.rob = some sl) :
    s.resolve r = if sl.ready then { v := sl.result, q := none } else { v := F32.posZero, q := some sl.renamedReg } := by
  unfold resolve
  rw [h]

/-! ## An issue that does not stall (40_rename_issue.md R86 to R95) -/

/-- The whole next state, with the station list as one position replaced: its name stays. -/
theorem exec_issued {sid n : Nat} {rest : List Nat} (hbus : s.onBus = none) (htail : s.slotAt s.tail = none)
    (hsid : sid < s.rs.length) (hcls : (s.stationName sid).cls = i.opcode.cls) (hfree : s.stationAt sid = none)
    (hfirst : ∀ j, j < sid → (s.stationName j).cls = i.opcode.cls → s.stationAt j ≠ none) (hname : s.freeList = n :: rest) :
    exec i s = .next { s.issued i sid n rest with
      rs := s.rs.set sid { name := s.stationName sid, body := some (s.issuedStation i n) } } := by
  rw [exec_issue i hbus, issueInstr_ok htail hsid hcls hfree hfirst hname, ← setBody_eq_set hsid]
  rfl

end Sys2Proof.Machine.State

open Sys2Proof Sys2Proof.Machine

/-- Settles O19: off the bus `exec` issues, and the issue tests the three reasons in their order. -/
theorem issueStallsForTheFirstReason : Obligations.IssueStallsForTheFirstReason := by
  intro s i hbus full noStation stalled
  have hstation : s.freeStation i.cls = none ↔ noStation := freeStation_none
  rw [State.exec_issue i hbus]
  refine ⟨fun hfull => ?_, fun hroom hnone => ?_, fun hroom hsome hname => ?_⟩
  · rw [State.issueInstr_of_robFull hfull]
    rfl
  · rw [State.issueInstr_of_noStation (not_not.1 hroom) (hstation.2 hnone)]
    rfl
  · rw [State.issueInstr_of_noPhysReg (not_not.1 hroom) (mt hstation.1 hsome) hname]
    rfl

/-- Settles O20: the scan of the ROB finds no writer, or the one writer that every other is older than. -/
theorem operandComesFromTheYoungestWriter : Obligations.OperandComesFromTheYoungestWriter := by
  intro s r
  refine ⟨fun hnone => ?_, fun k sl hk hreg hyoungest => ?_⟩
  · refine State.resolve_of_noWriter (youngestWriter_none r s.rob fun sl hsl => ?_)
    obtain ⟨k, hk⟩ := List.getElem?_of_mem hsl
    exact hnone k sl (State.slotAt_some.2 hk)
  · have hwriter : youngestWriter r s.rob = some sl :=
      youngestWriter_max r s.rob k sl (State.slotAt_some.1 hk) hreg fun j x hj => hyoungest j x (State.slotAt_some.2 hj)
    rw [State.resolve_of_writer hwriter]
    exact ⟨fun hready => by rw [if_pos hready], fun hready => by simp [hready]⟩

/-- Settles O21: one issue for all five forms; what they write follows from each form's destination and sources. -/
theorem issueOfARegisterWriter : Obligations.IssueOfARegisterWriter := by
  intro s rd rs1 rs2 imm sid n rest f hf hbus htail hsid hcls hfree hfirst hname
  simp only [List.mem_cons, List.not_mem_nil, or_false] at hf
  rcases hf with rfl | rfl | rfl | rfl | rfl <;>
    exact State.exec_issued hbus htail hsid hcls hfree hfirst hname

/-- Settles O22: the same issue; without a destination the physical registers and the rename map stay. -/
theorem issueOfAStoreOrBranch : Obligations.IssueOfAStoreOrBranch := by
  intro s rs1 rs2 imm sid n rest f hf hbus htail hsid hcls hfree hfirst hname
  simp only [List.mem_cons, List.not_mem_nil, or_false] at hf
  rcases hf with rfl | rfl <;>
    exact State.exec_issued hbus htail hsid hcls hfree hfirst hname

/-- Settles O15: every `exec` answers a next state, so the tick runs on to its end. -/
theorem stepRunsTheInstructionAtPc : Obligations.StepRunsTheInstructionAtPc := by
  intro s s1 s2 i hcomplete hfault hcap hstuck hwrite hfault1 hexecute hi
  obtain ⟨t, ht⟩ := State.exec_isNext i s2
  have hissue : issuePhase s2 = .next t := (State.issuePhase_of_getElem? hi).trans ht
  refine ⟨t, ht, ?_⟩
  calc step s = andThen (writeResultPhase (s.logEvent (.cycleStart s.currentCycle))) afterWriteResult :=
        State.step_running hcomplete hfault hcap hstuck
    _ = andThen (.next s1) afterWriteResult := congrArg (andThen · afterWriteResult) hwrite
    _ = .next (commitPhase t).endTick := State.afterWriteResult_of_phases hfault1 hexecute hissue

/-- Settles O18: the program is read at `pc`, and past its end there is nothing to read. -/
theorem issueReadsTheInstructionAtPc : Obligations.IssueReadsTheInstructionAtPc :=
  fun _ => ⟨State.issuePhase_of_pastEnd, fun h => State.issuePhase_of_getElem? (List.getElem?_eq_getElem h)⟩
end

section
/-! The execute phase (41_execute.md R100 to R106): the visit of one station, station by station what the whole phase does to a
consistent state, and why no busy station enters the phase with counter 0 (R105). -/

namespace Sys2Proof.Machine

namespace State

variable {s t : State} {sid k : Nat} {st : Station} {sl : Slot}

/-! ## The visit of one station (41_execute.md R101 to R104) -/

theorem executeStation_of_done (hst : s.stationAt sid = some st) (hr : st.isReady = true) (h0 : st.cyclesRemaining = 0) :
    executeStation sid s = .next s := by
  simp [executeStation, hst, hr, h0]

theorem executeStation_of_ready (hst : s.stationAt sid = some st) (hr : st.isReady = true) (h0 : st.cyclesRemaining ≠ 0)
    (ho : s.owner st.dest = some (k, sl)) : executeStation sid s = .next (s.executed sid st k sl) := by
  simp [executeStation, hst, hr, h0, ho]

theorem executeStation_of_waiting (hst : s.stationAt sid = some st) (hr : st.isReady = false) :
    executeStation sid s = .next (s.waits sid st) := by
  simp [executeStation, hst, hr]

/-- The step that counts a station down to 0: its slot and its program position become Executed. -/
theorem executed_of_last (hsid : sid < s.rs.length) (h1 : st.cyclesRemaining = 1) :
    s.executed sid st k sl = { s with
      rs := s.rs.set sid { name := s.stationName sid, body := some { st with cyclesRemaining := 0 } }
      rob := s.rob.set k (some { sl with
        state := .executed
        execCycle := if sl.state = .processing then s.currentCycle else sl.execCycle })
      status := s.status.set sl.instr Status.executed
      log := s.log ++ [.execDone s.currentCycle k] } := by
  simp [executed, h1, setBody_eq_set hsid]

/-- Any other step: only the counter moves, and the slot enters Executing when it was still Processing. -/
theorem executed_of_notLast (hsid : sid < s.rs.length) (h1 : st.cyclesRemaining ≠ 1) :
    s.executed sid st k sl = { s with
      rs := s.rs.set sid
        { name := s.stationName sid, body := some { st with cyclesRemaining := st.cyclesRemaining - 1 } }
      rob := s.rob.set k (some { sl with
        state := if sl.state = .processing then .executing else sl.state
        execCycle := if sl.state = .processing then s.currentCycle else sl.execCycle }) } := by
  simp [executed, h1, setBody_eq_set hsid]

/-! ## What the phase's visits add up to (41_execute.md R100, R106) -/

theorem VisitedTo.stationAt_of_all (v : s.VisitedTo t (List.range s.rs.length)) (sid : Nat) :
    t.stationAt sid = (s.stationAt sid).map Station.visited := by
  rw [v.stations]
  split
  · rfl
  · rename_i hout
    have hnone : s.stationAt sid = none :=
      Option.eq_none_iff_forall_ne_some.2 fun st hst => hout (List.mem_range.2 (stationAt_lt hst))
    rw [hnone]
    rfl

theorem VisitedTo.slotAt_of_all (v : s.VisitedTo t (List.range s.rs.length)) (hst : s.stationAt sid = some st)
    (hk : s.slotAt k = some sl) (hn : sl.renamedReg = st.dest) : t.slotAt k = some (sl.visited st s.currentCycle) := by
  rw [v.owned sid st k sl hst hk hn, if_pos (List.mem_range.2 (stationAt_lt hst))]

/-- Some visit of the phase finishes position `i` exactly when some station finishes it. -/
theorem exists_mem_range_finishes {i : Nat} :
    (∃ sid ∈ List.range s.rs.length, ∃ k, s.FinishesExecute sid k i) ↔ ∃ sid k, s.FinishesExecute sid k i := by
  constructor
  · rintro ⟨sid, -, k, h⟩
    exact ⟨sid, k, h⟩
  · rintro ⟨sid, k, st, sl, hst, h⟩
    exact ⟨sid, List.mem_range.2 (stationAt_lt hst), k, st, sl, hst, h⟩

/-- The bubbles of the phase, counted over the station list. -/
theorem countP_waitingAt (s : State) : (List.range s.rs.length).countP s.waitingAt =
    s.rs.countP (fun e => e.body.any (fun st => st.qj.isSome || st.qk.isSome)) := by
  rw [← countP_range]
  refine List.countP_congr fun j _ => ?_
  unfold waitingAt stationAt
  cases s.rs[j]? <;> simp

/-! ## No station is done after write-result (41_execute.md R105) -/

/-- A write-result that raises no fault frees its station, and what is still busy was busy with the same counter. -/
theorem writeBack_counters {rule : OpcodeRule} (hr : rule.Framed) (hst : s.stationAt sid = some st)
    (hf : (writeBack rule sid s).faultRec = none) {j : Nat} {w : Station} (h : (writeBack rule sid s).stationAt j = some w) :
    j ≠ sid ∧ ∃ w', s.stationAt j = some w' ∧ w'.cyclesRemaining = w.cyclesRemaining := by
  rcases writeBack_cases rule sid s with ⟨hnone, -⟩ | ⟨_, k, i, -, -, e⟩ | ⟨_, k, sl, a, -, -, -, -, e⟩ |
    ⟨_, k, sl, v, taken, s', -, -, -, hrule, e⟩
  · rw [hst] at hnone; cases hnone
  · rw [e] at hf; cases hf
  · rw [e] at hf; cases hf
  · rw [e] at h
    have hrs : s'.rs = s.rs := by rw [(hr _ s v taken s' hrule).same]
    have hsid : sid < s'.rs.length := by rw [hrs]; exact stationAt_lt hst
    obtain ⟨hj, w', hw', hc⟩ := finishWrite_stations hsid j w h
    rw [stationAt_of_rs_eq hrs] at hw'
    exact ⟨hj, w', hw', hc⟩

/-- The loop over the candidates: when every done station is still to come, a loop without a fault leaves none. -/
theorem writeResults_leaves_noDone {l : List Nat} (e : writeResults l s = .next t) (hf : t.faultRec = none)
    (hdone : ∀ sid st, s.stationAt sid = some st → st.cyclesRemaining = 0 → sid ∈ l) :
    ∀ sid st, t.stationAt sid = some st → st.cyclesRemaining ≠ 0 := by
  induction l generalizing s with
  | nil =>
    cases e
    exact fun sid st hst h0 => List.not_mem_nil (hdone sid st hst h0)
  | cons a l ih =>
    unfold writeResults at e
    split at e
    · rename_i hfault
      cases e
      exact absurd hf (Option.isSome_iff_ne_none.1 hfault)
    · split at e
      · rename_i hfree
        refine ih e fun sid st hst h0 => List.mem_of_ne_of_mem ?_ (hdone sid st hst h0)
        rintro rfl
        rw [hfree] at hst
        cases hst
      · rename_i st hst
        rw [exec_write st.instr (sid := a) rfl, andThen_next] at e
        refine ih e fun j w hw h0 => ?_
        have hnofault := Option.not_isSome_iff_eq_none.1 fun h => by simpa [hf] using writeResults_fault h e
        obtain ⟨hja, w', hw', hc⟩ := writeBack_counters (s := s.setBus (some a)) (ruleOf_framed _) hst hnofault hw
        exact List.mem_of_ne_of_mem hja (hdone j w' hw' (hc.trans h0))

end State

end Sys2Proof.Machine

open Sys2Proof Sys2Proof.Machine

/-- Settles O25: the visits of the phase, each of a different station, collected field by field. -/
theorem executePhaseCountsEveryStationOnce : Obligations.ExecutePhaseCountsEveryStationOnce := by
  intro s hs
  obtain ⟨t, e, v⟩ := State.Consistent.visitsAll hs
  refine ⟨t, e, v.stationAt_of_all, v.names, fun _ _ _ _ => v.slotAt_of_all, v.unowned, v.free, v.robLength,
    fun i => ⟨fun h => v.finished i (State.exists_mem_range_finishes.2 h),
      fun h => v.unfinished i (mt State.exists_mem_range_finishes.1 h)⟩, ?_, v.log, v.rest⟩
  rw [v.bubbles, State.countP_waitingAt, List.countP_eq_length_filter]
  congr 3
  funext entry
  cases entry.body <;> rfl

/-- Settles O23: the owner of the station's name is the one slot that has it, and the last step differs from the others. -/
theorem readyStationExecutesOneStep : Obligations.ReadyStationExecutesOneStep := by
  intro s sid k st sl hst hj hk
  have hready : st.isReady = true := (isReady_iff st).2 ⟨hj, hk⟩
  refine ⟨State.executeStation_of_done hst hready, fun hpos hslot hname honly => ?_⟩
  intro first
  have howner : s.owner st.dest = some (k, sl) := State.owner_of_only hslot hname honly
  rw [State.executeStation_of_ready hst hready hpos.ne' howner]
  have hsid := State.stationAt_lt hst
  by_cases hlast : st.cyclesRemaining = 1
  · rw [State.executed_of_last hsid hlast, if_pos hlast]
    by_cases hfirst : sl.state = .processing <;> simp [first, hfirst]
  · rw [State.executed_of_notLast hsid hlast, if_neg hlast]
    by_cases hfirst : sl.state = .processing <;> simp [first, hfirst]

/-- Settles O24: one visit of a station that is not ready, and operand j is looked at before operand k. -/
theorem waitingStationCountsOneBubble : Obligations.WaitingStationCountsOneBubble := by
  intro s sid st q hst
  refine ⟨fun hj => ?_, fun hj hk => ?_⟩
  · have hwaiting : st.isReady = false := by simp [Station.isReady, hj]
    rw [State.executeStation_of_waiting hst hwaiting, State.waits, State.waitEvent, hj]
  · have hwaiting : st.isReady = false := by simp [Station.isReady, hk]
    rw [State.executeStation_of_waiting hst hwaiting, State.waits, State.waitEvent, hj, hk]
    rfl

/-- Settles O35: the candidates are the done stations, and the loop over them leaves none. -/
theorem noDoneStationSurvivesWriteResult : Obligations.NoDoneStationSurvivesWriteResult :=
  fun _ _ e hf => State.writeResults_leaves_noDone e hf fun _ st hst h0 => State.mem_candidates.2 ⟨st, hst, h0⟩
end

section
/-! The write-result phase (42_write_result.md R110, R111, R125, R126): the order of its candidates, the loop over them, and that
through every phase of a tick a station waits only on an older register writer that has not written its result. -/

namespace Sys2Proof.Machine

namespace State

variable {s t : State}

/-! ## The order of the candidates (42_write_result.md R111) -/

theorem candidates_sorted (s : State) : s.candidates.Pairwise (fun a b => s.issueCycleOf a ≤ s.issueCycleOf b) :=
  List.pairwise_insertionSort (fun a b => s.issueCycleOf a ≤ s.issueCycleOf b) _

/-- In a consistent state the key that orders the candidates is the issue cycle of the one slot with the station's name. -/
theorem Consistent.issueCycleOf_eq (h : s.Consistent) {sid k : Nat} {st : Station} {sl : Slot} (hst : s.stationAt sid = some st)
    (hk : s.slotAt k = some sl) (hn : sl.renamedReg = st.dest) : s.issueCycleOf sid = sl.issueCycle := by
  have howner : s.owner st.dest = some (k, sl) := hn ▸ (h.soundBut none).owner_of_slot hk
  simp [issueCycleOf, hst, howner]

/-! ## The loop over the candidates (42_write_result.md R126, 60_exceptions.md R187) -/

/-- On the bus an instruction acts by its opcode alone: its register fields and immediate are not read (42_write_result.md R113). -/
theorem exec_eq_of_opcode_eq {i j : Instr} (ho : i.opcode = j.opcode) {sid : Nat} (hb : s.onBus = some sid) :
    exec i s = exec j s := by
  rw [exec_write i hb, exec_write j hb, ho]

theorem writeResults_of_fault (l : List Nat) (hf : s.faultRec ≠ none) : writeResults l s = .next (s.setBus none) := by
  cases l with
  | nil => rfl
  | cons sid l => rw [writeResults, if_pos (Option.isSome_iff_ne_none.2 hf)]

theorem writeResults_cons_of_free {sid : Nat} (l : List Nat) (hf : s.faultRec = none) (hfree : s.stationAt sid = none) :
    writeResults (sid :: l) s = writeResults l s := by
  simp [writeResults, hf, hfree]

theorem writeResults_cons_of_busy {sid : Nat} {st : Station} (l : List Nat) (hf : s.faultRec = none)
    (hst : s.stationAt sid = some st) :
    writeResults (sid :: l) s = andThen (exec st.instr (s.setBus (some sid))) (writeResults l) := by
  simp [writeResults, hf, hst]

/-! ## Waits through the phases of a tick (42_write_result.md R125, 40_rename_issue.md R90) -/

@[simp] theorem endTick_rs (s : State) : s.endTick.rs = s.rs := by unfold State.endTick; split <;> rfl

theorem WaitsOk.writeResults (h : s.WaitsOk) (hc : s.Consistent) {l : List Nat} (e : writeResults l s = .next t) :
    t.WaitsOk := by
  have both : t.Consistent ∧ t.WaitsOk := by
    refine writeResults_keeps (P := fun u => u.Consistent ∧ u.WaitsOk) ?_ ?_ l ⟨hc, h⟩ e
    · exact fun u b hu => ⟨((hu.1.soundBut none).setBus b).consistent, hu.2.of_eq rfl rfl⟩
    · exact fun op sid u hu _ => ⟨hu.1.writeBack (ruleOf_framed op) sid, hu.2.writeBack hu.1 (ruleOf_framed op) sid⟩
  exact both.2

theorem WaitsOk.executePhase (h : s.WaitsOk) (e : executePhase s = .next t) : t.WaitsOk :=
  executeStations_keeps (P := State.WaitsOk) (fun sid _ _ hw e => hw.executeStation sid e) _ h e

theorem WaitsOk.issuePhase (h : s.WaitsOk) (hc : s.Consistent)
    (hold : ∀ k sl, s.slotAt k = some sl → sl.issueCycle < s.currentCycle) (hb : s.onBus = none)
    (e : issuePhase s = .next t) : t.WaitsOk := by
  rcases issuePhase_cases hb e with ⟨-, rfl⟩ | ⟨i, -, rfl⟩
  · exact h
  · exact h.issueInstr hc hold i

theorem WaitsOk.endTick (h : s.WaitsOk) : s.endTick.WaitsOk := h.of_eq s.endTick_rob s.endTick_rs

/-- One tick keeps the waits live; an issued station waits on older slots only because, under the invariant, every slot the issue
phase finds was issued in an earlier tick. -/
theorem WaitsOk.step (h : s.WaitsOk) (hi : s.Inv) (e : step s = .next t) : t.WaitsOk := by
  rcases step_inversion e with ⟨-, rfl⟩ | ⟨-, -, why, i, -, rfl⟩ | ⟨-, -, -, -, s1, e1, f1, b1, hend⟩
  · exact h
  · exact h.of_eq rfl rfl
  · obtain ⟨c1, old1⟩ := hi.afterWriteResults e1
    have hlogged : (s.logEvent (.cycleStart s.currentCycle)).Consistent := ((hi.consistent.soundBut none).logEvent _).consistent
    have w1 : s1.WaitsOk := WaitsOk.writeResults (h.of_eq (t := s.logEvent _) rfl rfl) hlogged e1
    rcases hend with ⟨-, rfl⟩ | ⟨-, s2, s3, e2, f2, e3, -, -, -, rfl⟩
    · exact w1
    · obtain ⟨c2, old2⟩ := c1.afterExecute e2 old1
      have cycle2 : s2.currentCycle = s.currentCycle := f2.currentCycle.trans f1.currentCycle
      have w3 : s3.WaitsOk := (w1.executePhase e2).issuePhase c2 (by rwa [cycle2]) (f2.onBus.trans b1) e3
      exact w3.commitPhase.endTick

end State

end Sys2Proof.Machine

open Sys2Proof Sys2Proof.Machine

/-- Settles O26: the sort orders the done stations by the issue cycle of the slot that owns each one's name. -/
theorem candidatesAreTheDoneStationsOldestFirst : Obligations.CandidatesAreTheDoneStationsOldestFirst := by
  intro s hs
  refine ⟨fun sid => State.mem_candidates, State.candidates_nodup, s.candidates_sorted.imp ?_⟩
  intro a b hle sa sb ka kb sla slb ha hb hka hna hkb hnb
  rwa [hs.issueCycleOf_eq ha hka hna, hs.issueCycleOf_eq hb hkb hnb] at hle

/-- Settles O52: each phase keeps the waits live; the issue phase needs that every slot there was issued in an earlier tick. -/
theorem everyStepKeepsTheWaitsLive : Obligations.EveryStepKeepsTheWaitsLive :=
  fun _ _ hi h e => h.step hi e

/-- Settles O17: one turn of the loop, in which any instruction of the station's opcode acts as the one rebuilt from the station. -/
theorem candidateRunsItsStationsInstruction : Obligations.CandidateRunsItsStationsInstruction := by
  refine ⟨fun _ => rfl, fun _ => rfl, fun s sids hf => State.writeResults_of_fault sids hf, fun s sid rest hf => ?_⟩
  refine ⟨State.writeResults_cons_of_free rest hf, fun st i hst hop => ?_⟩
  obtain ⟨t, ht⟩ := State.exec_isNext i (s.setBus (some sid))
  have hinstr : exec st.instr (s.setBus (some sid)) = .next t :=
    (State.exec_eq_of_opcode_eq ((State.station_instr_opcode st).trans hop.symm) rfl).trans ht
  exact ⟨t, ht, by rw [State.writeResults_cons_of_busy rest hf hst, hinstr, andThen_next]⟩
end

section
/-! The commit phase by the state of the head slot: free, busy and unready, busy and ready (43_commit.md R130 to R134). -/

namespace Sys2Proof.Machine

namespace State

variable {s : State} {sl : Slot}

theorem commitPhase_of_free (hk : s.slotAt s.head = none) : commitPhase s = s := by
  simp [commitPhase, hk]

theorem commitPhase_of_unready (hk : s.slotAt s.head = some sl) (hr : sl.ready = false) : commitPhase s = s := by
  simp [commitPhase, hk, hr]

theorem commitPhase_of_ready (hk : s.slotAt s.head = some sl) (hr : sl.ready = true) : commitPhase s = s.retired sl := by
  simp [commitPhase, hk, hr]

/-- A slot without a public register (that of an SD or a BEQZ) writes none (43_commit.md R131). -/
theorem retired_x (s : State) (sl : Slot) :
    (s.retired sl).x = (sl.publicReg.map (fun r => s.x.set r sl.result)).getD s.x := by
  unfold retired
  cases sl.publicReg with
  | none => rfl
  | some r => rfl

theorem unrenamed_eq_getD (s : State) (reg : Option Nat) (n : Nat) :
    s.unrenamed reg n = (reg.map (fun r =>
      if s.renameMap[r]? = some (some n) then s.renameMap.set r none else s.renameMap)).getD s.renameMap := by
  cases reg with
  | none => rfl
  | some r => rfl

end State

end Sys2Proof.Machine

open Sys2Proof Sys2Proof.Machine

/-- Settles O36: the three cases of the head slot; a ready one retires, and `retired` says every field of the next state. -/
theorem commitRetiresTheHead : Obligations.CommitRetiresTheHead := by
  refine fun s => ⟨State.commitPhase_of_free, fun sl hk => ⟨State.commitPhase_of_unready hk, fun hr => ?_⟩⟩
  rw [State.commitPhase_of_ready hk hr, ← State.retired_x, ← State.unrenamed_eq_getD]
  rfl
end

section
/-! One tick of the cycle engine (44_cycle_engine.md R140 to R148): the stopped engine, the two caps, the phases in their order, and the
end of the tick. -/

namespace Sys2Proof.Machine

namespace State

variable {s t : State} {i : Nat}

/-! ## The stopped engine and the two caps (44_cycle_engine.md R141, R143, R144) -/

theorem stopped_iff : s.stopped = true ↔ s.complete = true ∨ s.faultRec ≠ none := by
  rw [stopped, Bool.or_eq_true, Option.isSome_iff_ne_none]

theorem stopped_eq_false_iff : s.stopped = false ↔ s.complete = false ∧ s.faultRec = none := by
  rw [stopped, Bool.or_eq_false_iff, Option.isSome_eq_false_iff, Option.isNone_iff_eq_none]

theorem step_of_stopped (h : s.stopped = true) : step s = .next s := if_pos h

/-- A forced stop right after the cycle boundary, with its two events side by side. -/
theorem timeout_logEvent (e : Event) (why : TimeoutReason) (j : Option Nat) : (s.logEvent e).timeout why j = { s with
    complete := true, timedOut := true, totalCycles := s.currentCycle - 1
    log := s.log ++ [e, .timeout s.currentCycle why j] } := by
  simp [timeout, logEvent]

theorem step_of_pastCap (hs : s.stopped = false) (hcap : s.cfg.cycleCap < s.currentCycle) : step s = .next { s with
    complete := true, timedOut := true, totalCycles := s.currentCycle - 1
    log := s.log ++ [.cycleStart s.currentCycle, .timeout s.currentCycle .cycleCapExceeded none] } := by
  simp [step, tick, hs, hcap, timeout_logEvent]

/-- A tick within the cycle cap that finds a stuck position; the boundary event changes nothing the search reads. -/
theorem step_of_stuck (hs : s.stopped = false) (hcap : s.currentCycle ≤ s.cfg.cycleCap) (hi : s.stuckPosition = some i) :
    step s = .next { s with
      complete := true, timedOut := true, totalCycles := s.currentCycle - 1
      log := s.log ++ [.cycleStart s.currentCycle, .timeout s.currentCycle .stuckInstruction (some i)] } := by
  have hlogged : (s.logEvent (.cycleStart s.currentCycle)).stuckPosition = some i := hi
  simp [step, tick, hs, hcap.not_gt, hlogged, timeout_logEvent]

/-- Only a tick that runs its phases, and so starts within the cycle cap, advances the cycle number (44_cycle_engine.md R143, R148). -/
theorem step_currentCycle (e : step s = .next t) :
    t.currentCycle = s.currentCycle ∨ t.currentCycle = s.currentCycle + 1 ∧ s.currentCycle ≤ s.cfg.cycleCap := by
  obtain ⟨-, -, -, hcycle, -⟩ := stepKeepsProgramAndExtendsLog s t e
  rcases step_inversion e with ⟨-, rfl⟩ | ⟨-, -, why, i, -, rfl⟩ | ⟨-, -, hcap, -⟩
  · exact .inl rfl
  · exact .inl rfl
  · exact hcycle.imp_right (⟨·, hcap⟩)

/-! ## The lowest stuck position (44_cycle_engine.md R144) -/

theorem isActive_iff (a : Status) : isActive a = true ↔ a = .issued ∨ a = .executed ∨ a = .resultWritten := by
  cases a <;> decide

theorem isStuck_iff : s.isStuck i = true ↔
    (s.status[i]? = some .issued ∨ s.status[i]? = some .executed ∨ s.status[i]? = some .resultWritten) ∧
      ∃ n, s.reissue[i]? = some n ∧ s.cfg.stuckCap < n := by
  unfold isStuck
  cases s.status[i]? with
  | none => simp
  | some a =>
    cases s.reissue[i]? with
    | none => simp
    | some n => simp [isActive_iff]

theorem stuckPosition_eq_some_iff : s.stuckPosition = some i ↔
    (i < s.prog.length ∧ s.isStuck i = true) ∧ ∀ j, j < i → ¬(j < s.prog.length ∧ s.isStuck j = true) := by
  rw [stuckPosition, List.find?_range_eq_some]
  simp only [List.mem_range, Bool.not_eq_true', ← Bool.not_eq_true]
  constructor
  · exact fun ⟨hi, hlt, hlowest⟩ => ⟨⟨hlt, hi⟩, fun j hj h => hlowest j hj h.2⟩
  · exact fun ⟨⟨hlt, hi⟩, hlowest⟩ => ⟨hi, hlt, fun j hj h => hlowest j hj ⟨hj.trans hlt, h⟩⟩

/-! ## The end of a tick (44_cycle_engine.md R147, R148) -/

theorem endTick_of_ended (hpc : s.prog.length ≤ s.pc) (hempty : ∀ k, s.slotAt k = none) : s.endTick = { s with
    complete := true, totalCycles := s.currentCycle, log := s.log ++ [.complete s.currentCycle] } :=
  if_pos ⟨hpc, robEmpty_iff.2 hempty⟩

theorem endTick_of_notEnded (h : ¬(s.prog.length ≤ s.pc ∧ ∀ k, s.slotAt k = none)) :
    s.endTick = { s with currentCycle := s.currentCycle + 1 } :=
  if_neg (by rwa [robEmpty_iff])

end State

end Sys2Proof.Machine

open Sys2Proof Sys2Proof.Machine

/-- Settles O9: the tick tests for a stopped engine first. -/
theorem stoppedStepIsNoOp : Obligations.StoppedStepIsNoOp :=
  fun _ h => State.step_of_stopped (State.stopped_iff.2 h)

/-- Settles O10: the guard's own tick, and that no tick past the cap advances the cycle number. -/
theorem cycleCapStopsTheRun : Obligations.CycleCapStopsTheRun := by
  refine ⟨fun s hc hf hcap => State.step_of_pastCap (State.stopped_eq_false_iff.2 ⟨hc, hf⟩) hcap,
    fun s t hle e => ⟨?_, fun hc hf hcap => ?_⟩⟩
  · obtain ⟨-, hcfg, -⟩ := stepKeepsProgramAndExtendsLog s t e
    rw [hcfg]
    rcases State.step_currentCycle e with hsame | ⟨hnext, hwithin⟩
    · rwa [hsame]
    · rw [hnext]; exact Nat.succ_le_succ hwithin
  · cases e.symm.trans (State.step_of_pastCap (State.stopped_eq_false_iff.2 ⟨hc, hf⟩) hcap)
    show s.currentCycle - 1 = s.cfg.cycleCap
    omega

/-- Settles O11: the guard's search answers the lowest stuck position. -/
theorem stuckInstructionStopsTheRun : Obligations.StuckInstructionStopsTheRun := by
  intro s i stuck hc hf hcap hi hlowest
  have hstuck (j : Nat) : j < s.prog.length ∧ s.isStuck j = true ↔ stuck j := and_congr_right fun _ => State.isStuck_iff
  refine State.step_of_stuck (State.stopped_eq_false_iff.2 ⟨hc, hf⟩) hcap (State.stuckPosition_eq_some_iff.2 ?_)
  simp only [hstuck]
  exact ⟨hi, hlowest⟩

/-- Settles O12: a tick no guard stops is write-result and what follows it, which is nothing after a fault. -/
theorem tickRunsThePhasesInOrder : Obligations.TickRunsThePhasesInOrder := by
  intro s s1 hc hf hcap hstuck hwrite
  have hstep : step s = afterWriteResult s1 :=
    calc step s = andThen (writeResultPhase (s.logEvent (.cycleStart s.currentCycle))) afterWriteResult :=
          State.step_running hc hf hcap hstuck
      _ = andThen (.next s1) afterWriteResult := congrArg (andThen · afterWriteResult) hwrite
  refine ⟨fun hfault => hstep.trans (if_pos (Option.isSome_iff_ne_none.2 hfault)), fun s2 s3 hf1 hexecute hissue => ?_⟩
  exact hstep.trans (State.afterWriteResult_of_phases hf1 hexecute hissue)

/-- Settles O13: the two branches of the tick's end. -/
theorem endOfTickCompletesOrAdvances : Obligations.EndOfTickCompletesOrAdvances :=
  fun _ => ⟨fun ⟨hpc, hempty⟩ => State.endTick_of_ended hpc hempty, State.endTick_of_notEnded⟩
end

section
/-! The host's commands and queries (44_cycle_engine.md R153 to R157): what `load` answers, that it and `reset` give a state that
meets the invariants, the calls of `step` that `runToCompletion` makes, and what the snapshots show. -/

namespace Sys2Proof.Machine

variable {s t : State} {words : List InstrWord}

/-! ## `load` and `reset` (44_cycle_engine.md R154, R155) -/

theorem hostLoad_of_tooLong (h : 2147483647 < words.length) :
    hostLoad s words = .error { code := .tooLong, position := none } :=
  if_pos h

theorem hostLoad_of_decodeError (hl : words.length ≤ 2147483647) {err : LoadError}
    (h : decodeAll s.cfg.narch 0 words = .error err) : hostLoad s words = .error err := by
  rw [hostLoad, if_neg hl.not_gt, h]

theorem hostLoad_of_decoded (hl : words.length ≤ 2147483647) {prog : List Instr}
    (h : decodeAll s.cfg.narch 0 words = .ok prog) : hostLoad s words = .ok (resetFor s prog) := by
  rw [hostLoad, if_neg hl.not_gt, h]

theorem hostLoad_ok (h : hostLoad s words = .ok t) :
    words.length ≤ 2147483647 ∧ ∃ prog, decodeAll s.cfg.narch 0 words = .ok prog ∧ t = resetFor s prog := by
  by_cases hl : words.length ≤ 2147483647
  · refine ⟨hl, ?_⟩
    cases hd : decodeAll s.cfg.narch 0 words with
    | error err => rw [hostLoad_of_decodeError hl hd] at h; cases h
    | ok prog => rw [hostLoad_of_decoded hl hd] at h; cases h; exact ⟨prog, rfl, rfl⟩
  · rw [hostLoad_of_tooLong (not_le.1 hl)] at h; cases h

theorem stateAfterLoad_of_ok (h : hostLoad s words = .ok t) : stateAfterLoad s words = t := by
  rw [stateAfterLoad, h]

theorem resetFor_meetsTheInvariants (hc : s.cfg.wf = true) {prog : List Instr} (hl : prog.length ≤ 2147483647)
    (hp : ∀ i ∈ prog, i.wf s.cfg.narch = true) :
    (resetFor s prog).Inv ∧ (resetFor s prog).Ring ∧ (resetFor s prog).WaitsOk ∧ (resetFor s prog).MemOk ∧
      (resetFor s prog).CommitBound :=
  resetWith_inv hc hl hp (by simp [drawnPhys])

/-! ## `runToCompletion` (44_cycle_engine.md R153) -/

/-- The state after `n` calls of `step`; a call that answers no next state leaves the state as it is. -/
def stateAfterSteps (s : State) : Nat → State
  | 0 => s
  | n + 1 =>
    match step s with
    | .next t => stateAfterSteps t n
    | .fault _ => s
    | .refused _ => s

theorem stateAfterSteps_succ (e : step s = .next t) (n : Nat) : stateAfterSteps s (n + 1) = stateAfterSteps t n := by
  rw [stateAfterSteps, e]

/-- A run that answers `t` makes `n` calls of `step`, none in a stopped state, and ends at the first stop or without fuel. -/
theorem runSteps_eq_next {fuel : Nat} (h : runSteps fuel s = .next t) :
    ∃ n, n ≤ fuel ∧ stateAfterSteps s n = t ∧
      (∀ j, j < n → step (stateAfterSteps s j) = .next (stateAfterSteps s (j + 1)) ∧ (stateAfterSteps s j).stopped = false) ∧
      (t.stopped = true ∨ n = fuel) := by
  induction fuel generalizing s with
  | zero =>
    cases h
    exact ⟨0, le_refl 0, rfl, nofun, .inr rfl⟩
  | succ fuel ih =>
    rw [runSteps] at h
    split at h
    · next hs =>
      cases h
      exact ⟨0, Nat.zero_le _, rfl, nofun, .inl hs⟩
    · next hs =>
      obtain ⟨m, e, hm⟩ := andThen_eq_next h
      obtain ⟨n, hn, hlast, hsteps, hend⟩ := ih hm
      refine ⟨n + 1, Nat.succ_le_succ hn, (stateAfterSteps_succ e n).trans hlast, fun j hj => ?_, hend.imp_right (congrArg (· + 1))⟩
      cases j with
      | zero => exact ⟨by rw [stateAfterSteps_succ e]; exact e, Bool.eq_false_iff.2 hs⟩
      | succ j =>
        rw [stateAfterSteps_succ e, stateAfterSteps_succ e]
        exact hsteps j (Nat.lt_of_succ_lt_succ hj)

/-! ## The snapshots (44_cycle_engine.md R156) -/

theorem viewStation_eq (e : StationEntry) : viewStation e = {
    name := e.name, busy := e.body.isSome, op := e.body.map Station.op
    vj := (e.body.map Station.vj).getD F32.posZero, vk := (e.body.map Station.vk).getD F32.posZero
    qj := e.body.bind Station.qj, qk := e.body.bind Station.qk, dest := e.body.map Station.dest } := by
  unfold viewStation
  cases e.body <;> rfl

theorem viewSlot_eq (k : Nat) (o : Option Slot) : viewSlot k o = {
    index := k, busy := o.isSome, instr := o.map Slot.instr, stateCode := (o.map (fun sl => sl.state.code)).getD 7
    publicReg := o.bind Slot.publicReg, result := (o.map Slot.result).getD F32.posZero } := by
  cases o <;> rfl

end Sys2Proof.Machine

open Sys2Proof Sys2Proof.Machine

/-- Settles O4: the decoder of the whole sequence stops at the first illegal word, and without one the load is a `reset`. -/
theorem loadIsAllOrNothing : Obligations.LoadIsAllOrNothing := by
  refine fun s words => ⟨fun hlong => ?_, fun hl => ⟨fun j w e hw he hbefore => ?_, fun hlegal => ?_⟩⟩
  · have hload := hostLoad_of_tooLong (s := s) hlong
    exact ⟨hload, stateAfterLoad_of_error hload⟩
  · have hload := hostLoad_of_decodeError hl (decodeAll_first s.cfg.narch words 0 j w e hw he hbefore)
    rw [Nat.zero_add] at hload
    exact ⟨hload, stateAfterLoad_of_error hload⟩
  · obtain ⟨prog, hprog, hlen, hdecode⟩ := decodeAll_of_legal s.cfg.narch words 0 hlegal
    have hload := hostLoad_of_decoded hl hprog
    exact ⟨prog, hlen, hdecode, hload, stateAfterLoad_of_ok hload⟩

/-- Settles O48: both commands give the reset state of a legal program: the one kept, or the one just decoded. -/
theorem hostCommandsMeetTheInvariants : Obligations.HostCommandsMeetTheInvariants := by
  refine ⟨fun s hs => resetFor_meetsTheInvariants hs.cfgWf hs.progLen hs.progWf, fun s t words hc h => ?_⟩
  obtain ⟨hl, prog, hprog, rfl⟩ := hostLoad_ok h
  obtain ⟨hlen, hwf⟩ := decodeAll_ok hprog
  exact resetFor_meetsTheInvariants hc (hlen.trans_le hl) hwf

/-- Settles O7: the calls `runToCompletion` makes, by induction on its fuel, the ceiling. -/
theorem runToCompletionStopsAtTheFirstStop : Obligations.RunToCompletionStopsAtTheFirstStop := by
  intro s t h
  obtain ⟨n, hn, hlast, hsteps, hend⟩ := runSteps_eq_next h
  refine ⟨stateAfterSteps s, n, hn, rfl, hlast, fun j hj => ?_, ?_⟩
  · obtain ⟨e, hs⟩ := hsteps j hj
    exact ⟨e, State.stopped_eq_false_iff.1 hs⟩
  · rw [← or_assoc, ← State.stopped_iff]
    exact hend

/-- Settles O8: each view read field by field, and the `j`-th slot shown is the `j`-th from the head. -/
theorem snapshotsShowTheState : Obligations.SnapshotsShowTheState := by
  intro s _
  refine ⟨fun j e hj => ?_, by simp [snapshotReservationStations], by simp [snapshotReorderBuffer], fun j hj => ?_, rfl⟩
  · rw [snapshotReservationStations, List.getElem?_map, hj, Option.map_some, viewStation_eq]
  · rw [snapshotReorderBuffer, List.getElem?_map, List.getElem?_range hj, Option.map_some, viewSlot_eq]
    rfl
end

section
/-! The four engine states (44_cycle_engine.md R149): what each says of the status registers, and which of them the end of a tick and a
whole step of a running engine lead to. -/

namespace Sys2Proof.Machine

variable {s t : State}

theorem engineState_of_complete (hc : s.complete = true) :
    engineState s = if s.timedOut then .completeTimeout else .completeNormal :=
  if_pos hc

theorem engineState_of_incomplete (hc : s.complete = false) :
    engineState s = if s.faultRec.isSome then .faulted else .running :=
  if_neg (Bool.eq_false_iff.1 hc)

theorem engineState_running_iff : engineState s = .running ↔ s.complete = false ∧ s.faultRec = none := by
  cases hc : s.complete with
  | false => simp [engineState_of_incomplete hc]
  | true => simp [engineState_of_complete hc, ite_eq_iff]

theorem engineState_completeNormal_iff : engineState s = .completeNormal ↔ s.complete = true ∧ s.timedOut = false := by
  cases hc : s.complete with
  | false => simp [engineState_of_incomplete hc, ite_eq_iff]
  | true => simp [engineState_of_complete hc]

theorem engineState_completeTimeout_iff : engineState s = .completeTimeout ↔ s.complete = true ∧ s.timedOut = true := by
  cases hc : s.complete with
  | false => simp [engineState_of_incomplete hc, ite_eq_iff]
  | true => simp [engineState_of_complete hc]

theorem engineState_faulted_iff : engineState s = .faulted ↔ s.faultRec ≠ none ∧ s.complete = false := by
  cases hc : s.complete with
  | false => simp [engineState_of_incomplete hc]
  | true => simp [engineState_of_complete hc, ite_eq_iff]

theorem stopped_of_not_running (h : engineState s ≠ .running) : s.stopped = true := by
  by_contra hs
  exact h (engineState_running_iff.2 (State.stopped_eq_false_iff.1 (Bool.eq_false_iff.2 hs)))

theorem engineState_endTick (hc : s.complete = false) (hf : s.faultRec = none) (ht : s.timedOut = false) :
    (engineState s.endTick = .completeNormal ∧ s.endTick.prog.length ≤ s.endTick.pc ∧ (∀ k, s.endTick.slotAt k = none) ∧
      s.endTick.totalCycles = s.currentCycle) ∨
    engineState s.endTick = .running := by
  rcases State.endTick_cases s with ⟨hpc, hempty, e⟩ | ⟨-, e⟩ <;> rw [e]
  · exact .inl ⟨engineState_completeNormal_iff.2 ⟨rfl, ht⟩, hpc, State.robEmpty_slotAt hempty, rfl⟩
  · exact .inr (engineState_running_iff.2 ⟨hc, hf⟩)

/-- What a step of a running engine leads to: a timeout by one of the caps, a fault of this cycle, the end of the program with an
empty ROB, or a running engine. -/
theorem engineState_step_of_running (e : step s = .next t) (hr : engineState s = .running) (ht : s.timedOut = false) :
    (engineState t = .completeTimeout ∧ (s.cfg.cycleCap < s.currentCycle ∨ s.stuckPosition ≠ none) ∧
      t.totalCycles = s.currentCycle - 1) ∨
    (engineState t = .faulted ∧ ∃ f, t.faultRec = some f ∧ f.cycle = s.currentCycle) ∨
    (engineState t = .completeNormal ∧ t.prog.length ≤ t.pc ∧ (∀ k, t.slotAt k = none) ∧ t.totalCycles = s.currentCycle) ∨
    engineState t = .running := by
  obtain ⟨hc, hf⟩ := engineState_running_iff.1 hr
  rcases State.step_inversion e with ⟨hs, -⟩ | ⟨-, -, why, i, hcap, rfl⟩ | ⟨-, -, -, -, s1, e1, f1, -, hend⟩
  · rw [State.stopped_eq_false_iff.2 ⟨hc, hf⟩] at hs; cases hs
  · exact .inl ⟨engineState_completeTimeout_iff.2 ⟨rfl, rfl⟩, hcap, rfl⟩
  · have hc1 : s1.complete = false := f1.complete.trans hc
    rcases hend with ⟨hfault, rfl⟩ | ⟨hf1, s2, s3, -, f2, -, f3, -, f4, rfl⟩
    · obtain ⟨f, hfault'⟩ := Option.ne_none_iff_exists'.1 hfault
      have hcycle : f.cycle = s.currentCycle := State.writeResults_faultCycle (s := s.logEvent _) hf e1 hfault'
      exact .inr (.inl ⟨engineState_faulted_iff.2 ⟨hfault, hc1⟩, f, hfault', hcycle⟩)
    · have hc4 := (f4.complete.trans (f3.complete.trans f2.complete)).trans hc1
      have hf4 := (f4.faultRec.trans (f3.faultRec.trans f2.faultRec)).trans hf1
      have ht4 := (f4.timedOut.trans (f3.timedOut.trans f2.timedOut)).trans (f1.timedOut.trans ht)
      have hcycle : (commitPhase s3).currentCycle = s.currentCycle :=
        (f4.currentCycle.trans (f3.currentCycle.trans f2.currentCycle)).trans f1.currentCycle
      exact .inr (.inr (hcycle ▸ engineState_endTick hc4 hf4 ht4))

end Sys2Proof.Machine

open Sys2Proof Sys2Proof.Machine

/-- Settles O14: a stopped engine's step is a no-op, and each way a tick can go leads to its own state. -/
theorem engineStateTransitions : Obligations.EngineStateTransitions := by
  refine ⟨fun s _ => ?_, fun s t e hr => ?_, fun s t e hr ht => ?_, fun _ => rfl, fun s t words h => ?_⟩
  · exact ⟨engineState_running_iff, engineState_completeNormal_iff, engineState_completeTimeout_iff, engineState_faulted_iff⟩
  · cases e.symm.trans (State.step_of_stopped (stopped_of_not_running hr))
    rfl
  · rcases engineState_step_of_running e hr ht with ⟨g, h⟩ | ⟨g, h⟩ | ⟨g, h⟩ | g <;> rw [g]
    · exact ⟨nofun, fun _ => h, nofun⟩
    · exact ⟨nofun, nofun, fun _ => h⟩
    · exact ⟨fun _ => h, nofun, nofun⟩
    · exact ⟨nofun, nofun, nofun⟩
  · obtain ⟨-, prog, -, rfl⟩ := hostLoad_ok h
    rfl
end

section
/-! The four operations and the conversion of integers as one correct rounding (45_arith.md R164, 46_muldiv.md R165, R166; IEEE 754,
log 11), and the write-result of the instructions that compute with them (45_arith.md R160, R161). -/

namespace Sys2Proof.F32

variable {a b v r c : Value}

/-! ## Sums and differences of finite values -/

/-- The difference is the sum with the negated operand, its exact value and its sign of zero among it. -/
theorem sub_finite (ha : isFinite a = true) (hb : isFinite b = true) :
    ∃ r, sub a b = some r ∧ NearestEven (signedUnits a - signedUnits b) 1 r ∧
      (signedUnits a - signedUnits b = 0 → sign r = (sign a && !sign b)) := by
  have h := add_finite ha ((isFinite_neg b).trans hb)
  rwa [signedUnits_neg, sign_neg, ← Int.sub_eq_add_neg, ← sub_eq_add_neg (notNaN_of_finite hb)] at h

/-! ## Products and quotients of finite values -/

/-- The factor by which a sign bit multiplies a magnitude. -/
def signFactor (n : Bool) : Int := if n then -1 else 1

theorem signFactor_mul (m n : Bool) : signFactor m * signFactor n = signFactor (m != n) := by
  cases m <;> cases n <;> rfl

theorem signedUnits_eq_signFactor_mul (v : Value) : signedUnits v = signFactor (sign v) * units v := by
  unfold signedUnits signFactor
  split <;> simp

/-- A sign and a rounded magnitude packed together are the rounding of the signed magnitude. -/
theorem nearestEven_pack (n : Bool) (num : Nat) {den : Nat} (hd : 0 < den) :
    NearestEven (signFactor n * num) den (pack n (roundUnits num den)) := by
  have habs : (signFactor n * (num : Int)).natAbs = num := by cases n <;> simp [signFactor]
  have hsign : signFactor n * (num : Int) ≠ 0 → n = decide (signFactor n * (num : Int) < 0) := by
    cases n <;> simp [signFactor, Nat.pos_iff_ne_zero]
  have h := nearestEven_of_round (signFactor n * num) hd hsign
  rwa [habs] at h

theorem mul_of_finite (ha : isFinite a = true) (hb : isFinite b = true) :
    mul a b = some (pack (sign a != sign b) (roundUnits (units a * units b) one149)) := by
  simp [mul, notNaN_of_finite ha, notNaN_of_finite hb, notInf_of_finite ha, notInf_of_finite hb]

theorem div_of_finite (ha : isFinite a = true) (hb : isFinite b = true) (hz : isZero b = false) :
    div a b = some (pack (sign a != sign b) (roundUnits (units a * one149) (units b))) := by
  simp [div, notNaN_of_finite ha, notNaN_of_finite hb, notInf_of_finite ha, notInf_of_finite hb, hz]

theorem mul_finite (ha : isFinite a = true) (hb : isFinite b = true) :
    ∃ r, mul a b = some r ∧ NearestEven (signedUnits a * signedUnits b) (2 ^ 149) r ∧ sign r = (sign a != sign b) := by
  have hexact : signedUnits a * signedUnits b = signFactor (sign a != sign b) * (units a * units b : Nat) := by
    rw [signedUnits_eq_signFactor_mul, signedUnits_eq_signFactor_mul, ← signFactor_mul, Nat.cast_mul]
    ring
  refine ⟨_, mul_of_finite ha hb, ?_, sign_pack (roundUnits_lt _ _)⟩
  rw [hexact]
  exact nearestEven_pack _ _ (Nat.two_pow_pos 149)

theorem div_finite (ha : isFinite a = true) (hb : isFinite b = true) (hz : isZero b = false) :
    ∃ r, div a b = some r ∧ NearestEven (signedUnits a * 2 ^ 149 * signFactor (sign b)) (units b) r ∧
      sign r = (sign a != sign b) := by
  have hexact : signedUnits a * 2 ^ 149 * signFactor (sign b) = signFactor (sign a != sign b) * (units a * one149 : Nat) := by
    rw [signedUnits_eq_signFactor_mul, ← signFactor_mul, Nat.cast_mul, show (one149 : Int) = 2 ^ 149 from rfl]
    ring
  have hpos : 0 < units b := Nat.pos_of_ne_zero fun h => Bool.false_ne_true (hz.symm.trans (isZero_iff_units.2 h))
  refine ⟨_, div_of_finite ha hb hz, ?_, sign_pack (roundUnits_lt _ _)⟩
  rw [hexact]
  exact nearestEven_pack _ _ hpos

/-! ## Invalid operations -/

theorem sub_none (a b : Value) : sub a b = none ↔
    isNaN a = true ∨ isNaN b = true ∨ (isInf a = true ∧ isInf b = true ∧ sign a = sign b) := by
  cases hb : isNaN b with
  | true => simp [sub, hb]
  | false =>
    rw [sub_eq_add_neg hb, add_none, isNaN_neg, isInf_neg, sign_neg, hb]
    simp

/-- Each branch of `mul` decides every clause, since a zero is no infinity. -/
theorem mul_none (a b : Value) : mul a b = none ↔
    isNaN a = true ∨ isNaN b = true ∨ (isInf a = true ∧ isZero b = true) ∨ (isZero a = true ∧ isInf b = true) := by
  have hza := notInf_of_isZero (v := a)
  have hzb := notInf_of_isZero (v := b)
  unfold mul
  simp only [Bool.or_eq_true]
  split_ifs <;> grind

/-- Each branch of `div` decides every clause, since a zero is no infinity. -/
theorem div_none (a b : Value) : div a b = none ↔
    isNaN a = true ∨ isNaN b = true ∨ (isZero a = true ∧ isZero b = true) ∨ (isInf a = true ∧ isInf b = true) := by
  have hza := notInf_of_isZero (v := a)
  have hzb := notInf_of_isZero (v := b)
  unfold div
  simp only [Bool.or_eq_true]
  split_ifs <;> grind

theorem sub_notNaN (h : sub a b = some r) : isNaN r = false := by
  cases hb : isNaN b with
  | true => simp [sub, hb] at h
  | false => exact add_notNaN ((sub_eq_add_neg hb).symm.trans h)

theorem mul_notNaN (h : mul a b = some r) : isNaN r = false := by
  unfold mul at h
  dsimp only at h
  split_ifs at h <;> obtain rfl := Option.some.inj h
  · exact notNaN_inf _
  · exact notNaN_pack_round _ _ _

theorem div_notNaN (h : div a b = some r) : isNaN r = false := by
  unfold div at h
  dsimp only at h
  split_ifs at h <;> obtain rfl := Option.some.inj h
  · exact notNaN_inf _
  · exact notNaN_zero _
  · exact notNaN_inf _
  · exact notNaN_pack_round _ _ _

/-! ## Integers -/

theorem ofInt_eq_round (i : Int) : ofInt i = roundSigned (i * 2 ^ 149) 1 := by
  unfold ofInt
  split
  · subst i; decide
  · rfl

theorem nearestEven_ofInt (i : Int) : NearestEven (i * 2 ^ 149) 1 (ofInt i) := by
  rw [ofInt_eq_round]
  exact nearestEven_of_round _ Nat.one_pos fun _ => rfl

/-- A finite Value is its own rounding: nothing is nearer to the exact value than a Value that has it. -/
theorem NearestEven.signedUnits_eq (h : NearestEven (signedUnits c) 1 r) (hr : isFinite r = true) (hc : isFinite c = true) :
    signedUnits r = signedUnits c := by
  have := h.nearest hr c hc
  push_cast at this
  omega

/-- A magnitude of at most 24 significant bits stands on the scale: halving the weight `2 ^ s` of the last place doubles `q`, until
`q` has its leading bit in the 24th place or the weight is one unit. -/
theorem exists_unitsOf_eq (s : Nat) {q : Nat} (hq : q ≤ 16777216) :
    ∃ m, m ≤ s * 8388608 + 16777216 ∧ unitsOf m = q * 2 ^ s := by
  induction s generalizing q with
  | zero =>
    have hstep := unitsOf_step (s := 0) (.inl rfl) hq
    rw [Nat.zero_mul, Nat.zero_add] at hstep
    exact ⟨q, by omega, hstep⟩
  | succ s ih =>
    by_cases hlead : 8388608 ≤ q
    · exact ⟨(s + 1) * 8388608 + q, by omega, unitsOf_step (.inr hlead) hq⟩
    · obtain ⟨m, hm, hunits⟩ := ih (q := q * 2) (by omega)
      refine ⟨m, hm.trans ?_, by rw [hunits, Nat.pow_succ', Nat.mul_assoc]⟩
      exact Nat.add_le_add_right (Nat.mul_le_mul_right _ (Nat.le_succ s)) _

/-- An integer of magnitude at most 2^24 is the exact value of some finite Value. -/
theorem exists_finite_of_natAbs_le {i : Int} (hi : i.natAbs ≤ 2 ^ 24) : ∃ c, isFinite c = true ∧ signedUnits c = i * 2 ^ 149 := by
  obtain ⟨m, hm, hunits⟩ := exists_unitsOf_eq 149 hi
  have hfin : m < infMagnitude := by unfold infMagnitude; omega
  have hbits := Nat.lt_trans hfin infMagnitude_lt
  refine ⟨pack (decide (i < 0)) m, (isFinite_pack hbits).2 hfin, ?_⟩
  rw [signedUnits_pack hbits, hunits]
  by_cases hneg : i < 0
  · have hi' : (i.natAbs : Int) = -i := by omega
    simp [hneg, hi']
  · have hi' : (i.natAbs : Int) = i := by omega
    simp [hneg, hi']

theorem isFinite_ofInt {i : Int} (hi : i.natAbs ≤ 2 ^ 24) : isFinite (ofInt i) = true := by
  apply (nearestEven_ofInt i).inRange
  rw [Int.natAbs_mul, Nat.mul_one]
  calc i.natAbs * (2 ^ 149 : Int).natAbs ≤ 2 ^ 24 * 2 ^ 149 := Nat.mul_le_mul_right _ hi
    _ < overflowAt := by decide

theorem signedUnits_ofInt {i : Int} (hi : i.natAbs ≤ 2 ^ 24) : signedUnits (ofInt i) = i * 2 ^ 149 := by
  obtain ⟨c, hc, hunits⟩ := exists_finite_of_natAbs_le hi
  have hround := nearestEven_ofInt i
  rw [← hunits] at hround ⊢
  exact hround.signedUnits_eq (isFinite_ofInt hi) hc

theorem truncInt_eq_tdiv (v : Value) : truncInt v = (signedUnits v).tdiv one149 := by
  unfold truncInt signedUnits
  split
  · rw [Int.neg_tdiv, Int.ofNat_tdiv]
  · rw [Int.ofNat_tdiv]

theorem truncInt_ofInt {i : Int} (hi : i.natAbs ≤ 2 ^ 24) : truncInt (ofInt i) = i := by
  rw [truncInt_eq_tdiv, signedUnits_ofInt hi]
  exact Int.mul_tdiv_cancel i (by decide)

end Sys2Proof.F32

namespace Sys2Proof.Machine.State

variable {s : State} {st : Station} {sl : Slot} {sid k : Nat} {i : Instr} {r : Option Value}

theorem isNaN_drawn_none : F32.isNaN (s.drawn none) = true := F32.freeNaN_isNaN s.draws

/-- The write-result of an instruction whose rule computes `r` from the station alone: the memory is not touched, and the recorded
value is `r`, or some NaN where `r` is none (42_write_result.md R112 to R116, R123). -/
theorem exec_of_computing_rule (h : s.OnBus sid st k sl) (hr : ruleOf i.opcode st s = .done (s.drawn r) false (s.afterDraw r)) :
    ∃ t v, exec i s = .next t ∧ s.Recorded t sid st k sl v ∧
      (∀ w, r = some w → v = w) ∧ (r = none → F32.isNaN v = true) ∧ t.mem = s.mem ∧ ∀ a, t.mem.read a = s.mem.read a := by
  obtain ⟨hrecorded, hmem, -⟩ := recorded_of_rule h (s.drawn r) (ruleOf_framed _ _ _ _ _ _ hr) st.imm
  refine ⟨_, _, exec_of_rule h i hr, hrecorded, ?_, ?_, hmem, fun a => congrArg (Memory.read · a) hmem⟩
  · rintro w rfl; rfl
  · rintro rfl; exact isNaN_drawn_none

end Sys2Proof.Machine.State

open Sys2Proof Sys2Proof.Machine

/-- Settles O27: the rules of ADD and SUB compute their result from the station's operands. -/
theorem resultOfAddAndSub : Obligations.ResultOfAddAndSub := by
  intro s sid k st sl rd rs1 rs2 h f hf
  simp only [List.mem_cons, List.not_mem_nil, or_false] at hf
  obtain rfl | rfl := hf
  · exact State.exec_of_computing_rule h rfl
  · exact State.exec_of_computing_rule h rfl

/-- Settles O38: a sum is rounded once, and a difference is the sum with the negated operand. -/
theorem sumsAndDifferencesAreRoundedToNearestEven : Obligations.SumsAndDifferencesAreRoundedToNearestEven :=
  fun _ _ ha hb => ⟨F32.add_finite ha hb, F32.sub_finite ha hb⟩

/-- Settles O39: the signed exact value is the exclusive-or of the signs times the magnitude that is rounded. -/
theorem productsAndQuotientsAreRoundedToNearestEven : Obligations.ProductsAndQuotientsAreRoundedToNearestEven :=
  fun _ _ ha hb => ⟨F32.mul_finite ha hb, F32.div_finite ha hb⟩

/-- Settles O40: each operation's list of invalid cases, and a rounded, infinite or zero result is no NaN. -/
theorem nanExactlyForInvalidOperations : Obligations.NanExactlyForInvalidOperations := by
  refine ⟨fun a b => ⟨F32.add_none a b, F32.sub_none a b, F32.mul_none a b, F32.div_none a b, ?_⟩, F32.freeNaN_isNaN⟩
  rintro r (h | h | h | h)
  · exact F32.add_notNaN h
  · exact F32.sub_notNaN h
  · exact F32.mul_notNaN h
  · exact F32.div_notNaN h

/-- Settles O42: the integer is the exact value of a finite Value, so it is its own rounding. -/
theorem smallIntegersConvertExactly : Obligations.SmallIntegersConvertExactly :=
  fun _ hi => ⟨F32.isFinite_ofInt hi, F32.signedUnits_ofInt hi, F32.truncInt_ofInt hi⟩

/-- Settles O58: `ofInt` is one rounding of the integer in units of 2^−149; for 0 the bits are computed. -/
theorem integersAreRoundedToNearestEven : Obligations.IntegersAreRoundedToNearestEven :=
  ⟨F32.nearestEven_ofInt, rfl⟩
end

section
/-! DIV with a zero divisor or an infinite operand, where it is no invalid operation, and the write-result of MUL and DIV
(46_muldiv.md R165, R166; IEEE 754, log 11). -/

namespace Sys2Proof.F32

variable {a b v : Value}

/-! ## Zeros and their signs -/

theorem isZero_zero (n : Bool) : isZero (zero n) = true := (isZero_pack (by decide)).2 rfl

theorem sign_zero (n : Bool) : sign (zero n) = n := sign_pack (by decide)

theorem isFinite_of_isZero (h : isZero v = true) : isFinite v = true := by
  simp only [isZero, isFinite, Bool.and_eq_true, decide_eq_true_eq] at *
  omega

/-! ## Division, one zero or infinite operand at a time -/

/-- `0 / 0` is the invalid quotient; the dividend here is no zero. -/
theorem div_eq_inf_of_isZero (ha : isFinite a = true) (hza : isZero a = false) (hzb : isZero b = true) :
    div a b = some (inf (sign a != sign b)) := by
  simp [div, notNaN_of_finite ha, notInf_of_finite ha, notNaN_of_finite (isFinite_of_isZero hzb), notInf_of_isZero hzb, hza, hzb]

/-- `inf / inf` is the invalid quotient; the divisor here is finite. -/
theorem div_eq_inf_of_isInf (ha : isInf a = true) (hb : isFinite b = true) : div a b = some (inf (sign a != sign b)) := by
  simp [div, notNaN_of_isInf ha, ha, notNaN_of_finite hb, notInf_of_finite hb]

theorem div_eq_zero_of_isInf (ha : isFinite a = true) (hb : isInf b = true) : div a b = some (zero (sign a != sign b)) := by
  simp [div, notNaN_of_finite ha, notInf_of_finite ha, notNaN_of_isInf hb, hb]

end Sys2Proof.F32

open Sys2Proof Sys2Proof.Machine

/-- Settles O28: the rules of MUL and DIV compute their result from the station's operands. -/
theorem resultOfMulAndDiv : Obligations.ResultOfMulAndDiv := by
  intro s sid k st sl rd rs1 rs2 h
  have hmul := State.exec_of_computing_rule (i := .mul rd rs1 rs2) (r := F32.mul st.vj st.vk) h rfl
  have hdiv := State.exec_of_computing_rule (i := .div rd rs1 rs2) (r := F32.div st.vj st.vk) h rfl
  exact List.forall_mem_cons.2 ⟨hmul, List.forall_mem_singleton.2 hdiv⟩

/-- Settles O41: the three equations of `div`, with the class and the sign of each result read off. -/
theorem divisionByZeroGivesAnInfinity : Obligations.DivisionByZeroGivesAnInfinity := by
  refine fun a b => ⟨fun ha hza hzb => ?_, fun ha hb => ?_, fun ha hb => ?_⟩
  · exact ⟨_, F32.div_eq_inf_of_isZero ha hza hzb, F32.isInf_inf _, F32.sign_inf _⟩
  · exact ⟨_, F32.div_eq_inf_of_isInf ha hb, F32.isInf_inf _, F32.sign_inf _⟩
  · exact ⟨_, F32.div_eq_zero_of_isInf ha hb, F32.isZero_zero _, F32.sign_zero _⟩
end

section
/-! Progress of a tick from the invariant, and the model faults it can record (60_exceptions.md R186, R188); the commits a tick adds
(43_commit.md R135, 70_reset_and_hazards.md R213). -/

namespace Sys2Proof.Machine.State

variable {s t : State}

/-! ## Progress (60_exceptions.md R188) -/

theorem issuePhase_isNext (s : State) : ∃ t, issuePhase s = .next t := by
  cases hi : s.prog[s.pc]? with
  | none => exact ⟨s, issuePhase_of_pastEnd (List.getElem?_eq_none_iff.1 hi)⟩
  | some i => rw [issuePhase_of_getElem? hi]; exact exec_isNext i s

/-- The execute phase is the only one that can stop, and in a consistent state it does not. -/
theorem Consistent.afterWriteResult_isNext (h : s.Consistent) : ∃ t, afterWriteResult s = .next t := by
  cases hf : s.faultRec with
  | some f => exact ⟨s, by simp [afterWriteResult, hf]⟩
  | none =>
    obtain ⟨s2, he, -⟩ := h.executePhase
    obtain ⟨s3, hi⟩ := issuePhase_isNext s2
    exact ⟨_, afterWriteResult_of_phases hf he hi⟩

theorem Inv.step_isNext (h : s.Inv) : ∃ t, Sys2Proof.Machine.step s = .next t := by
  rcases step_cases s with ⟨-, e⟩ | ⟨-, why, i, -, e⟩ | ⟨-, -, -, e⟩
  · exact ⟨s, e⟩
  · exact ⟨_, e⟩
  · obtain ⟨s1, e1, -⟩ := writeResults_isNext s.candidates (s.logEvent (.cycleStart s.currentCycle))
    obtain ⟨t, ht⟩ := (h.afterWriteResults e1).1.afterWriteResult_isNext
    have hwrite : writeResultPhase (s.logEvent (.cycleStart s.currentCycle)) = .next s1 := e1
    exact ⟨t, by rw [e, hwrite, andThen_next, ht]⟩

/-! ## The faults of a tick (60_exceptions.md R186) -/

/-- No fault is recorded, or it is BAD_ADDRESS. -/
def OnlyBadAddress (s : State) : Prop := ∀ f, s.faultRec = some f → f.code = .badAddress

theorem onlyBadAddress_of_noFault (h : s.faultRec = none) : s.OnlyBadAddress := fun f hf => by
  rw [h] at hf; cases hf

/-- In a consistent state a candidate has its slot, not yet written, so it raises no INVARIANT (10_state.md R36). -/
theorem OnlyBadAddress.writeBack (h : s.OnlyBadAddress) (hs : s.Consistent) (op : Opcode) (sid : Nat) :
    (Sys2Proof.Machine.writeBack (ruleOf op) sid s).OnlyBadAddress := by
  rcases writeBack_cases (ruleOf op) sid s with ⟨-, e⟩ | ⟨st, k, i, hst, hbad, -⟩ | ⟨st, k, sl, a, -, -, -, -, e⟩ |
    ⟨st, k, sl, v, taken, s', -, -, -, hrule, e⟩
  · rwa [e]
  · obtain ⟨k', sl', howner, -, -, -, hunwritten⟩ := (hs.soundBut none).owner_of_link (hs.links sid st hst)
    rcases hbad with hnone | ⟨k'', sl'', howner', hwritten⟩
    · rw [howner] at hnone; cases hnone
    · rw [howner] at howner'; cases howner'; exact absurd hwritten hunwritten
  · rw [e]
    intro f hf
    cases hf
    rfl
  · rw [e]
    obtain ⟨-, -, -, hfault, -⟩ := finishWrite_frame sid k sl st.imm v taken s'
    have hsame : s'.faultRec = s.faultRec := by rw [(ruleOf_framed op _ _ _ _ _ hrule).same]
    unfold OnlyBadAddress
    rwa [hfault, hsame]

theorem OnlyBadAddress.writeResults (h : s.OnlyBadAddress) (hs : s.Consistent) {l : List Nat}
    (e : writeResults l s = .next t) : t.OnlyBadAddress := by
  have both : t.Consistent ∧ t.OnlyBadAddress := by
    refine writeResults_keeps (P := fun u => u.Consistent ∧ u.OnlyBadAddress) ?_ ?_ l ⟨hs, h⟩ e
    · exact fun u b hu => ⟨((hu.1.soundBut none).setBus b).consistent, hu.2⟩
    · exact fun op sid u hu _ => ⟨hu.1.writeBack (ruleOf_framed op) sid, hu.2.writeBack hu.1 op sid⟩
  exact both.2

/-- A step adds no fault record but one of BAD_ADDRESS: the write-result phase alone records one. -/
theorem Inv.step_faultRec (h : s.Inv) (e : Sys2Proof.Machine.step s = .next t) : t.faultRec = s.faultRec ∨ t.OnlyBadAddress := by
  rcases step_inversion e with ⟨-, rfl⟩ | ⟨-, -, why, i, -, rfl⟩ | ⟨-, hf, -, -, s1, e1, -, -, hend⟩
  · exact .inl rfl
  · exact .inl rfl
  · rcases hend with ⟨-, rfl⟩ | ⟨hf1, s2, s3, -, f2, -, f3, -, f4, rfl⟩
    · have hlogged : (s.logEvent (.cycleStart s.currentCycle)).Consistent :=
        ((h.consistent.soundBut none).logEvent _).consistent
      exact .inr ((onlyBadAddress_of_noFault hf).writeResults (s := s.logEvent _) hlogged e1)
    · refine .inl ?_
      rw [endTick_faultRec, f4.faultRec, f3.faultRec, f2.faultRec, hf1, hf]

/-! ## The commits of a tick (43_commit.md R135) -/

theorem commitPhase_committedCount (s : State) :
    (commitPhase s).committedCount = s.committedCount ∨ (commitPhase s).committedCount = s.committedCount + 1 := by
  rcases commitPhase_cases s with ⟨e, -⟩ | ⟨sl, -, -, e⟩ <;> rw [e]
  · exact .inl rfl
  · exact .inr rfl

/-- The end of a tick within which the count is still within the cycle number: a complete run takes that number as its total, and a
run that goes on has one more cycle. -/
theorem commitBound_endTick (hpos : 1 ≤ s.currentCycle) (hc : s.complete = false) (hle : s.committedCount ≤ s.currentCycle) :
    s.endTick.CommitBound := by
  rcases endTick_cases s with ⟨-, -, e⟩ | ⟨-, e⟩ <;> rw [e]
  · exact ⟨hpos, nofun, fun _ => hle⟩
  · exact ⟨Nat.le_succ_of_le hpos, fun _ => Nat.succ_le_succ hle, fun h => absurd (hc.symm.trans h) Bool.false_ne_true⟩

end Sys2Proof.Machine.State

open Sys2Proof Sys2Proof.Machine

/-- Settles O50: no phase of a consistent state stops, and a candidate of a consistent state has its unwritten slot. -/
theorem stepNeverStopsNorRaisesInvariant : Obligations.StepNeverStopsNorRaisesInvariant := by
  intro s h
  obtain ⟨t, e⟩ := h.step_isNext
  refine ⟨t, e, fun f hf => ?_⟩
  rcases h.step_faultRec e with hsame | honly
  · exact .inl (hsame ▸ hf)
  · exact .inr (honly f hf)

/-- Settles O53: only the commit phase counts, one at most, and each tick that runs it advances the cycle or ends the run. -/
theorem commitsNeverExceedCycles : Obligations.CommitsNeverExceedCycles := by
  intro s t hbound e
  have ⟨hpos, hrunning, _⟩ := hbound
  rcases State.step_inversion e with ⟨-, rfl⟩ | ⟨hc, -, why, i, -, rfl⟩ | ⟨hc, -, -, -, s1, -, f1, -, hend⟩
  · exact ⟨hbound, .inl rfl⟩
  · exact ⟨⟨hpos, nofun, fun _ => Nat.le_sub_one_of_lt (hrunning hc)⟩, .inl rfl⟩
  · rcases hend with ⟨-, rfl⟩ | ⟨-, s2, s3, -, f2, -, f3, -, f4, rfl⟩
    · refine ⟨⟨?_, fun _ => ?_, fun h => ?_⟩, .inl f1.committedCount⟩
      · rw [f1.currentCycle]; exact hpos
      · rw [f1.committedCount, f1.currentCycle]; exact hrunning hc
      · rw [f1.complete, State.logEvent_complete, hc] at h; cases h
    · have hcount : s3.committedCount = s.committedCount :=
        f3.committedCount.trans (f2.committedCount.trans f1.committedCount)
      have hcycle : (commitPhase s3).currentCycle = s.currentCycle :=
        f4.currentCycle.trans (f3.currentCycle.trans (f2.currentCycle.trans f1.currentCycle))
      have hrun : (commitPhase s3).complete = false :=
        (f4.complete.trans (f3.complete.trans (f2.complete.trans f1.complete))).trans hc
      have hone := State.commitPhase_committedCount s3
      rw [hcount] at hone
      have hle : (commitPhase s3).committedCount ≤ s.currentCycle := by have := hrunning hc; omega
      refine ⟨State.commitBound_endTick (hcycle ▸ hpos) hrun (hcycle ▸ hle), ?_⟩
      rwa [State.endTick_committedCount]
end

section
/-! The write-result of LD, SD and BEQZ, and the two faults that stop a candidate (47_load_store.md R170 to R173, 48_branch.md R175,
42_write_result.md R112 to R125, 60_exceptions.md R185 to R187); with them the effective address and the condition of BEQZ. -/

namespace Sys2Proof.F32

variable {v : Value}

/-! ## Truncation and the test for zero -/

theorem truncInt_natAbs (v : Value) : (truncInt v).natAbs = units v / one149 := by
  unfold truncInt; split <;> simp only [Int.natAbs_neg, Int.natAbs_natCast]

/-- The magnitude of a Value lies between that of its truncation and the next whole number. -/
theorem truncInt_bounds (v : Value) : (truncInt v).natAbs * 2 ^ 149 ≤ (signedUnits v).natAbs ∧
    (signedUnits v).natAbs < ((truncInt v).natAbs + 1) * 2 ^ 149 := by
  rw [truncInt_natAbs, signedUnits_natAbs]
  exact ⟨Nat.div_mul_le_self _ _, Nat.lt_mul_of_div_lt (Nat.lt_succ_self _) (Nat.two_pow_pos 149)⟩

theorem truncInt_nonneg (h : 0 ≤ signedUnits v) : 0 ≤ truncInt v := by
  rw [truncInt_eq_tdiv]
  exact Int.tdiv_nonneg h (by decide)

theorem truncInt_nonpos (h : signedUnits v ≤ 0) : truncInt v ≤ 0 := by
  rw [truncInt_eq_tdiv, ← Int.neg_nonneg, ← Int.neg_tdiv]
  exact Int.tdiv_nonneg (Int.neg_nonneg.2 h) (by decide)

theorem isFinite_eq_false_iff : isFinite v = false ↔ isNaN v = true ∨ isInf v = true := by
  simp only [isFinite, isNaN, isInf, Bool.and_eq_true, decide_eq_true_eq, decide_eq_false_iff_not]
  tauto

theorem isZero_iff_bits : isZero v = true ↔ v = 0x00000000#32 ∨ v = 0x80000000#32 := by
  constructor
  · intro h
    obtain ⟨m, hm, e⟩ := class_of v
    rw [e, isZero_pack hm] at h
    rw [h] at e
    cases hs : sign v with
    | false => exact .inl (by rw [hs] at e; exact e)
    | true => exact .inr (by rw [hs] at e; exact e)
  · rintro (rfl | rfl) <;> decide

/-- The IEEE comparison with +0.0 is the test for a zero: it is false for a NaN, and nothing but a zero equals a zero. -/
theorem equalsZero_eq_isZero (v : Value) : equalsZero v = isZero v := by
  cases hz : isZero v with
  | true =>
    have hposZero : isNaN posZero = false ∧ isZero posZero = true := by decide
    simp [equalsZero, eq, notNaN_of_finite (isFinite_of_isZero hz), hz, hposZero]
  | false =>
    have hne : v ≠ posZero := by rintro rfl; cases hz
    simp [equalsZero, eq, hz, hne]

end Sys2Proof.F32

namespace Sys2Proof.Machine

/-! ## The effective address (47_load_store.md R170) -/

section

variable {memSize : Nat} {v : Value} {imm : Int}

theorem effAddr_of_notFinite (h : F32.isFinite v = false) : effAddr memSize v imm = .bad none := by
  simp [effAddr, h]

theorem effAddr_of_outOfRange (h : F32.isFinite v = true)
    (hout : F32.truncInt v + imm < 0 ∨ (memSize : Int) ≤ F32.truncInt v + imm) :
    effAddr memSize v imm = .bad (some (F32.truncInt v + imm)) := by
  simp [effAddr, h, hout]

theorem effAddr_of_inRange (h : F32.isFinite v = true) (h0 : 0 ≤ F32.truncInt v + imm)
    (hlt : F32.truncInt v + imm < memSize) : effAddr memSize v imm = .ok (F32.truncInt v + imm).toNat := by
  simp [effAddr, h, h0.not_gt, hlt.not_ge]

end

namespace State

variable {s s' : State} {sid k : Nat} {st : Station} {sl : Slot} {i : Instr} {v : Value}

/-! ## The opcode rules of LD, SD and BEQZ (47_load_store.md R171, R172, 48_branch.md R175) -/

theorem ruleLd_of_ok {a : Nat} (h : effAddr s.cfg.memSize st.vj st.imm = .ok a) :
    ruleLd st s = .done (s.mem.read a) false s := by
  simp [ruleLd, h]

theorem ruleSd_of_ok {a : Nat} (h : effAddr s.cfg.memSize st.vj st.imm = .ok a) :
    ruleSd st s = .done st.vk false (s.storeValue a st.vk) := by
  simp [ruleSd, h]

theorem ruleLd_of_bad {addr : Option Int} (h : effAddr s.cfg.memSize st.vj st.imm = .bad addr) :
    ruleLd st s = .badAddress addr := by
  simp [ruleLd, h]

theorem ruleSd_of_bad {addr : Option Int} (h : effAddr s.cfg.memSize st.vj st.imm = .bad addr) :
    ruleSd st s = .badAddress addr := by
  simp [ruleSd, h]

theorem ruleBeqz_of_notZero (h : F32.equalsZero st.vj = false) : ruleBeqz st s = .done F32.posZero false s := by
  simp [ruleBeqz, h]

theorem ruleBeqz_of_zero (h : F32.equalsZero st.vj = true) : ruleBeqz st s = .done F32.posOne true s := by
  simp [ruleBeqz, h]

/-! ## A write-result without a flush -/

/-- A rule that takes no branch: its value is recorded, and the memory and the draws are the ones it left. -/
theorem exec_of_untaken_rule (h : s.OnBus sid st k sl) (hr : ruleOf i.opcode st s = .done v false s') :
    ∃ t, exec i s = .next t ∧ s.Recorded t sid st k sl v ∧ t.mem = s'.mem ∧ t.draws = s'.draws := by
  obtain ⟨hrecorded, hmem, hdraws⟩ := recorded_of_rule h v (ruleOf_framed _ _ _ _ _ _ hr) st.imm
  exact ⟨_, exec_of_rule h i hr, hrecorded, hmem, hdraws⟩

/-! ## A taken branch (42_write_result.md R118 to R125) -/

/-- All that cancelling a list of victims changes. -/
theorem cancelAll_rest (k : Nat) (l : List (Nat × Slot)) (s : State) :
    l.foldl (fun t js => t.cancel k js) s = { s with
      rs := (l.foldl (fun t js => t.cancel k js) s).rs
      rob := (l.foldl (fun t js => t.cancel k js) s).rob
      status := (l.foldl (fun t js => t.cancel k js) s).status
      freeList := (l.foldl (fun t js => t.cancel k js) s).freeList
      renameMap := (l.foldl (fun t js => t.cancel k js) s).renameMap
      log := (l.foldl (fun t js => t.cancel k js) s).log } := by
  induction l generalizing s with
  | nil => rfl
  | cons js l ih => rw [List.foldl_cons]; exact ih (s.cancel k js)

section

variable (s : State) (k c : Nat) (imm : Int)

theorem flushAndRedirect_slotAt (j : Nat) : (s.flushAndRedirect k c imm).slotAt j =
    if j ∈ (s.victims k c).map Prod.fst then none else s.slotAt j :=
  cancelAll_slotAt k (s.victims k c) (victims_nodup k c) (fun _ h => (mem_victims.1 h).1) j

theorem flushAndRedirect_stationAt (j : Nat) : (s.flushAndRedirect k c imm).stationAt j =
    (s.stationAt j).filter (fun w => !((s.victims k c).map (fun x => x.2.renamedReg)).contains w.dest) :=
  (cancelAll_stationAt k (s.victims k c) s j).trans (by simp)

theorem flushAndRedirect_names :
    (s.flushAndRedirect k c imm).rs.map StationEntry.name = s.rs.map StationEntry.name ∧
      (s.flushAndRedirect k c imm).rob.length = s.rob.length :=
  ⟨(cancelAll_names k (s.victims k c) s).1, (cancelAll_names k (s.victims k c) s).2.1⟩

/-- All that a flush with its redirect changes. -/
theorem flushAndRedirect_rest : s.flushAndRedirect k c imm = { s with
    rs := (s.flushAndRedirect k c imm).rs
    rob := (s.flushAndRedirect k c imm).rob
    status := (s.flushAndRedirect k c imm).status
    freeList := (s.flushAndRedirect k c imm).freeList
    renameMap := (s.flushAndRedirect k c imm).renameMap
    log := (s.flushAndRedirect k c imm).log
    tail := (k + 1) % s.cfg.nrob
    pc := (imm - 1).toNat } :=
  congrArg (fun u : State => { u with tail := (k + 1) % s.cfg.nrob, pc := (imm - 1).toNat }) (cancelAll_rest k (s.victims k c) s)

end

/-- The state in which the result `v` of slot `k` is recorded and broadcast (42_write_result.md R114 to R116). -/
abbrev published (s : State) (k : Nat) (sl : Slot) (v : Value) : State := (s.recordResult k sl v).broadcast sl.renamedReg v

theorem published_rsLength (s : State) (k : Nat) (sl : Slot) (v : Value) : (s.published k sl v).rs.length = s.rs.length := by
  simp

theorem clearStation_stationAt (hs : sid < s.rs.length) (j : Nat) :
    (s.clearStation sid).stationAt j = if j = sid then none else s.stationAt j :=
  stationAt_of_setBody rfl hs j

/-- A taken branch leaves the stations that the same write-result without the branch leaves, less those of the victims. -/
theorem finishWrite_taken_stationAt (hs : sid < s.rs.length) (k : Nat) (sl : Slot) (imm : Int) (v : Value) (j : Nat) :
    (s.finishWrite sid k sl imm v true).stationAt j = ((s.finishWrite sid k sl imm v false).stationAt j).filter
      (fun w => !(((s.published k sl v).victims k sl.issueCycle).map (fun x => x.2.renamedReg)).contains w.dest) := by
  have hpublished : sid < (s.published k sl v).rs.length := by rwa [published_rsLength]
  have hflushed : sid < ((s.published k sl v).flushAndRedirect k sl.issueCycle imm).rs.length := by
    rwa [flushAndRedirect_rsLength]
  have htaken : (s.finishWrite sid k sl imm v true).stationAt j = _ := clearStation_stationAt hflushed j
  have huntaken : (s.finishWrite sid k sl imm v false).stationAt j = _ := clearStation_stationAt hpublished j
  rw [htaken, huntaken, flushAndRedirect_stationAt]
  split <;> rfl

theorem finishWrite_taken_names (sid k : Nat) (sl : Slot) (imm : Int) (v : Value) (s : State) :
    (s.finishWrite sid k sl imm v true).rs.map StationEntry.name = s.rs.map StationEntry.name ∧
      (s.finishWrite sid k sl imm v true).rob.length = s.rob.length := by
  obtain ⟨hnames, hrob⟩ := flushAndRedirect_names (s.published k sl v) k sl.issueCycle imm
  constructor
  · refine (setBody_names _ sid none).trans (hnames.trans ?_)
    simp [Function.comp_def]
  · refine hrob.trans ?_
    simp

/-! ## INVARIANT (60_exceptions.md R186) -/

theorem writeBack_of_unowned (rule : OpcodeRule) (hst : s.stationAt sid = some st) (ho : s.owner st.dest = none) :
    writeBack rule sid s = s.raiseFault .invariantBroken none none none := by
  simp [writeBack, hst, ho]

theorem writeBack_of_written (rule : OpcodeRule) (hst : s.stationAt sid = some st) (ho : s.owner st.dest = some (k, sl))
    (hw : sl.writeCycle = s.currentCycle) :
    writeBack rule sid s = s.raiseFault .invariantBroken (some k) (some sl.instr) none := by
  simp [writeBack, hst, ho, hw]

end State

end Sys2Proof.Machine

open Sys2Proof Sys2Proof.Machine

/-- Settles O29: the rule of LD reads the memory at its effective address and leaves the state. -/
theorem resultOfLoad : Obligations.ResultOfLoad := by
  intro s sid k a st sl rd rs1 h ha
  obtain ⟨t, e, hrecorded, hmem, hdraws⟩ := State.exec_of_untaken_rule (i := .ld rd rs1 st.imm) h (State.ruleLd_of_ok ha)
  exact ⟨t, e, hrecorded, hdraws, hmem, fun b => by rw [hmem]⟩

/-- Settles O30: the rule of SD makes its one write, and a canonical memory reads back as written. -/
theorem resultOfStore : Obligations.ResultOfStore := by
  intro s sid k a st sl rs1 rs2 h hwf ha
  obtain ⟨t, e, hrecorded, hmem, hdraws⟩ := State.exec_of_untaken_rule (i := .sd rs1 rs2 st.imm) h (State.ruleSd_of_ok ha)
  have hread (b : Nat) : t.mem.read b = if b = a then st.vk else s.mem.read b := by
    rw [hmem]; exact Memory.read_write hwf a st.vk b
  exact ⟨t, e, hrecorded, hdraws, by rw [hread, if_pos rfl], fun b hb => by rw [hread, if_neg hb]⟩

/-- Settles O31: the rule of BEQZ answers 0.0 and no branch. -/
theorem branchNotTaken : Obligations.BranchNotTaken := by
  intro s sid k st sl rs1 h hz
  obtain ⟨t, e, hrecorded, hmem, hdraws⟩ :=
    State.exec_of_untaken_rule (i := .beqz rs1 st.imm) h (State.ruleBeqz_of_notZero hz)
  exact ⟨t, e, hrecorded, hdraws, hmem, fun a => by rw [hmem]⟩

/-- Settles O33: both rules answer the faulting address, and a faulting rule has done nothing else. -/
theorem badAddressIsRecordedAndNothingElse : Obligations.BadAddressIsRecordedAndNothingElse := by
  intro s sid k st sl r1 r2 addr h hbad
  have hld := State.exec_of_badAddress h (.ld r1 r2 st.imm) (State.ruleLd_of_bad hbad)
  have hsd := State.exec_of_badAddress h (.sd r1 r2 st.imm) (State.ruleSd_of_bad hbad)
  exact List.forall_mem_cons.2 ⟨hld, List.forall_mem_singleton.2 hsd⟩

/-- Settles O34: the owner is looked up and its write cycle tested before the opcode rule is asked. -/
theorem invariantFaultIsRecordedAndNothingElse : Obligations.InvariantFaultIsRecordedAndNothingElse := by
  intro s sid st i hbus hst
  rw [State.exec_write i hbus]
  refine ⟨fun hnone => ?_, fun k sl hk hn honly hw => ?_⟩
  · rw [State.writeBack_of_unowned _ hst (State.owner_none.2 hnone)]
    rfl
  · rw [State.writeBack_of_written _ hst (State.owner_of_only hk hn honly) hw]
    rfl

/-- Settles O37: the three branches of the address, and the truncation as a quotient toward zero. -/
theorem effectiveAddressOrFault : Obligations.EffectiveAddressOrFault := by
  intro memSize v imm
  refine ⟨fun h => effAddr_of_notFinite (F32.isFinite_eq_false_iff.2 h), fun h => ?_⟩
  obtain ⟨hle, hlt⟩ := F32.truncInt_bounds v
  exact ⟨effAddr_of_outOfRange h, effAddr_of_inRange h, hle, hlt,
    fun hpos => not_le.1 (mt F32.truncInt_nonpos hpos.not_ge), fun hneg => not_le.1 (mt F32.truncInt_nonneg hneg.not_ge)⟩

/-- Settles O43: the comparison is the test for a zero, and two bit patterns are zeros. -/
theorem branchConditionHoldsForZerosOnly : Obligations.BranchConditionHoldsForZerosOnly := by
  intro v
  rw [F32.equalsZero_eq_isZero]
  exact F32.isZero_iff_bits

/-- Settles O32: the result is recorded and the station cleared as for a branch not taken, whose next state is `r`; the flush in
between cancels the victims, whose slots the recording does not touch. -/
theorem branchTakenFlushesAndRedirects : Obligations.BranchTakenFlushesAndRedirects := by
  intro s sid k st sl rs1 h hz _
  have e := State.exec_of_rule h (.beqz rs1 st.imm) (State.ruleBeqz_of_zero hz)
  obtain ⟨hrecorded, -, -⟩ := State.recorded_of_rule (s' := s) h F32.posOne ⟨rfl⟩ st.imm
  obtain ⟨hnames, hrob⟩ := State.finishWrite_taken_names sid k sl st.imm F32.posOne s
  obtain ⟨-, hmem, -⟩ := State.finishWrite_frame sid k sl st.imm F32.posOne true s
  have hstatus := State.cancelAll_status k ((s.published k sl F32.posOne).victims k sl.issueCycle) (s.published k sl F32.posOne)
  have hlength : (s.published k sl F32.posOne).status.length = s.status.length := by simp
  rw [hlength] at hstatus
  exact ⟨_, _, (s.published k sl F32.posOne).victims k sl.issueCycle, hrecorded, e,
    fun j x => State.mem_victims_published _ h.slot, State.victims_nodup _ _, State.victims_sorted _ _,
    State.flushAndRedirect_slotAt _ k sl.issueCycle st.imm, State.finishWrite_taken_stationAt (State.stationAt_lt h.busy) k sl _ _,
    hstatus, State.cancelAll_freeList _ _ _, State.cancelAll_renameMap _ _ _, State.cancelAll_log _ _ _, hnames, hrob,
    fun a => by rw [hmem],
    congrArg (fun u => u.clearStation sid) (State.flushAndRedirect_rest (s.published k sl F32.posOne) k sl.issueCycle st.imm)⟩
end

section
/-! Reset, power-on and the first tick after a load (70_reset_and_hazards.md R200 to R203), and a tick in which no result is due
(44_cycle_engine.md R145 to R148). -/

namespace Sys2Proof.Machine

namespace State

variable {s s2 s3 : State}

/-! ## A tick in which no result is due -/

/-- No position is stuck while none was re-issued more often than the cap allows (44_cycle_engine.md R144). -/
theorem stuckPosition_eq_none (h : ∀ n ∈ s.reissue, n ≤ s.cfg.stuckCap) : s.stuckPosition = none := by
  refine List.find?_eq_none.2 fun i _ hi => ?_
  obtain ⟨-, n, hn, hcap⟩ := isStuck_iff.1 hi
  exact (h n (List.mem_of_getElem? hn)).not_gt hcap

theorem setBus_none_of_busFree (h : s.onBus = none) : s.setBus none = s := by
  rw [setBus, ← h]

theorem writeResultPhase_of_noCandidates (hb : s.onBus = none) (hc : s.candidates = []) : writeResultPhase s = .next s := by
  rw [writeResultPhase, hc, writeResults, setBus_none_of_busFree hb]

theorem executePhase_of_free (h : ∀ sid, s.stationAt sid = none) : executePhase s = .next s :=
  executeStations_free s h _

/-- A running tick whose write-result phase has no candidate. -/
theorem step_of_noCandidates (hs : s.stopped = false) (hcap : s.currentCycle ≤ s.cfg.cycleCap)
    (hstuck : s.stuckPosition = none) (hb : s.onBus = none) (hc : s.candidates = [])
    (he : executePhase (s.logEvent (.cycleStart s.currentCycle)) = .next s2) (hi : issuePhase s2 = .next s3) :
    step s = .next (commitPhase s3).endTick := by
  obtain ⟨hcomplete, hfault⟩ := stopped_eq_false_iff.1 hs
  have hwrite := writeResultPhase_of_noCandidates (s := s.logEvent (.cycleStart s.currentCycle)) hb hc
  exact (tickRunsThePhasesInOrder s _ hcomplete hfault hcap hstuck hwrite).2 s2 s3 hfault he hi

/-- A running tick of an engine with no busy station: only issue and commit are left to do. -/
theorem step_of_freeStations (hs : s.stopped = false) (hcap : s.currentCycle ≤ s.cfg.cycleCap)
    (hstuck : s.stuckPosition = none) (hb : s.onBus = none) (hfree : ∀ sid, s.stationAt sid = none)
    (hi : issuePhase (s.logEvent (.cycleStart s.currentCycle)) = .next s3) : step s = .next (commitPhase s3).endTick :=
  step_of_noCandidates hs hcap hstuck hb (candidates_free s hfree) (executePhase_of_free hfree) hi

end State

/-! ## The reset state (70_reset_and_hazards.md R200, R201) -/

theorem Config.one_le_cycleCap {c : Config} (h : c.wf = true) : 1 ≤ c.cycleCap := by
  simp only [Config.wf, Bool.and_eq_true, decide_eq_true_eq] at h
  omega

/-- After a reset a tick issues the first instruction, if there is one, commits and ends. -/
theorem step_resetWith {c : Config} {prog : List Instr} {p : List Value} {draws : Nat} {t : State} (hc : c.wf = true)
    (hi : issuePhase ((State.resetWith c prog p draws).logEvent (.cycleStart 1)) = .next t) :
    step (State.resetWith c prog p draws) = .next (commitPhase t).endTick := by
  refine State.step_of_freeStations rfl (Config.one_le_cycleCap hc) (State.stuckPosition_eq_none fun n hn => ?_) rfl
    (resetWith_stationAt c prog p draws) hi
  rw [List.eq_of_mem_replicate hn]
  exact Nat.zero_le _

theorem decodeAll_cons {narch k : Nat} {w : InstrWord} {words : List InstrWord} {i : Instr} {prog : List Instr}
    (hi : decode narch w = .ok i) (h : decodeAll narch k (w :: words) = .ok prog) : prog[0]? = some i := by
  rw [decodeAll, hi] at h
  dsimp only at h
  split at h
  · cases h
  · cases h; rfl

end Sys2Proof.Machine

open Sys2Proof Sys2Proof.Machine

/-- Settles O5: the reset state field by field; a register and a cell hold the conversion of their own number. -/
theorem resetCommandGivesTheTable : Obligations.ResetCommandGivesTheTable := by
  intro s hs
  have hx (r : Nat) (hr : r < s.cfg.narch) : (hostReset s).x[r]? = some (F32.ofInt r) := by
    rw [F32.ofInt_natCast]
    exact (List.getElem?_map ..).trans (by rw [List.getElem?_range hr, Option.map_some])
  exact ⟨rfl, rfl, rfl, rfl, by simp [hostReset, resetFor, State.resetWith], hx,
    by simp [hostReset, resetFor, State.resetWith, drawnPhys], rfl, rfl, hs.stationNames.symm, freeStations_cls s.cfg,
    rfl, rfl, rfl, fun a _ => (F32.ofInt_natCast a).symm, rfl, rfl, rfl, rfl, rfl, rfl, rfl, rfl, rfl⟩

/-- Settles O6: with an empty program there is nothing to issue, and the empty ROB ends the run in the same tick. -/
theorem powerOnStepCompletes : Obligations.PowerOnStepCompletes := by
  refine ⟨rfl, rfl, fun c p draws hc => ?_⟩
  have hslots (k : Nat) : ((State.resetWith c [] p draws).logEvent (.cycleStart 1)).slotAt k = none :=
    resetWith_slotAt c [] p draws k
  rw [step_resetWith hc (State.issuePhase_of_pastEnd (Nat.zero_le _)), State.commitPhase_of_free (hslots _),
    State.endTick_of_ended (Nat.zero_le _) hslots]
  rfl

/-- Settles O16: the program begins with the decoded word 0, and the tick after the reset issues it. -/
theorem firstStepAfterLoadRunsWordZero : Obligations.FirstStepAfterLoadRunsWordZero := by
  intro s t w words i hc hload hi
  obtain ⟨-, prog, hprog, rfl⟩ := hostLoad_ok hload
  obtain ⟨u, hu⟩ := State.exec_isNext i ((resetFor s prog).logEvent (.cycleStart 1))
  exact ⟨u, hu, step_resetWith hc ((State.issuePhase_of_getElem? (decodeAll_cons hi hprog)).trans hu)⟩

/-- Settles O47: power-on is a reset state of a legal configuration and the empty program. -/
theorem resetMeetsTheInvariants : Obligations.ResetMeetsTheInvariants :=
  resetWith_inv (by decide) (Nat.zero_le _) nofun List.length_replicate
end

section
/-! A register writer alone in the engine (70_reset_and_hazards.md R210): its issue, the ticks that count its latency down, and the
tick that writes its result back, commits it and ends the run. -/

namespace Sys2Proof.Machine

/-! ## Runs that go on to their last step -/

/-- `k` steps lead from `s` to `t`, and the run is not complete before the last of them. -/
def RunsTo (s : State) (k : Nat) (t : State) : Prop :=
  runSteps k s = .next t ∧ ∀ m, m < k → ∃ u, runSteps m s = .next u ∧ u.complete = false

theorem RunsTo.refl (t : State) : RunsTo t 0 t := ⟨rfl, nofun⟩

theorem runSteps_succ_of_step {s u : State} (hs : s.stopped = false) (e : step s = .next u) (k : Nat) :
    runSteps (k + 1) s = runSteps k u := by
  simp [runSteps, hs, e]

theorem RunsTo.cons {s u t : State} {k : Nat} (h : RunsTo u k t) (hs : s.stopped = false) (e : step s = .next u) :
    RunsTo s (k + 1) t := by
  obtain ⟨hrun, hbefore⟩ := h
  refine ⟨(runSteps_succ_of_step hs e k).trans hrun, fun m hm => ?_⟩
  cases m with
  | zero => exact ⟨s, rfl, (State.stopped_eq_false_iff.1 hs).1⟩
  | succ m => rw [runSteps_succ_of_step hs e]; exact hbefore m (Nat.lt_of_succ_lt_succ hm)

namespace State

variable {s t u w : State} {i : Instr} {sid n rem : Nat} {rd : RegNum} {v : Value}

/-! ## An engine with no busy slot -/

theorem Consistent.stationAt_of_noSlots (h : s.Consistent) (hslots : ∀ k, s.slotAt k = none) (j : Nat) :
    s.stationAt j = none := by
  refine Option.eq_none_iff_forall_ne_some.2 fun st hst => ?_
  obtain ⟨k, sl, hk, -⟩ := h.links j st hst
  rw [hslots] at hk
  cases hk

/-- The ring has no slot between head and tail, so they are one (10_state.md R31). -/
theorem Ring.head_eq_tail (h : s.Ring) (hs : s.Shape) (hslots : ∀ k, s.slotAt k = none) : s.head = s.tail := by
  obtain ⟨m, -, htail, hbusy, -⟩ := h
  have hm : m = 0 := by
    by_contra hm
    have := (hbusy 0 (Config.nrob_pos hs.cfgWf)).2 (Nat.pos_of_ne_zero hm)
    rw [ringSlot, hslots] at this
    cases this
  rw [htail, hm, Nat.add_zero, Nat.mod_eq_of_lt hs.headLt]

/-- Every class has a station (00_scope.md R6). -/
theorem exists_mem_freeStations {c : Config} (hc : c.wf = true) (cls : OpClass) :
    ∃ name ∈ (freeStations c).map StationEntry.name, name.cls = cls := by
  simp only [Config.wf, Bool.and_eq_true, decide_eq_true_eq] at hc
  refine ⟨⟨cls, 0⟩, ?_, rfl⟩
  cases cls <;> simp [freeStations, poolEntries] <;> omega

theorem Shape.freeStation_of_free (h : s.Shape) (hfree : ∀ j, s.stationAt j = none) (cls : OpClass) :
    ∃ sid, s.freeStation cls = some sid := by
  refine Option.ne_none_iff_exists'.1 fun hnone => ?_
  obtain ⟨name, hname, hcls⟩ := exists_mem_freeStations h.cfgWf cls
  rw [← h.stationNames] at hname
  obtain ⟨e, he, rfl⟩ := List.mem_map.1 hname
  obtain ⟨j, hj, rfl⟩ := List.getElem_of_mem he
  exact (freeStationFrom_none s.rs 0).1 hnone _ he hcls ((stationAt_getElem hj).1.symm.trans (hfree j))

/-- Every name is free, and there is one (10_state.md R36, 00_scope.md R6). -/
theorem Consistent.freeList_of_noSlots (h : s.Consistent) (hslots : ∀ k, s.slotAt k = none) :
    ∃ n rest, s.freeList = n :: rest := by
  refine List.exists_cons_of_ne_nil fun hnil => ?_
  have howned : s.ownedNames = [] := List.eq_nil_iff_forall_not_mem.2 fun m hm => by
    obtain ⟨k, sl, hk, -⟩ := mem_ownedNames.1 hm
    rw [hslots] at hk
    cases hk
  have hlength := h.namesOnce.length_eq
  have hc := h.shape.cfgWf
  simp only [Config.wf, Bool.and_eq_true, decide_eq_true_eq] at hc
  rw [hnil, howned, List.length_range] at hlength
  simp at hlength
  omega

theorem operand_of_noSlots (hslots : ∀ k, s.slotAt k = none) (src : Option Nat) :
    s.operand src = { v := (src.map s.readX).getD F32.posZero, q := none } := by
  cases src with
  | none => rfl
  | some r =>
    refine resolve_of_noWriter (youngestWriter_none r s.rob fun sl hsl => ?_)
    obtain ⟨k, hk⟩ := List.getElem?_of_mem hsl
    have := slotAt_some.2 hk
    rw [hslots] at this
    cases this

theorem issueInstr_of_room {rest : List Nat} (ht : s.slotAt s.tail = none) (hs : s.freeStation i.cls = some sid)
    (hn : s.freeList = n :: rest) : issueInstr i s = s.issued i sid n rest := by
  unfold issueInstr
  rw [ht, hs, hn]

/-- An issue adds at most one to a re-issue counter (40_rename_issue.md R93). -/
theorem reissued_le {c : Nat} (h : ∀ m ∈ s.reissue, m < c) {m : Nat} (hm : m ∈ s.reissued) : m ≤ c := by
  unfold reissued at hm
  split at hm
  · obtain ⟨j, hj⟩ := List.getElem?_of_mem hm
    rw [List.getElem?_modify] at hj
    obtain ⟨m', hm', rfl⟩ := Option.map_eq_some_iff.1 hj
    have := h m' (List.mem_of_getElem? hm')
    split <;> omega
  · exact (h m hm).le

/-! ## The instruction in flight -/

/-- `i` is the last instruction of its program and about to be issued into an empty running engine, with cycles and re-issues to
spare. -/
structure AboutToIssue (s : State) (i : Instr) : Prop where
  inv : s.Inv
  ring : s.Ring
  running : s.stopped = false
  noSlots : ∀ k, s.slotAt k = none
  isLast : s.pc + 1 = s.prog.length
  atPc : s.prog[s.pc]? = some i
  reissueLt : ∀ m ∈ s.reissue, m < s.cfg.stuckCap
  withinCap : s.currentCycle + s.cfg.lat i.opcode + 1 ≤ s.cfg.cycleCap

/-- What the run of a lone instruction from `s` keeps until its result commits; the pc stands past the instruction. -/
structure KeptFrom (s u : State) : Prop where
  running : u.stopped = false
  pc : u.pc = s.pc + 1
  cfg : u.cfg = s.cfg
  prog : u.prog = s.prog
  head : u.head = s.head
  x : u.x = s.x
  mem : u.mem = s.mem
  bubbleCount : u.bubbleCount = s.bubbleCount
  committedCount : u.committedCount = s.committedCount
  timedOut : u.timedOut = s.timedOut

/-- Between two ticks of the run from `s`: `i`, issued from `s` into station `sid` under the name `n`, is alone in the engine with
`rem` cycles left. -/
structure InFlight (s : State) (i : Instr) (sid n rem : Nat) (u : State) : Prop extends KeptFrom s u where
  inv : u.Inv
  station : u.stationAt sid = some { s.issuedStation i n with cyclesRemaining := rem }
  otherStations : ∀ j, j ≠ sid → u.stationAt j = none
  slot : ∃ state c, u.slotAt s.tail = some { s.issuedSlot i n with state := state, execCycle := c }
  otherSlots : ∀ j, j ≠ s.tail → u.slotAt j = none
  reissueLe : ∀ m ∈ u.reissue, m ≤ s.cfg.stuckCap
  cycle : u.currentCycle + rem = s.currentCycle + s.cfg.lat i.opcode + 1
  execDone : rem = 0 → Event.execDone (s.currentCycle + s.cfg.lat i.opcode) s.tail ∈ u.log

/-- The state after a tick whose issue took station `sid` and the name `n`, and in which nothing else happened. -/
def afterIssue (s : State) (i : Instr) (sid n : Nat) (rest : List Nat) : State :=
  { (s.logEvent (.cycleStart s.currentCycle)).issued i sid n rest with currentCycle := s.currentCycle + 1 }

section

variable {rest : List Nat}

theorem Shape.afterIssue_slotAt (h : s.Shape) (k : Nat) :
    (s.afterIssue i sid n rest).slotAt k = if k = s.tail then some (s.issuedSlot i n) else s.slotAt k :=
  slotAt_of_rob_set rfl (h.robLen ▸ h.tailLt) k

theorem afterIssue_stationAt (hs : sid < s.rs.length) (j : Nat) :
    (s.afterIssue i sid n rest).stationAt j = if j = sid then some (s.issuedStation i n) else s.stationAt j :=
  stationAt_of_setBody rfl hs j

/-- The tick that issues the instruction: the new slot is the head and not ready, so nothing commits and the run goes on. -/
theorem AboutToIssue.step_eq (h : s.AboutToIssue i) (hsid : s.freeStation i.cls = some sid) (hn : s.freeList = n :: rest) :
    step s = .next (s.afterIssue i sid n rest) := by
  have hshape := h.inv.consistent.shape
  have htail : ((s.logEvent (.cycleStart s.currentCycle)).issued i sid n rest).slotAt s.tail = some (s.issuedSlot i n) :=
    (hshape.afterIssue_slotAt (sid := sid) (rest := rest) s.tail).trans (if_pos rfl)
  have hissue : issuePhase (s.logEvent (.cycleStart s.currentCycle)) =
      .next ((s.logEvent (.cycleStart s.currentCycle)).issued i sid n rest) := by
    rw [issuePhase_of_getElem? (s := s.logEvent _) h.atPc, exec_issue (s := s.logEvent _) i h.inv.busFree,
      issueInstr_of_room (s := s.logEvent _) (h.noSlots _) hsid hn]
  have hhead : ((s.logEvent (.cycleStart s.currentCycle)).issued i sid n rest).head = s.tail :=
    h.ring.head_eq_tail hshape h.noSlots
  have hcap : s.currentCycle ≤ s.cfg.cycleCap := by have := h.withinCap; omega
  rw [step_of_freeStations h.running hcap (stuckPosition_eq_none fun m hm => (h.reissueLt m hm).le) h.inv.busFree
    (h.inv.consistent.stationAt_of_noSlots h.noSlots) hissue, commitPhase_of_unready (hhead ▸ htail) rfl,
    endTick_of_notEnded fun hended => by rw [hended.2] at htail; cases htail]
  rfl

theorem AboutToIssue.exists_inFlight (h : s.AboutToIssue i) :
    ∃ sid n u, step s = .next u ∧ s.InFlight i sid n (s.cfg.lat i.opcode) u := by
  have hshape := h.inv.consistent.shape
  have hfree := h.inv.consistent.stationAt_of_noSlots h.noSlots
  obtain ⟨sid, hsid⟩ := hshape.freeStation_of_free hfree i.cls
  obtain ⟨n, rest, hn⟩ := h.inv.consistent.freeList_of_noSlots h.noSlots
  have hlt : sid < s.rs.length := (freeStation_some hsid).1
  have e := h.step_eq hsid hn
  have hkept : s.KeptFrom (s.afterIssue i sid n rest) := ⟨h.running, rfl, rfl, rfl, rfl, rfl, rfl, rfl, rfl, rfl⟩
  refine ⟨sid, n, _, e, hkept, h.inv.step e, (afterIssue_stationAt hlt sid).trans (if_pos rfl), fun j hj => ?_,
    ⟨_, _, (hshape.afterIssue_slotAt s.tail).trans (if_pos rfl)⟩, fun j hj => ?_, fun m hm => reissued_le h.reissueLt hm, ?_,
    fun h0 => ?_⟩
  · rw [afterIssue_stationAt hlt, if_neg hj, hfree]
  · rw [hshape.afterIssue_slotAt, if_neg hj, h.noSlots]
  · exact Nat.add_right_comm _ 1 _
  · exact absurd h0 (Nat.pos_iff_ne_zero.1 (Config.lat_pos hshape.cfgWf i.opcode))

end

/-! ## The latency is counted down (41_execute.md R102, R103) -/

theorem KeptFrom.pastEnd (hu : s.KeptFrom u) (h : s.AboutToIssue i) : u.prog.length ≤ u.pc := by
  rw [hu.pc, hu.prog, h.isLast]

theorem KeptFrom.head_eq_tail (hu : s.KeptFrom u) (h : s.AboutToIssue i) : u.head = s.tail :=
  hu.head.trans (h.ring.head_eq_tail h.inv.consistent.shape h.noSlots)

theorem AboutToIssue.operands_ready (h : s.AboutToIssue i) (n : Nat) :
    (s.issuedStation i n).qj = none ∧ (s.issuedStation i n).qk = none := by
  simp [issuedStation, operand_of_noSlots h.noSlots]

theorem InFlight.withinCap (hu : s.InFlight i sid n rem u) (h : s.AboutToIssue i) : u.currentCycle ≤ u.cfg.cycleCap := by
  have := h.withinCap
  have := hu.cycle
  rw [hu.cfg]
  omega

theorem InFlight.notStuck (hu : s.InFlight i sid n rem u) : u.stuckPosition = none :=
  stuckPosition_eq_none fun m hm => hu.cfg ▸ hu.reissueLe m hm

theorem InFlight.candidates_eq_nil (hu : s.InFlight i sid n (rem + 1) u) : u.candidates = [] := by
  refine List.eq_nil_iff_forall_not_mem.2 fun j hj => ?_
  obtain ⟨st, hst, h0⟩ := mem_candidates.1 hj
  by_cases hjs : j = sid
  · subst hjs; rw [hu.station] at hst; cases hst; cases h0
  · rw [hu.otherStations j hjs] at hst; cases hst

theorem InFlight.not_waitingAt (hu : s.InFlight i sid n rem u) (h : s.AboutToIssue i) (j : Nat) : u.waitingAt j = false := by
  unfold waitingAt
  by_cases hjs : j = sid
  · subst hjs; rw [hu.station]; simp [h.operands_ready n]
  · rw [hu.otherStations j hjs]; rfl

theorem visited_of_ready {sl : Slot} {st : Station} (hj : st.qj = none) (hk : st.qk = none) (h0 : 0 < st.cyclesRemaining)
    (c : Nat) : ∃ state c', sl.visited st c = { sl with state := state, execCycle := c' } := by
  unfold Slot.visited
  rw [if_pos ⟨hj, hk, h0⟩]
  exact ⟨_, _, rfl⟩

/-- The visits of an execute phase leave the instruction's slot with its state and execute cycle advanced. -/
theorem InFlight.slotAt_of_visits (hu : s.InFlight i sid n (rem + 1) u) (h : s.AboutToIssue i)
    (v : u.VisitedTo t (List.range u.rs.length)) :
    ∃ state c, t.slotAt s.tail = some { s.issuedSlot i n with state := state, execCycle := c } := by
  obtain ⟨state, c, hslot⟩ := hu.slot
  obtain ⟨hqj, hqk⟩ := h.operands_ready n
  obtain ⟨state', c', hvisited⟩ := visited_of_ready (sl := { s.issuedSlot i n with state := state, execCycle := c })
    (st := { s.issuedStation i n with cyclesRemaining := rem + 1 }) hqj hqk (Nat.succ_pos rem) u.currentCycle
  exact ⟨state', c', (v.slotAt_of_all hu.station hslot rfl).trans (congrArg some hvisited)⟩

theorem InFlight.stationAt_of_visits (hu : s.InFlight i sid n (rem + 1) u) (h : s.AboutToIssue i)
    (v : u.VisitedTo t (List.range u.rs.length)) :
    t.stationAt sid = some { s.issuedStation i n with cyclesRemaining := rem } ∧ ∀ j, j ≠ sid → t.stationAt j = none := by
  refine ⟨(v.stationAt_of_all sid).trans ?_, fun j hj => (v.stationAt_of_all j).trans ?_⟩
  · rw [hu.station, Option.map_some, Station.visited, if_pos (h.operands_ready n)]
    rfl
  · rw [hu.otherStations j hj]
    rfl

theorem InFlight.bubbleCount_of_visits (hu : s.InFlight i sid n rem u) (h : s.AboutToIssue i)
    (v : u.VisitedTo t (List.range u.rs.length)) : t.bubbleCount = s.bubbleCount := by
  have hnone : (List.range u.rs.length).countP u.waitingAt = 0 :=
    List.countP_eq_zero.2 fun j _ => Bool.eq_false_iff.1 (hu.not_waitingAt h j)
  rw [v.bubbles, hnone, Nat.add_zero, hu.bubbleCount]

/-- The visit with one cycle left ends the execution, `LAT` ticks after the issue (41_execute.md R103). -/
theorem InFlight.execDone_of_visits (hu : s.InFlight i sid n 1 u) (h : s.AboutToIssue i)
    (v : u.VisitedTo t (List.range u.rs.length)) : Event.execDone (s.currentCycle + s.cfg.lat i.opcode) s.tail ∈ t.log := by
  obtain ⟨state, c, hslot⟩ := hu.slot
  obtain ⟨hqj, hqk⟩ := h.operands_ready n
  have hcycle : u.currentCycle = s.currentCycle + s.cfg.lat i.opcode := Nat.add_right_cancel hu.cycle
  have howner : u.owner n = some (s.tail, _) := (hu.inv.consistent.soundBut none).owner_of_slot hslot
  have hdest : (s.issuedStation i n).dest = n := rfl
  have hevent : u.executeEvent sid = some (.execDone (s.currentCycle + s.cfg.lat i.opcode) s.tail) := by
    simp [executeEvent, hu.station, hqj, hqk, hdest, howner, hcycle]
  rw [v.log]
  exact List.mem_append_right _ (List.mem_filterMap.2 ⟨sid, List.mem_range.2 (stationAt_lt hu.station), hevent⟩)

/-- The boundary event of a tick changes nothing that the instruction in flight is known by. -/
theorem InFlight.logEvent (hu : s.InFlight i sid n rem u) (e : Event) : s.InFlight i sid n rem (u.logEvent e) :=
  { hu with
    inv := ⟨((hu.inv.consistent.soundBut none).logEvent e).consistent, hu.inv.busFree, hu.inv.issuedBefore, hu.inv.notBoth⟩
    execDone := fun h0 => List.mem_append_left _ (hu.execDone h0) }

/-- The execute phase touches none of what the run keeps, and no station waits, so it counts no bubble. -/
theorem InFlight.keptFrom_of_visits (hu : s.InFlight i sid n rem u) (h : s.AboutToIssue i)
    (v : u.VisitedTo t (List.range u.rs.length)) (f : ExecuteFrame u t) : s.KeptFrom t := by
  obtain ⟨hcomplete, hfault⟩ := stopped_eq_false_iff.1 hu.running
  exact ⟨stopped_eq_false_iff.2 ⟨f.complete.trans hcomplete, f.faultRec.trans hfault⟩, f.pc.trans hu.pc, f.cfg.trans hu.cfg,
    f.prog.trans hu.prog, f.head.trans hu.head, f.x.trans hu.x, f.mem.trans hu.mem, hu.bubbleCount_of_visits h v,
    f.committedCount.trans hu.committedCount, f.timedOut.trans hu.timedOut⟩

/-- A tick in which the instruction executes one step: no result is due, nothing is left to issue, and its slot is not ready. -/
theorem InFlight.exists_next (hu : s.InFlight i sid n (rem + 1) u) (h : s.AboutToIssue i) :
    ∃ t, step u = .next t ∧ s.InFlight i sid n rem t := by
  have hlogged := hu.logEvent (.cycleStart u.currentCycle)
  obtain ⟨t, hexecute, v⟩ := hlogged.inv.consistent.visitsAll
  have f := executePhase_frame hexecute
  have hkept := hlogged.keptFrom_of_visits h v f
  obtain ⟨state, c, htail⟩ := hlogged.slotAt_of_visits h v
  obtain ⟨hstation, hothers⟩ := hlogged.stationAt_of_visits h v
  have e : step u = .next { t with currentCycle := t.currentCycle + 1 } := by
    rw [step_of_noCandidates hu.running (hu.withinCap h) hu.notStuck hu.inv.busFree hu.candidates_eq_nil hexecute
      (issuePhase_of_pastEnd (hkept.pastEnd h)), commitPhase_of_unready (hkept.head_eq_tail h ▸ htail) rfl,
      endTick_of_notEnded fun hended => by rw [hended.2] at htail; cases htail]
  have hcycle : t.currentCycle + 1 + rem = s.currentCycle + s.cfg.lat i.opcode + 1 := by
    rw [f.currentCycle, Nat.add_right_comm]
    exact hu.cycle
  have hdone (h0 : rem = 0) : Event.execDone (s.currentCycle + s.cfg.lat i.opcode) s.tail ∈ t.log := by
    subst h0
    exact hlogged.execDone_of_visits h v
  exact ⟨_, e, { hkept with
    inv := hu.inv.step e, station := hstation, otherStations := hothers, slot := ⟨state, c, htail⟩
    otherSlots := fun j hj => v.free j (hu.otherSlots j hj), reissueLe := fun m hm => hu.reissueLe m (f.reissue ▸ hm)
    cycle := hcycle, execDone := hdone }⟩

/-! ## The result, its commit and the end of the run -/

/-- The opcode rule of `i`, on the operands `i` finds in `s`, answers `v` wherever the memory is that of `s`, takes no branch and
leaves the state. -/
def Answers (s : State) (i : Instr) (v : Value) : Prop :=
  ∀ st u, st.vj = (s.operand i.srcJ).v → st.vk = (s.operand i.srcK).v → st.imm = i.imm → u.cfg = s.cfg → u.mem = s.mem →
    ruleOf i.opcode st u = .done v false u

/-- The end of a lone instruction's run from `s`: the run is complete, and `rd` holds `v`. -/
structure FinishedFrom (s t : State) (i : Instr) (rd : RegNum) (v : Value) : Prop where
  complete : t.complete = true
  timedOut : t.timedOut = s.timedOut
  faultRec : t.faultRec = none
  totalCycles : t.totalCycles = s.currentCycle + s.cfg.lat i.opcode + 1
  x : t.x = s.x.set rd v
  mem : t.mem = s.mem
  committedCount : t.committedCount = s.committedCount + 1
  bubbleCount : t.bubbleCount = s.bubbleCount
  execDone : Event.execDone (s.currentCycle + s.cfg.lat i.opcode) s.tail ∈ t.log
  writeResult : Event.writeResult (s.currentCycle + s.cfg.lat i.opcode + 1) s.tail v ∈ t.log
  commit : Event.commit (s.currentCycle + s.cfg.lat i.opcode + 1) s.tail s.pc (some rd) v ∈ t.log

theorem InFlight.candidates_eq_singleton (hu : s.InFlight i sid n 0 u) : u.candidates = [sid] := by
  refine List.perm_singleton.1 ((List.perm_ext_iff_of_nodup candidates_nodup (List.nodup_singleton sid)).2 fun j => ?_)
  rw [mem_candidates, List.mem_singleton]
  constructor
  · rintro ⟨st, hst, -⟩
    by_contra hj
    rw [hu.otherStations j hj] at hst
    cases hst
  · rintro rfl
    exact ⟨_, hu.station, rfl⟩

/-- After the write-result phase of the last tick: the result stands in the instruction's slot, and no station is busy. -/
structure Written (s : State) (i : Instr) (v : Value) (t : State) : Prop extends KeptFrom s t where
  slot : ∃ sl, t.slotAt s.tail = some sl ∧ sl.ready = true ∧ sl.publicReg = i.dst ∧ sl.instr = s.pc ∧ sl.result = v
  otherSlots : ∀ j, j ≠ s.tail → t.slotAt j = none
  noStations : ∀ j, t.stationAt j = none
  cycle : t.currentCycle = s.currentCycle + s.cfg.lat i.opcode + 1
  execDone : Event.execDone (s.currentCycle + s.cfg.lat i.opcode) s.tail ∈ t.log
  writeResult : Event.writeResult (s.currentCycle + s.cfg.lat i.opcode + 1) s.tail v ∈ t.log

/-- The instruction's station on the result bus: its slot is the only one (42_write_result.md R112). -/
theorem InFlight.exists_onBus (hu : s.InFlight i sid n 0 u) :
    ∃ state c, (u.setBus (some sid)).OnBus sid { s.issuedStation i n with cyclesRemaining := 0 } s.tail
      { s.issuedSlot i n with state := state, execCycle := c } := by
  obtain ⟨state, c, hslot⟩ := hu.slot
  refine ⟨state, c, rfl, hu.station, hslot, rfl, fun j x hj _ => ?_, (Nat.ne_of_gt hu.inv.consistent.shape.cyclePos).symm⟩
  by_contra hne
  have hnone : (u.setBus (some sid)).slotAt j = none := hu.otherSlots j hne
  rw [hnone] at hj
  cases hj

/-- The write-result of the instruction, with the bus freed after it. -/
theorem InFlight.written_of_recorded (hu : s.InFlight i sid n 0 u) {state : SlotState} {c : Nat}
    (r : (u.setBus (some sid)).Recorded t sid { s.issuedStation i n with cyclesRemaining := 0 } s.tail
      { s.issuedSlot i n with state := state, execCycle := c } v) (hmem : t.mem = s.mem) : s.Written i v (t.setBus none) := by
  obtain ⟨hcomplete, hfault⟩ := stopped_eq_false_iff.1 hu.running
  have hcycle : u.currentCycle = s.currentCycle + s.cfg.lat i.opcode + 1 := hu.cycle
  have hdone : Event.execDone (s.currentCycle + s.cfg.lat i.opcode) s.tail ∈ t.log := by
    rw [r.log]
    exact List.mem_append_left _ (hu.execDone rfl)
  have hwritten : Event.writeResult (s.currentCycle + s.cfg.lat i.opcode + 1) s.tail v ∈ t.log := by
    rw [r.log, ← hcycle]
    exact List.mem_append_right _ List.mem_cons_self
  have hfree (j : Nat) : t.stationAt j = none := by
    by_cases hj : j = sid
    · subst hj; exact r.stationIsFree
    · have hnone : (u.setBus (some sid)).stationAt j = none := hu.otherStations j hj
      rw [r.otherStations j hj, hnone]
      rfl
  exact {
    running := stopped_eq_false_iff.2 ⟨r.complete.trans hcomplete, r.faultRec.trans hfault⟩
    pc := r.pc.trans hu.pc, cfg := r.cfg.trans hu.cfg, prog := r.prog.trans hu.prog, head := r.head.trans hu.head
    x := r.x.trans hu.x, mem := hmem, bubbleCount := r.bubbleCount.trans hu.bubbleCount
    committedCount := r.committedCount.trans hu.committedCount, timedOut := r.timedOut.trans hu.timedOut
    slot := ⟨_, r.slotIsWritten, rfl, rfl, rfl, rfl⟩
    otherSlots := fun j hj => (r.otherSlots j hj).trans (hu.otherSlots j hj)
    noStations := hfree
    cycle := r.currentCycle.trans hcycle
    execDone := hdone
    writeResult := hwritten }

/-- The write-result phase with the instruction as its one candidate. -/
theorem InFlight.exists_written (hu : s.InFlight i sid n 0 u) (hv : s.Answers i v) :
    ∃ t, writeResultPhase u = .next t ∧ s.Written i v t := by
  obtain ⟨state, c, hbus⟩ := hu.exists_onBus
  obtain ⟨t, e, r, hmem, -⟩ := exec_of_untaken_rule hbus (hv _ _ rfl rfl rfl hu.cfg hu.mem)
  have hinstr : exec ({ s.issuedStation i n with cyclesRemaining := 0 } : Station).instr (u.setBus (some sid)) = .next t :=
    (exec_eq_of_opcode_eq (station_instr_opcode _) rfl).trans e
  refine ⟨_, ?_, hu.written_of_recorded r (hmem.trans hu.mem)⟩
  rw [writeResultPhase, hu.candidates_eq_singleton,
    writeResults_cons_of_busy [] (stopped_eq_false_iff.1 hu.running).2 hu.station, hinstr]
  rfl

/-- The commit of the written slot empties the ROB past the end of the program, so the run ends. -/
theorem Written.exists_finished (hw : s.Written i v w) (h : s.AboutToIssue i) (hd : i.dst = some rd) :
    ∃ t, afterWriteResult w = .next t ∧ s.FinishedFrom t i rd v := by
  obtain ⟨sl, htail, hready, hreg, hinstr, hresult⟩ := hw.slot
  obtain ⟨-, hfault⟩ := stopped_eq_false_iff.1 hw.running
  have hhead : w.slotAt w.head = some sl := hw.head_eq_tail h ▸ htail
  have hslots (k : Nat) : (w.retired sl).slotAt k = none := by
    rw [retired_slotAt hhead, hw.head_eq_tail h]
    split
    · rfl
    · exact hw.otherSlots k ‹_›
  have e : afterWriteResult w = .next { w.retired sl with
      complete := true, totalCycles := w.currentCycle, log := (w.retired sl).log ++ [.complete w.currentCycle] } := by
    rw [afterWriteResult_of_phases hfault (executePhase_of_free hw.noStations) (issuePhase_of_pastEnd (hw.pastEnd h)),
      commitPhase_of_ready hhead hready, endTick_of_ended (s := w.retired sl) (hw.pastEnd h) hslots]
    rfl
  have hx : (w.retired sl).x = s.x.set rd v := by
    rw [retired_x, hreg, hd, hresult, hw.x]
    rfl
  have hcommit : Event.commit (s.currentCycle + s.cfg.lat i.opcode + 1) s.tail s.pc (some rd) v ∈ (w.retired sl).log := by
    rw [retired_log, hw.cycle, hw.head_eq_tail h, hinstr, hreg, hd, hresult]
    exact List.mem_append_right _ List.mem_cons_self
  exact ⟨_, e, {
    complete := rfl, timedOut := hw.timedOut, faultRec := hfault, totalCycles := hw.cycle, x := hx, mem := hw.mem
    committedCount := congrArg (· + 1) hw.committedCount, bubbleCount := hw.bubbleCount
    execDone := List.mem_append_left _ (List.mem_append_left _ hw.execDone)
    writeResult := List.mem_append_left _ (List.mem_append_left _ hw.writeResult)
    commit := List.mem_append_left _ hcommit }⟩

/-- The last tick: the result is recorded, and the head slot, now ready, commits and leaves the engine empty. -/
theorem InFlight.exists_finished (hu : s.InFlight i sid n 0 u) (h : s.AboutToIssue i) (hv : s.Answers i v) (hd : i.dst = some rd) :
    ∃ t, step u = .next t ∧ s.FinishedFrom t i rd v := by
  obtain ⟨w, hwrite, hw⟩ := (hu.logEvent (.cycleStart u.currentCycle)).exists_written hv
  obtain ⟨t, hafter, ht⟩ := hw.exists_finished h hd
  obtain ⟨hcomplete, hfault⟩ := stopped_eq_false_iff.1 hu.running
  refine ⟨t, ?_, ht⟩
  rw [step_running hcomplete hfault (hu.withinCap h) hu.notStuck, hwrite]
  exact hafter

/-- From the issue on: `rem` ticks that count the latency down, and the last one. -/
theorem InFlight.exists_run (hu : s.InFlight i sid n rem u) (h : s.AboutToIssue i) (hv : s.Answers i v) (hd : i.dst = some rd) :
    ∃ t, RunsTo u (rem + 1) t ∧ s.FinishedFrom t i rd v := by
  induction rem generalizing u with
  | zero =>
    obtain ⟨t, e, ht⟩ := hu.exists_finished h hv hd
    exact ⟨t, (RunsTo.refl t).cons hu.running e, ht⟩
  | succ rem ih =>
    obtain ⟨u', e, hu'⟩ := hu.exists_next h
    obtain ⟨t, hrun, ht⟩ := ih hu'
    exact ⟨t, hrun.cons hu.running e, ht⟩

theorem AboutToIssue.exists_run (h : s.AboutToIssue i) (hv : s.Answers i v) (hd : i.dst = some rd) :
    ∃ t, RunsTo s (s.cfg.lat i.opcode + 2) t ∧ s.FinishedFrom t i rd v := by
  obtain ⟨sid, n, u, e, hu⟩ := h.exists_inFlight
  obtain ⟨t, hrun, ht⟩ := hu.exists_run h hv hd
  exact ⟨t, hrun.cons h.running e, ht⟩

/-! ## What the register writers answer (45_arith.md R160, R161, 46_muldiv.md R165, R166, 47_load_store.md R171) -/

/-- A result that is no NaN uses no draw. -/
theorem done_of_some {r : Option Value} (h : r = some v) (u : State) :
    RuleResult.done (u.drawn r) false (u.afterDraw r) = .done v false u := by
  subst h
  rfl

/-- ADD, SUB, MUL and DIV in an empty engine: the operands are the public registers' values. -/
theorem answers_of_computing {f : Value → Value → Option Value} {rs1 rs2 : RegNum} (hslots : ∀ k, s.slotAt k = none)
    (hj : i.srcJ = some rs1) (hk : i.srcK = some rs2)
    (hrule : ∀ st u, ruleOf i.opcode st u = .done (u.drawn (f st.vj st.vk)) false (u.afterDraw (f st.vj st.vk)))
    (h : f (s.readX rs1) (s.readX rs2) = some v) : s.Answers i v := by
  intro st u hvj hvk _ _ _
  rw [operand_of_noSlots hslots, hj] at hvj
  rw [operand_of_noSlots hslots, hk] at hvk
  rw [hrule, hvj, hvk]
  exact done_of_some h u

theorem answers_of_load {rs1 : RegNum} {imm : Int} {a : Nat} (hslots : ∀ k, s.slotAt k = none)
    (ha : effAddr s.cfg.memSize (s.readX rs1) imm = .ok a) (h : s.mem.read a = v) : s.Answers (.ld rd rs1 imm) v := by
  intro st u hvj _ himm hcfg hmem
  rw [operand_of_noSlots hslots] at hvj
  have haddr : effAddr u.cfg.memSize st.vj st.imm = .ok a := by
    rw [hcfg, hvj, himm]
    exact ha
  rw [← h, ← hmem]
  exact ruleLd_of_ok haddr

end State

end Sys2Proof.Machine

open Sys2Proof Sys2Proof.Machine

/-- Settles O57: the tick of the issue, `LAT` ticks of execution and the last one, for any register writer whose rule answers a
value; each of the five does. -/
theorem loneInstructionTakesItsLatency : Obligations.LoneInstructionTakesItsLatency := by
  intro s rd rs1 rs2 imm v i hinv hring hi hcomplete hfault hslots hlast hat hreissue hcap
  have h : s.AboutToIssue i :=
    ⟨hinv, hring, State.stopped_eq_false_iff.2 ⟨hcomplete, hfault⟩, hslots, hlast, hat, hreissue, hcap⟩
  have hanswers : s.Answers i v ∧ i.dst = some rd := by
    rcases hi with ⟨rfl, hv⟩ | ⟨rfl, hv⟩ | ⟨rfl, hv⟩ | ⟨rfl, hv⟩ | ⟨rfl, a, ha, hv⟩
    · exact ⟨State.answers_of_computing hslots rfl rfl (fun _ _ => rfl) hv, rfl⟩
    · exact ⟨State.answers_of_computing hslots rfl rfl (fun _ _ => rfl) hv, rfl⟩
    · exact ⟨State.answers_of_computing hslots rfl rfl (fun _ _ => rfl) hv, rfl⟩
    · exact ⟨State.answers_of_computing hslots rfl rfl (fun _ _ => rfl) hv, rfl⟩
    · exact ⟨State.answers_of_load hslots ha hv, rfl⟩
  obtain ⟨t, ⟨hrun, hbefore⟩, ht⟩ := h.exists_run hanswers.1 hanswers.2
  exact ⟨t, hrun, ht.complete, ht.timedOut, ht.faultRec, ht.totalCycles, ht.x, fun a => by rw [ht.mem], ht.committedCount,
    ht.bubbleCount, ht.execDone, ht.writeResult, ht.commit, hbefore⟩
end
